-- ==== Sys2Proof/Word.lean ====
section
/-!
DEFINITION. The digit width `W` (R7) and the `W`-bit word (R11).
-/
namespace Sys2Proof

/-- The legal values of the parameter `W`, the source's `DIGIT_BITS` (R7, D2). -/
inductive Width where
  | w32
  | w64
  deriving DecidableEq, Repr

/-- `W` as a number of bits. -/
def Width.bits : Width → Nat
  | .w32 => 32
  | .w64 => 64

/-- `W / 8`: the bytes of a digit and of a register (R20). -/
def Width.bytes : Width → Nat
  | .w32 => 4
  | .w64 => 8

/-- A `W`-bit value: a digit, a register, a digit address (R7, R10, R11). -/
abbrev Word (W : Width) := BitVec W.bits

end Sys2Proof
end

