-- ==== Sys2Proof/Syntax.lean ====
section
/-!
DEFINITION. The commands: one constructor per row of spec/opcode_table.json (R92). A command carries
no operand fields (R91).
-/
namespace Sys2Proof

/-- A legal command word (R92). -/
inductive Instr where
  /-- OP 0x1, bit-length of X (R200). -/
  | size
  /-- OP 0x2, bit N of X (R171). -/
  | test
  /-- OP 0x3, X with bit N set (R173). -/
  | set
  /-- OP 0x4, X with bit N cleared (R175). -/
  | clear
  /-- OP 0x5, X with bit N flipped (R179). -/
  | toggle
  /-- OP 0x6, population count of X (R230). -/
  | count
  /-- OP 0xF, release the held result and working buffer (R254). -/
  | release
  deriving DecidableEq, Repr

end Sys2Proof
end

