-- ==== Sys2Proof/Asm.lean ====
section
/-!
DEFINITION. The assembler's command lines as terms (R96). Their text is read in
Machine/AssemblerText.lean; their expansion into host moves (R98) is in Machine/Assembler.lean.
-/
namespace Sys2Proof.Asm

/-- The spellings of operand `<x>` (R96). -/
inductive XOperand where
  /-- `#<int>` -/
  | imm (v : Int)
  /-- `@<base>:<size>`, and `-@<base>:<size>` when `neg` -/
  | digits (neg : Bool) (base size : Nat)
  /-- `nan` -/
  | nan
  deriving DecidableEq, Repr

/-- The spellings of operand `<n>` (R96). -/
inductive NOperand where
  /-- `#<nat>` -/
  | val (k : Nat)
  /-- `huge` -/
  | huge
  /-- `invalid` -/
  | invalid
  deriving DecidableEq, Repr

/-- A command line (R96). -/
inductive Line where
  | size (x : XOperand)
  | test (x : XOperand) (n : NOperand)
  | set (x : XOperand) (n : NOperand)
  | clear (x : XOperand) (n : NOperand)
  | toggle (x : XOperand) (n : NOperand)
  | count (x : XOperand)
  | release
  deriving DecidableEq, Repr

end Sys2Proof.Asm
end

