-- ==== Sys2Proof/Config.lean ====
section
/-!
DEFINITION. What an implementation fixes (R7 to R10) and the free values. The open parameters are
data that State carries (A1), so that a statement about every state is one about every legal value
of them; the free values are constants with no body, so that nothing can be proved of them.
-/
namespace Sys2Proof

/-- `HOST_BYTE_ORDER`: the byte order inside a digit (R10, R62). The spec leaves the order open and lists no values
for it; that it is one of these two is a DESIGN CHOICE (A4). -/
inductive ByteOrder where
  | little
  | big
  deriving DecidableEq, Repr

/-- The open parameters beside `W`: `MAX_DIGITS` (R9), `HOST_BYTE_ORDER` (R62), `BLOCK_BASE` (R20). -/
structure Params where
  maxDigits : Nat
  byteOrder : ByteOrder
  blockBase : Nat
  deriving DecidableEq, Repr

/-- `INLINE_THRESHOLD` (R8, D3). -/
def inlineThreshold : Nat := 4

/-- The parameters `State.reset` takes: `MAX_DIGITS = 1024` as in the conventions of
95_test_vectors.md, a little-endian host, the block at byte address 0. DESIGN CHOICE (A1). -/
def Params.standard : Params := { maxDigits := 1024, byteOrder := .little, blockBase := 0 }

/-- FREE VALUE (I5, I6; A5): the allocator's answer at a call, `none` for `fail`. The argument is the
count of free values taken so far. -/
opaque Config.allocDraw (W : Width) : Nat → Option (Word W)

/-- FREE VALUE (I18; A6): what a digit address that has been given back to the allocator reads as.
The first argument is the count of free values taken so far, the second the address. -/
opaque Config.releasedDigit (W : Width) : Nat → Nat → Word W

end Sys2Proof
end

