-- ==== Sys2Proof/WellFormed.lean ====
section
/-!
DEFINITION. The checks on terms: the parameters' bounds (R7, R9) and the ranges of an assembler line's
numbers (R96). A command has no operand fields (R91), so there is nothing in it to check.
-/
namespace Sys2Proof

/-- A command carries no operand fields (R91): each of them is well-formed. -/
def Instr.wf : Instr → Bool
  | .size => true
  | .test => true
  | .set => true
  | .clear => true
  | .toggle => true
  | .count => true
  | .release => true

/-- `1 <= MAX_DIGITS <= floor((2^W - 1) / W)` (R9). -/
def Params.legal (W : Width) (p : Params) : Bool :=
  decide (1 ≤ p.maxDigits) && decide (p.maxDigits ≤ (2 ^ W.bits - 1) / W.bits)

/-- `-2^(W-1) <= int < 2^(W-1)` for a COMPACT operand, `W`-bit values for a DIGITS one (R96, R28, R29). -/
def Asm.XOperand.wf (W : Width) : Asm.XOperand → Bool
  | .imm v => decide (-(2 : Int) ^ (W.bits - 1) ≤ v) && decide (v < (2 : Int) ^ (W.bits - 1))
  | .digits _ base size => decide (base < 2 ^ W.bits) && decide (size < 2 ^ W.bits)
  | .nan => true

/-- `0 <= nat < 2^W` for a VALUE index (R96). -/
def Asm.NOperand.wf (W : Width) : Asm.NOperand → Bool
  | .val k => decide (k < 2 ^ W.bits)
  | .huge => true
  | .invalid => true

/-- Each operand of the line is in its range (R96). -/
def Asm.Line.wf (W : Width) : Asm.Line → Bool
  | .size x => x.wf W
  | .test x n => x.wf W && n.wf W
  | .set x n => x.wf W && n.wf W
  | .clear x n => x.wf W && n.wf W
  | .toggle x n => x.wf W && n.wf W
  | .count x => x.wf W
  | .release => true

end Sys2Proof
end

