-- ==== Sys2Proof/Decode.lean ====
section
/-!
DEFINITION. Decoding a command word (R90, R92 to R95), total on every word and rejecting by name, and
the encoder written from the same table (R92).
-/
namespace Sys2Proof

/-- Why a word names no command (R94). -/
inductive DecodeReject where
  /-- a bit of `v[W-1:4]` is set, whatever OP is -/
  | reservedBits
  /-- `v[W-1:4] = 0` and OP is one of 0x0, 0x7 to 0xE -/
  | reservedOp (op : Nat)
  deriving DecidableEq, Repr

/-- A legal command, or why there is none. -/
inductive Decoded where
  | command (i : Instr)
  | illegal (r : DecodeReject)
  deriving DecidableEq, Repr

/-- The OP field of a word whose reserved bits are 0 (R92, R94). -/
def decodeOp (op : Nat) : Decoded :=
  match op with
  | 0x1 => .command .size
  | 0x2 => .command .test
  | 0x3 => .command .set
  | 0x4 => .command .clear
  | 0x5 => .command .toggle
  | 0x6 => .command .count
  | 0xF => .command .release
  | op => .illegal (.reservedOp op)

/-- R93: legal if and only if the bits from 4 up are 0 and the OP is one of the seven. -/
def decodeBits (v : Nat) : Decoded :=
  if v / 16 = 0 then decodeOp (v % 16) else .illegal .reservedBits

/-- Decoding of the `W`-bit word `v` written to CMD (R90, R93). -/
def decode {W : Width} (v : Word W) : Decoded := decodeBits v.toNat

/-- The command of a decoded word, if it is legal. -/
def Decoded.instr? : Decoded → Option Instr
  | .command i => some i
  | .illegal _ => none

/-- The OP value of a command (R92). -/
def opcode : Instr → Nat
  | .size => 0x1
  | .test => 0x2
  | .set => 0x3
  | .clear => 0x4
  | .toggle => 0x5
  | .count => 0x6
  | .release => 0xF

/-- The command word of a command: its OP in bits [3:0], zeros above (R90, R92). -/
def encode (W : Width) (i : Instr) : Word W := BitVec.ofNat W.bits (opcode i)

/-- What the decoder reads from an instruction whose `nbits` bits are `w`, every higher bit 0. The
table's 32-bit patterns are widened with zeros for `W = 64` (R93), so one reading serves both widths. -/
def decodeTableWord (nbits w : Nat) : Option Instr := (decodeBits (w % 2 ^ nbits)).instr?

end Sys2Proof
end

