-- ==== Sys2Proof/Machine/State.lean ====
section
/-!
DEFINITION. The state of the machine: every register and every piece of internal state of 10_state.md,
host memory (R60), the allocator's side of the interface (R143, R64), and the moves still to come of
the two agents (R250 to R252). Plain data throughout.
-/
namespace Sys2Proof.Machine

/-- STATUS.STATE (R24, R25). -/
inductive Phase where
  | idle
  | busy
  | done
  deriving DecidableEq, Repr

/-- STATUS.ERR (R24, R280). -/
inductive ErrCode where
  | none
  | badArgument
  | allocationFailure
  | illegalCommand
  deriving DecidableEq, Repr

/-- STATUS.RFORM (R24, R26). -/
inductive RForm where
  | none
  | scalar
  | compact
  | digits
  | original
  deriving DecidableEq, Repr

/-- WKIND, seen as STATUS.WBUF (R24, R42). -/
inductive WKind where
  | none
  | inline
  | heap
  deriving DecidableEq, Repr

/-- The values of PENDING_OP (R42). -/
inductive PendingOp where
  | size
  | test
  | set
  | clear
  | toggle
  | count
  deriving DecidableEq, Repr

/-- A run of digit addresses `[base, base + len)` of host memory. -/
structure Region where
  base : Nat
  len : Nat
  deriving DecidableEq, Repr

/-- An answer of the allocator to `Alloc(n)` (R143). -/
inductive AllocAnswer (W : Width) where
  | fail
  | ok (base : Word W)
  deriving DecidableEq, Repr

/-- An event of the allocator trace (R143, R146). -/
inductive AllocEvent (W : Width) where
  /-- `ALLOC(n) -> answer` -/
  | alloc (n : Nat) (answer : AllocAnswer W)
  /-- `FREE(base)` -/
  | free (base : Word W)
  deriving DecidableEq, Repr

/-- A whole-digit access of the core to host memory (R63). -/
inductive PortAccess where
  | read (addr : Nat)
  | write (addr : Nat)
  deriving DecidableEq, Repr

/-- One atomic step of the host agent (R97, R250, R251, R310). -/
inductive HostMove (W : Width) where
  /-- a write of `size` bytes to the register block's side of the bus, at a byte address -/
  | busWrite (addr size : Nat) (v : Word W)
  /-- a read of `size` bytes at a byte address -/
  | busRead (addr size : Nat)
  /-- `MEM <a>, <d>`: a host write of a digit of host memory (R97) -/
  | memWrite (addr : Nat) (d : Word W)
  /-- a host read of a digit of host memory (R51, R60) -/
  | memRead (addr : Nat)
  /-- `WAIT`: read STATUS until STATE ≠ BUSY (R97) -/
  | wait
  /-- reset of the block (R310, R311) -/
  | reset
  /-- the host reclaims a buffer the block abandoned at a reset (R311; A15) -/
  | reclaim (base : Nat)
  deriving DecidableEq, Repr

/-- A turn of one of the two agents (R252, R251). -/
inductive Move (W : Width) where
  | core
  | host (m : HostMove W)
  deriving DecidableEq, Repr

/-- Host memory, as bytes at rising keys: digit address `a` holds the keys from `a * (W/8)` on (A4). -/
abbrev Memory := List Host.Cell

/-- What an unlisted key reads as. DESIGN CHOICE (A3): the spec gives host memory no initial contents. -/
def Memory.unlisted : BitVec 8 := 0

/-- The canonical form: keys strictly rising, no entry equal to what an unlisted key reads as. -/
abbrev Memory.wf (m : Memory) : Prop :=
  m.Pairwise (fun c d => c.1 < d.1) ∧ ∀ c ∈ m, c.2 ≠ Memory.unlisted

/-- The block and its surroundings at width `W`. -/
structure Block (W : Width) where
  /-- the open parameters (R9, R10, R20, R62); no step writes them -/
  params : Params
  /-- STATUS.STATE (R25) -/
  phase : Phase
  /-- STATUS.ERR (R280) -/
  err : ErrCode
  /-- STATUS.RFORM (R26) -/
  rform : RForm
  /-- STATUS.RSIGN (R24) -/
  rsign : Bool
  /-- XDESC[2:0]: XFORM in [1:0], XSIGN in [2] (R27) -/
  xdesc : BitVec 3
  /-- XSIZE (R28) -/
  xsize : Word W
  /-- XBASE (R29) -/
  xbase : Word W
  /-- XIMM (R30) -/
  ximm : Word W
  /-- NDESC[1:0]: NKIND (R31) -/
  ndesc : BitVec 2
  /-- NVAL (R32) -/
  nval : Word W
  /-- RVAL (R34) -/
  rval : Word W
  /-- RSIZE (R35) -/
  rsize : Word W
  /-- RSEL (R36) -/
  rsel : Word W
  /-- PENDING_OP (R42) -/
  pendingOp : PendingOp
  /-- ACQD (R42, R121) -/
  acqd : Word W
  /-- WKIND (R42) -/
  wkind : WKind
  /-- INL[0..3] (R43) -/
  inl : Vector (Word W) 4
  /-- HBASE (R42) -/
  hbase : Word W
  /-- WN (R42) -/
  wn : Nat
  /-- host memory (R60) -/
  mem : Memory
  /-- the buffers the allocator has handed to this core and not got back (R64, R311) -/
  live : List Region
  /-- digit addresses given back to the allocator and written by nobody since: any value (I18; A6) -/
  released : List Nat
  /-- the allocator trace, oldest first (R143, R146) -/
  trace : List (AllocEvent W)
  /-- MODEL's own (A11): the core's host-memory accesses in its last step, oldest first (R71, R78) -/
  portLog : List PortAccess
  /-- MODEL's own (A7): the moves still to come, and of which agent -/
  agenda : List (Move W)
  /-- MODEL's own (A5): allocator answers fixed in advance; when empty, answers are free values -/
  answers : List (AllocAnswer W)
  /-- MODEL's own (A5, A6): how many free values have been taken -/
  draws : Nat
  /-- MODEL's own (A10): what the host's last read returned -/
  busData : Word W
  /-- MODEL's own (A9): the operand region of the last accepted command, which the host must not write
  until it has read STATUS with STATE ≠ BUSY (R320) -/
  guarded : Option Region
  /-- MODEL's own (A23): the host value the operand of the last accepted command was decoded from, which the
  host keeps and an ORIGINAL result denotes (R261, R324); none where that operand was no number -/
  decoded : Option Int
  deriving DecidableEq, Repr

/-- The machine's state: its width (R7) and the block at that width. -/
structure State where
  width : Width
  block : Block width
  deriving DecidableEq, Repr

/-- What stops the machine. No command and no error of the core does: an error is a code in STATUS.ERR
(R285), and no behaviour of the core is stuck. -/
inductive Fault where
  /-- Raised by a host memory access at a digit address that does not exist, `2^W` or above (R60).
  Safe: the machine stops where the hardware has no such access. -/
  | digitAddressOutsideMemory (addr : Nat)
  deriving DecidableEq, Repr

/-- What a step gives no meaning to. All but the first are moves of the HOST. -/
inductive Refusal where
  /-- Raised by an arm of `exec` whose instruction has no meaning yet. Safe. -/
  | notModelled (mnemonic : String)
  /-- Raised by a register access narrower or wider than `W` bits or misaligned: "a model refuses it"
  (R20, I15). Safe. -/
  | partialRegisterAccess (addr size : Nat)
  /-- Raised by a bus access that touches no byte of the block: the platform's address map is not the
  core's (R69, R292). Safe. -/
  | accessOutsideBlock (addr : Nat)
  /-- Raised by a host move on storage the core owns: "the model gives the host no such move" (R320,
  I19). Safe for claims about hosts that keep R320; no claim covers one that breaks it (A9). -/
  | hostTouchedOwnedStorage (addr : Nat)
  deriving DecidableEq, Repr

/-- The block right after reset with host memory `mem` around it: the values of R50 for every register
and for WKIND, HBASE and WN. PENDING_OP, ACQD and INL are unspecified there; the model names SIZE and 0
(DESIGN CHOICE, A2). -/
def Block.resetWith (W : Width) (p : Params) (mem : Memory) : Block W where
  params := p
  phase := .idle
  err := .none
  rform := .none
  rsign := false
  xdesc := 0
  xsize := 0
  xbase := 0
  ximm := 0
  ndesc := 0
  nval := 0
  rval := 0
  rsize := 0
  rsel := 0
  pendingOp := .size
  acqd := 0
  wkind := .none
  inl := Vector.replicate 4 0
  hbase := 0
  wn := 0
  mem := mem
  live := []
  released := []
  trace := []
  portLog := []
  agenda := []
  answers := []
  draws := 0
  busData := 0
  guarded := none
  decoded := none

/-- The machine right after reset at any parameters, with nothing listed in memory. -/
def State.resetFor (W : Width) (p : Params) : State := ⟨W, Block.resetWith W p []⟩

/-- The machine right after reset (R50, R310), at the parameters of `Params.standard` and `W = 64`
(DESIGN CHOICE, A1). -/
def State.reset : State := State.resetFor .w64 Params.standard

end Sys2Proof.Machine
end

