-- ==== Sys2Proof/Machine/Bits.lean ====
section
/-!
DEFINITION. The arithmetic the commands share: magnitudes (R13), bit-length (R14, R201), the count of
ones (R14) and its word-parallel form (R232), bit masks.
-/
namespace Sys2Proof.Machine

/-- `mag(d, k) = sum_{i<k} d[i] * 2^(W*i)` (R13). -/
def mag (W : Width) (d : Nat → Nat) : Nat → Nat
  | 0 => 0
  | k + 1 => mag W d k + d k * 2 ^ (W.bits * k)

/-- A magnitude with its sign (R13). -/
def signed (sign : Bool) (m : Nat) : Int := if sign then -(m : Int) else (m : Int)

/-- `bitlen(d)`: 0 for 0, else `floor(log2 d) + 1` (R14). -/
def bitlen {W : Width} (d : Word W) : Nat := if d.toNat = 0 then 0 else Nat.log2 d.toNat + 1

/-- The loop of R201 on the top digit: shift right until zero, counting; `fuel` bounds the passes. -/
def bitLengthLoop : Nat → Nat → Nat → Nat
  | 0, _, r => r
  | fuel + 1, t, r => if t = 0 then r else bitLengthLoop fuel (t / 2) (r + 1)

/-- `popcount(d)`: the number of bits equal to 1 (R14). -/
def popcount {W : Width} (d : Word W) : Nat := (List.range W.bits).countP (fun i => d.getLsbD i)

/-- The constant M7 of R233: every hex digit 7. -/
def swarM7 : (W : Width) → Word W
  | .w32 => 0x77777777#32
  | .w64 => 0x7777777777777777#64

/-- The constant MF of R233: every byte 0x0F. -/
def swarMF : (W : Width) → Word W
  | .w32 => 0x0F0F0F0F#32
  | .w64 => 0x0F0F0F0F0F0F0F0F#64

/-- The three shifted subtractions of R232: afterwards each 4-bit lane holds the count of its 4 bits. -/
def swarNibbles {W : Width} (d : Word W) : Word W :=
  let n1 := (d >>> 1) &&& swarM7 W
  let n2 := (n1 >>> 1) &&& swarM7 W
  let n3 := (n2 >>> 1) &&& swarM7 W
  d - n1 - n2 - n3

/-- The widening step of R232: afterwards each byte lane holds the count of its 8 bits. -/
def swarBytes {W : Width} (x : Word W) : Word W := (x + (x >>> 4)) &&& swarMF W

/-- The word-parallel reduction of R232. COUNT uses `popcount`, which alone is normative (R231, A17). -/
def swarCount {W : Width} (d : Word W) : Nat := (swarBytes (swarNibbles d)).toNat % 255

/-- `1 << bo` (R173). -/
def bitMask (W : Width) (bo : Nat) : Word W := 1#W.bits <<< bo

/-- The OR of SET (R173). -/
def setBit {W : Width} (d : Word W) (bo : Nat) : Word W := d ||| bitMask W bo

/-- The AND with complement of CLEAR (R175). -/
def clearBit {W : Width} (d : Word W) (bo : Nat) : Word W := d &&& ~~~ bitMask W bo

/-- The XOR of TOGGLE (R179). -/
def toggleBit {W : Width} (d : Word W) (bo : Nat) : Word W := d ^^^ bitMask W bo

end Sys2Proof.Machine
end

