-- ==== Sys2Proof/Machine/Memory.lean ====
section
/-!
DEFINITION. Host memory (R60 to R67): one byte, one digit, and the core's port to it, which moves one
whole digit at a time and keeps the order of its accesses (R63, R71).
-/
namespace Sys2Proof.Machine

/-- The byte at a key; an unlisted key reads as `Memory.unlisted` (A3). -/
def readByte : Memory → Nat → BitVec 8
  | [], _ => Memory.unlisted
  | (k, b) :: rest, a => if k = a then b else readByte rest a

/-- Write the byte at a key, keeping the canonical form: the value an unlisted key reads as is not listed. -/
def writeByte : Memory → Nat → BitVec 8 → Memory
  | [], a, v => if v = Memory.unlisted then [] else [(a, v)]
  | (k, b) :: rest, a, v =>
    if a < k then (if v = Memory.unlisted then (k, b) :: rest else (a, v) :: (k, b) :: rest)
    else if a = k then (if v = Memory.unlisted then rest else (a, v) :: rest)
    else (k, b) :: writeByte rest a v

/-- The key of the byte of weight `256^i` of the digit at address `a`, in the host's byte order (R62, A4). -/
def byteKey (W : Width) (o : ByteOrder) (a i : Nat) : Nat :=
  a * W.bytes + (match o with | .little => i | .big => W.bytes - 1 - i)

/-- The value of the `n` least significant bytes of the digit at `a`. -/
def readBytes (W : Width) (o : ByteOrder) (m : Memory) (a : Nat) : Nat → Nat
  | 0 => 0
  | n + 1 => readBytes W o m a n + (readByte m (byteKey W o a n)).toNat * 256 ^ n

/-- Write the `n` least significant bytes of `v` to the digit at `a`. -/
def writeBytes (W : Width) (o : ByteOrder) (m : Memory) (a : Nat) (v : Word W) : Nat → Memory
  | 0 => m
  | n + 1 => writeByte (writeBytes W o m a v n) (byteKey W o a n) (v.extractLsb' (8 * n) 8)

/-- The digit at digit address `a` (R10, R60). -/
def readDigit (W : Width) (o : ByteOrder) (m : Memory) (a : Nat) : Word W :=
  BitVec.ofNat W.bits (readBytes W o m a W.bytes)

/-- Host memory with digit `v` at digit address `a`; no other digit changes (R65). -/
def writeDigit (W : Width) (o : ByteOrder) (m : Memory) (a : Nat) (v : Word W) : Memory :=
  writeBytes W o m a v W.bytes

namespace Block
variable {W : Width}

/-- The digit host memory holds at `a`. -/
def digitAt (b : Block W) (a : Nat) : Word W := readDigit W b.params.byteOrder b.mem a

/-- Note an access of the core's port (A11). -/
def logPort (b : Block W) (x : PortAccess) : Block W := { b with portLog := b.portLog ++ [x] }

/-- Take a free value: the next one is another. -/
def countDraw (b : Block W) : Block W := { b with draws := b.draws + 1 }

/-- Put a digit into host memory; its address is no longer one whose contents are any value. -/
def putDigit (b : Block W) (a : Nat) (v : Word W) : Block W :=
  { b with mem := writeDigit W b.params.byteOrder b.mem a v, released := b.released.filter (· != a) }

/-- What a read of digit address `a` gives: the digit there, or a free value if the address has been
given back to the allocator (I18; A6). -/
def fetchDigit (b : Block W) (a : Nat) : Word W × Block W :=
  if a ∈ b.released then (Config.releasedDigit W b.draws a, b.countDraw) else (b.digitAt a, b)

/-- `MemRead(a, 1)` of the core (R12). -/
def memRead (b : Block W) (a : Nat) : Word W × Block W :=
  ((b.fetchDigit a).1, (b.fetchDigit a).2.logPort (.read a))

/-- `MemWrite(a, 1, v)` of the core (R12). -/
def memWrite (b : Block W) (a : Nat) (v : Word W) : Block W := (b.putDigit a v).logPort (.write a)

end Block
end Sys2Proof.Machine
end

