-- ==== Sys2Proof/Machine/Operands.lean ====
section
/-!
DEFINITION. The operands of a command: operand X as a Number View (R40, R120 to R127), operand N as a
bit index (R160 to R164), and the prologue of the four bit operations (R170).
-/
namespace Sys2Proof.Machine

/-- What a command raises (R12, R280). -/
inductive CmdError where
  | badArgument
  | allocationFailure
  | illegalCommand
  deriving DecidableEq, Repr

/-- What a part of a command answers: a value and the block, or a raise and the block it leaves. -/
inductive Res (W : Width) (α : Type) where
  | ok (a : α) (b : Block W)
  | raise (e : CmdError) (b : Block W)

/-- Go on with the value, or pass the raise on. -/
def Res.andThen {W : Width} {α β : Type} (r : Res W α) (f : α → Block W → Res W β) : Res W β :=
  match r with
  | .ok a b => f a b
  | .raise e b => .raise e b

/-- Where a view's digits lie: in ACQD, or in the operand region from a digit address on (R121, R122). -/
inductive ViewDigits where
  | acqd
  | region (base : Nat)
  deriving DecidableEq, Repr

/-- A Number View (R40). -/
structure View where
  sign : Bool
  size : Nat
  digits : ViewDigits
  deriving DecidableEq, Repr

/-- The operand region a view aliases, if it lies in host memory (R61). -/
def View.region? (v : View) : Option Region :=
  match v.digits with
  | .acqd => none
  | .region base => some ⟨base, v.size⟩

/-- A decoded index operand (R161). -/
inductive Index where
  | value (bn : Nat)
  | huge
  deriving DecidableEq, Repr

namespace Block
variable {W : Width}

/-- XDESC[1:0] (R27). -/
def xform (b : Block W) : Nat := (b.xdesc.extractLsb' 0 2).toNat

/-- XDESC[2], true for a negative operand (R27). -/
def xsign (b : Block W) : Bool := b.xdesc.getLsbD 2

/-- NDESC[1:0] (R31). -/
def nkind (b : Block W) : Nat := b.ndesc.toNat

/-- Synthesise the single digit of a COMPACT operand (R121). -/
def setAcqd (b : Block W) (v : Word W) : Block W := { b with acqd := v }

/-- The absolute value of XIMM as an unsigned digit: two's-complement negation of a negative one (R121, G3;
A19). -/
def ximmAbs (b : Block W) : Word W := if b.ximm.msb then -b.ximm else b.ximm

/-- R121: the single digit goes to ACQD, and stays there if the command then raises (A12). -/
def acquireCompact (b : Block W) : Res W View :=
  .ok { sign := b.ximm.msb, size := 1, digits := .acqd } (b.setAcqd b.ximmAbs)

/-- R122: the size and the address range are checked; no digit is read. -/
def acquireDigits (b : Block W) : Res W View :=
  if b.xsize.toNat = 0 ∨ b.params.maxDigits < b.xsize.toNat ∨ 2 ^ W.bits < b.xbase.toNat + b.xsize.toNat then
    .raise .badArgument b
  else .ok { sign := b.xsign, size := b.xsize.toNat, digits := .region b.xbase.toNat } b

/-- R120: XFORM 1 is COMPACT, 2 is DIGITS, 0 and 3 are not a number. -/
def acquire (b : Block W) : Res W View :=
  match b.xform with
  | 1 => b.acquireCompact
  | 2 => b.acquireDigits
  | _ => .raise .badArgument b

/-- `Digit(V, i)` (R123). -/
def digit (b : Block W) (v : View) (i : Nat) : Word W × Block W :=
  match v.digits with
  | .acqd => (b.acqd, b)
  | .region base => b.memRead (base + i)

/-- R161: NKIND 1 is the index in NVAL, 2 an index of `2^W` or more, 0 and 3 are no index. -/
def index (b : Block W) : Res W Index :=
  match b.nkind with
  | 1 => .ok (.value b.nval.toNat) b
  | 2 => .ok .huge b
  | _ => .raise .badArgument b

end Block

/-- R160: the digit a bit address falls in. -/
def digitIndex (W : Width) (bn : Nat) : Nat := bn / W.bits

/-- R160: the bit inside that digit. -/
def bitOffset (W : Width) (bn : Nat) : Nat := bn % W.bits

/-- R170: acquisition, then the index, then the sign; each failure is BadArgument. -/
def Block.bitOpPrologue {W : Width} (b : Block W) : Res W (View × Index) :=
  b.acquire.andThen fun v b1 =>
    b1.index.andThen fun n b2 =>
      if v.sign then .raise .badArgument b2 else .ok (v, n) b2

end Sys2Proof.Machine
end

