-- ==== Sys2Proof/Machine/Ops.lean ====
section
/-!
DEFINITION. The operations the commands share: the allocator (R143), the working buffer (R43, R44), the
Resize/Copy Engine (R140 to R149), normalisation (R210 to R212), the release of a result (R146, R253),
the result primitives (R255), and the one way an error ends a command (R256) beside the one way a
command completes (R252).
-/
namespace Sys2Proof.Machine

/-- No digit address lies in both regions. -/
def Region.disjoint (r q : Region) : Bool :=
  decide (r.base + r.len ≤ q.base) || decide (q.base + q.len ≤ r.base)

/-- The address lies in the region. -/
def Region.has (r : Region) (a : Nat) : Bool := decide (r.base ≤ a) && decide (a < r.base + r.len)

namespace Block
variable {W : Width}

/-! ### The allocator -/

/-- What the allocator owes an `ok(base)` (R64): the region does not wrap, and it overlaps neither the
operand region of the command nor a live buffer (A21). -/
def admissible (b : Block W) (operand : Option Region) (n : Nat) (base : Word W) : Bool :=
  decide (base.toNat + n ≤ 2 ^ W.bits) &&
    (match operand with
      | none => true
      | some r => r.disjoint ⟨base.toNat, n⟩) &&
    b.live.all (fun r => r.disjoint ⟨base.toNat, n⟩)

/-- The next answer as it comes: the first fixed in advance, else a free value (I5; A5). -/
def rawAnswer (b : Block W) : AllocAnswer W :=
  match b.answers with
  | a :: _ => a
  | [] =>
    match Config.allocDraw W b.draws with
    | none => .fail
    | some base => .ok base

/-- The allocator's answer to `Alloc(n)` (R143). A base that breaks R64 is none the allocator can give:
it is read as `fail` (A5). -/
def allocAnswer (b : Block W) (operand : Option Region) (n : Nat) : AllocAnswer W :=
  match b.rawAnswer with
  | .fail => .fail
  | .ok base => if b.admissible operand n base then .ok base else .fail

/-- The answer has been used. -/
def takeAnswer (b : Block W) : Block W :=
  match b.answers with
  | _ :: rest => { b with answers := rest }
  | [] => b.countDraw

/-- Record an event in the allocator trace (R143, R146). -/
def record (b : Block W) (e : AllocEvent W) : Block W := { b with trace := b.trace ++ [e] }

/-- The allocator has handed the core a buffer. -/
def addLive (b : Block W) (r : Region) : Block W := { b with live := r :: b.live }

/-- `Alloc(n)`: the answer, and the block with the call recorded (R12, R143). -/
def alloc (b : Block W) (operand : Option Region) (n : Nat) : AllocAnswer W × Block W :=
  let b1 := b.takeAnswer.record (.alloc n (b.allocAnswer operand n))
  match b.allocAnswer operand n with
  | .fail => (.fail, b1)
  | .ok base => (.ok base, b1.addLive ⟨base.toNat, n⟩)

/-- The addresses of a region are the allocator's again (I18; A6). -/
def giveBack (b : Block W) (r : Region) : Block W :=
  { b with
    live := b.live.filter (· != r)
    released := List.range' r.base r.len ++ b.released.filter (fun a => !r.has a) }

/-- `Free(base)` of a buffer of `n` digits, recorded as `FREE(base)` (R12, R146; A22). -/
def free (b : Block W) (base : Word W) (n : Nat) : Block W :=
  (b.giveBack ⟨base.toNat, n⟩).record (.free base)

/-! ### The working buffer -/

/-- WKIND, HBASE and WN (R42). -/
def setWork (b : Block W) (k : WKind) (base : Word W) (n : Nat) : Block W :=
  { b with wkind := k, hbase := base, wn := n }

/-- Write a cell of INL (R43). -/
def setInl (b : Block W) (i : Nat) (v : Word W) : Block W :=
  { b with inl := b.inl.setIfInBounds i v }

/-- A cell of INL (R43). -/
def inlCell (b : Block W) (i : Nat) : Word W := (b.inl[i]?).getD 0

/-- The digit the working buffer holds at `i`, for `i < WN` (R44). -/
def wbufDigit (b : Block W) (i : Nat) : Word W :=
  match b.wkind with
  | .none => 0
  | .inline => b.inlCell i
  | .heap => b.digitAt (b.hbase.toNat + i)

/-- `WBUF_DIGIT(i)` as the core reads it: through the memory port on the heap path (R44). -/
def wbufRead (b : Block W) (i : Nat) : Word W × Block W :=
  match b.wkind with
  | .none => (0, b)
  | .inline => (b.inlCell i, b)
  | .heap => b.memRead (b.hbase.toNat + i)

/-- `WBUF_WRITE(i, v)` (R44). -/
def wbufWrite (b : Block W) (i : Nat) (v : Word W) : Block W :=
  match b.wkind with
  | .none => b
  | .inline => b.setInl i v
  | .heap => b.memWrite (b.hbase.toNat + i) v

/-! ### The Resize/Copy Engine -/

/-- Copy the view's digits `i`, `i+1`, ... , `k` of them, ascending (R144). -/
def copyDigits (v : View) : Nat → Nat → Block W → Block W
  | 0, _, b => b
  | k + 1, i, b => copyDigits v k (i + 1) ((b.digit v i).2.wbufWrite i (b.digit v i).1)

/-- Write zeros to the digits `i`, `i+1`, ... , `k` of them, ascending (R144). -/
def zeroFill : Nat → Nat → Block W → Block W
  | 0, _, b => b
  | k + 1, i, b => zeroFill k (i + 1) (b.wbufWrite i 0)

/-- Obtain a working buffer of `n` digits: inline below the threshold, else from the allocator; beyond
`MAX_DIGITS` there is none, and no call (R140 to R143). -/
def obtainBuffer (b : Block W) (v : View) (n : Nat) : Res W Unit :=
  if b.params.maxDigits < n then .raise .allocationFailure b
  else if n < inlineThreshold then .ok () (b.setWork .inline b.hbase n)
  else
    match b.alloc v.region? n with
    | (.fail, b1) => .raise .allocationFailure b1
    | (.ok base, b1) => .ok () (b1.setWork .heap base n)

/-- `n = max(min_digits, view.size)` (R140). -/
def growSize (v : View) (m : Nat) : Nat := max m v.size

/-- CopyAndGrow (R140): obtain the buffer, copy the view's digits, zero-fill the rest (R144). -/
def copyAndGrow (b : Block W) (v : View) (m : Nat) : Res W Unit :=
  (b.obtainBuffer v (growSize v m)).andThen fun _ b1 =>
    .ok () (zeroFill (growSize v m - v.size) v.size (copyDigits v v.size 0 b1))

/-! ### Results -/

/-- RFORM, RSIGN, RVAL and RSIZE (R24, R34, R35). -/
def setResult (b : Block W) (form : RForm) (sign : Bool) (val size : Word W) : Block W :=
  { b with rform := form, rsign := sign, rval := val, rsize := size }

/-- `ScalarResult(v)` (R255). -/
def scalarResult (b : Block W) (v : Nat) : Block W :=
  b.setResult .scalar false (BitVec.ofNat W.bits v) 0

/-- `OriginalResult()` (R255). -/
def originalResult (b : Block W) : Block W := b.setResult .original false 0 0

/-- No result (R253, R256). -/
def noResult (b : Block W) : Block W := b.setResult .none false 0 0

/-- The trim of R210 and R211: from `k` digits down while the top one is zero and `k > 1`. -/
def trim : Nat → Block W → Nat × Block W
  | k + 2, b =>
    if (b.wbufRead (k + 1)).1 = 0 then trim (k + 1) (b.wbufRead (k + 1)).2
    else (k + 2, (b.wbufRead (k + 1)).2)
  | k, b => (k, b)

/-- The result form of a trimmed buffer of `k` digits (R212): (a), (b), (c) for one digit, (d) else. -/
def formResult (b : Block W) (sign : Bool) (k : Nat) : Block W :=
  if k = 1 then
    let d := (b.wbufRead 0).1
    let b1 := (b.wbufRead 0).2
    if sign = false then b1.setResult .compact false d 1
    else if d.msb = false then b1.setResult .compact true d 1
    else b1.setResult .digits true 0 1
  else b.setResult .digits sign 0 (BitVec.ofNat W.bits k)

/-- Normalize (R210). -/
def normalize (b : Block W) (sign : Bool) : Block W :=
  (trim b.wn b).2.formResult sign (trim b.wn b).1

/-- The shared body of SET, in-range CLEAR and TOGGLE (R173, R175, R179): copy and grow to cover the
bit's digit, change that digit, normalise. -/
def editBit (b : Block W) (v : View) (bn : Nat) (f : Word W → Nat → Word W) : Res W Unit :=
  (b.copyAndGrow v (digitIndex W bn + 1)).andThen fun _ b1 =>
    let r := b1.wbufRead (digitIndex W bn)
    .ok () ((r.2.wbufWrite (digitIndex W bn) (f r.1 (bitOffset W bn))).normalize false)

/-! ### Release, errors, completion -/

/-- STATUS.ERR (R280). -/
def setErr (b : Block W) (e : ErrCode) : Block W := { b with err := e }

/-- STATUS.STATE (R25). -/
def setPhase (b : Block W) (p : Phase) : Block W := { b with phase := p }

/-- ReleaseBuffer (R146): a heap buffer is freed; an inline one needs no call. -/
def releaseBuffer (b : Block W) : Block W :=
  (match b.wkind with
    | .heap => b.free b.hbase b.wn
    | _ => b).setWork .none 0 0

/-- ReleaseResult (R253): the way back from a result or an error (R287). -/
def releaseResult (b : Block W) : Block W := (b.releaseBuffer.setErr .none).noResult

/-- The code of a raise (R280). -/
def errorCode : CmdError → ErrCode
  | .badArgument => .badArgument
  | .allocationFailure => .allocationFailure
  | .illegalCommand => .illegalCommand

/-- ErrorExit (R256): the one way an error is reported; no other state is saved or changed (R285). -/
def errorExit (b : Block W) (e : CmdError) : Block W := (b.setErr (errorCode e)).noResult

/-- The core's port has made no access yet in this step (A11). -/
def clearPortLog (b : Block W) : Block W := { b with portLog := [] }

/-- CoreStep around the body of a command (R252): ERR is NONE or the code raised, STATE is DONE. -/
def runCommand (b : Block W) (body : Block W → Res W Unit) : Block W :=
  match body b.clearPortLog with
  | .ok _ t => (t.setErr .none).setPhase .done
  | .raise e t => (t.errorExit e).setPhase .done

end Block
end Sys2Proof.Machine
end

