-- ==== Sys2Proof/Machine/BitLength.lean ====
section
/-!
DEFINITION. SIZE, the bit-length (R200 to R202).
-/
namespace Sys2Proof.Machine

/-- ExecSIZE (R200): the sign and operand N are not looked at. -/
def sizeBody {W : Width} (b : Block W) : Res W Unit :=
  b.acquire.andThen fun v b1 =>
    let r := b1.digit v (v.size - 1)
    .ok () (r.2.scalarResult ((v.size - 1) * W.bits + bitlen r.1))

/-- The core step of SIZE (R200, R252). -/
def execSize (s : State) : Host.Outcome State Fault Refusal :=
  .next ⟨s.width, s.block.runCommand sizeBody⟩

end Sys2Proof.Machine
end

