-- ==== Sys2Proof/Machine/BitOperations.lean ====
section
/-!
DEFINITION. TEST, SET, CLEAR and TOGGLE (R170 to R183).
-/
namespace Sys2Proof.Machine

/-- ExecTEST (R171): a HUGE index or one beyond the operand gives 0 without reading memory. -/
def testBody {W : Width} (b : Block W) : Res W Unit :=
  b.bitOpPrologue.andThen fun o b1 =>
    match o.2 with
    | .huge => .ok () (b1.scalarResult 0)
    | .value bn =>
      if o.1.size ≤ digitIndex W bn then .ok () (b1.scalarResult 0)
      else
        let r := b1.digit o.1 (digitIndex W bn)
        .ok () (r.2.scalarResult (r.1.getLsbD (bitOffset W bn)).toNat)

/-- ExecSET (R173): a HUGE index raises AllocationFailure without a call of the allocator (R162). -/
def setBody {W : Width} (b : Block W) : Res W Unit :=
  b.bitOpPrologue.andThen fun o b1 =>
    match o.2 with
    | .huge => .raise .allocationFailure b1
    | .value bn => b1.editBit o.1 bn setBit

/-- ExecCLEAR (R175): out of range, the operand itself is the result (R176). -/
def clearBody {W : Width} (b : Block W) : Res W Unit :=
  b.bitOpPrologue.andThen fun o b1 =>
    match o.2 with
    | .huge => .ok () b1.originalResult
    | .value bn =>
      if o.1.size < digitIndex W bn + 1 then .ok () b1.originalResult
      else b1.editBit o.1 bn clearBit

/-- ExecTOGGLE (R179): grows as SET does, whether or not the bit was in range. -/
def toggleBody {W : Width} (b : Block W) : Res W Unit :=
  b.bitOpPrologue.andThen fun o b1 =>
    match o.2 with
    | .huge => .raise .allocationFailure b1
    | .value bn => b1.editBit o.1 bn toggleBit

/-- The core step of TEST (R171, R252). -/
def execTest (s : State) : Host.Outcome State Fault Refusal :=
  .next ⟨s.width, s.block.runCommand testBody⟩

/-- The core step of SET (R173, R252). -/
def execSet (s : State) : Host.Outcome State Fault Refusal :=
  .next ⟨s.width, s.block.runCommand setBody⟩

/-- The core step of CLEAR (R175, R252). -/
def execClear (s : State) : Host.Outcome State Fault Refusal :=
  .next ⟨s.width, s.block.runCommand clearBody⟩

/-- The core step of TOGGLE (R179, R252). -/
def execToggle (s : State) : Host.Outcome State Fault Refusal :=
  .next ⟨s.width, s.block.runCommand toggleBody⟩

end Sys2Proof.Machine
end

