-- ==== Sys2Proof/Machine/PopulationCount.lean ====
section
/-!
DEFINITION. COUNT, the population count (R230, R231, R234).
-/
namespace Sys2Proof.Machine

/-- The loop of R230: add the counts of the digits `i`, `i+1`, ... , `k` of them, to `c`. -/
def countDigits {W : Width} (v : View) : Nat → Nat → Nat → Block W → Nat × Block W
  | 0, _, c, b => (c, b)
  | k + 1, i, c, b => countDigits v k (i + 1) (c + popcount (b.digit v i).1) (b.digit v i).2

/-- ExecCOUNT (R230): the sign and operand N are not looked at. -/
def countBody {W : Width} (b : Block W) : Res W Unit :=
  b.acquire.andThen fun v b1 =>
    let r := countDigits v v.size 0 0 b1
    .ok () (r.2.scalarResult r.1)

/-- The core step of COUNT (R230, R252). -/
def execCount (s : State) : Host.Outcome State Fault Refusal :=
  .next ⟨s.width, s.block.runCommand countBody⟩

end Sys2Proof.Machine
end

