-- ==== Sys2Proof/Machine/Release.lean ====
section
/-!
DEFINITION. RELEASE (R254): it runs inside the CMD write, never in a core step (R250).
-/
namespace Sys2Proof.Machine

/-- RELEASE (R254): ReleaseResult, then STATE is IDLE. The CMD write that carries it is ignored while
BUSY before this is reached (R250, Machine/Interface.lean). -/
def execRelease (s : State) : Host.Outcome State Fault Refusal :=
  .next ⟨s.width, s.block.releaseResult.setPhase .idle⟩

end Sys2Proof.Machine
end

