-- ==== Sys2Proof/Machine/Dispatch.lean ====
section
/-!
DEFINITION. One arm per command (R92): the meaning of each.
-/
namespace Sys2Proof.Machine

/-- What a command does: the core step of a pending command (R252), or RELEASE (R254). -/
def exec (i : Instr) (s : State) : Host.Outcome State Fault Refusal :=
  match i with
  | .size => Sys2Proof.Machine.execSize s
  | .test => Sys2Proof.Machine.execTest s
  | .set => Sys2Proof.Machine.execSet s
  | .clear => Sys2Proof.Machine.execClear s
  | .toggle => Sys2Proof.Machine.execToggle s
  | .count => Sys2Proof.Machine.execCount s
  | .release => Sys2Proof.Machine.execRelease s

end Sys2Proof.Machine
end

