-- ==== Sys2Proof/Machine/Encoder.lean ====
section
/-!
DEFINITION. What the result registers denote to the host's encoder (R26, R261), and what the operand
registers denote (R13, R127). No step of the core reads these.
-/
namespace Sys2Proof.Machine.Block
variable {W : Width}

/-- The value of operand X: `sext_W(XIMM)`, or the signed magnitude of the operand region (R127). -/
def operandValue (b : Block W) : Int :=
  if b.xform = 2 then
    signed b.xsign (mag W (fun i => (b.digitAt (b.xbase.toNat + i)).toNat) b.xsize.toNat)
  else b.ximm.toInt

/-- Operand X is a number the core accepts (R120, R122). -/
abbrev HasNumber (b : Block W) : Prop :=
  b.xform = 1 ∨
    (b.xform = 2 ∧ 1 ≤ b.xsize.toNat ∧ b.xsize.toNat ≤ b.params.maxDigits ∧
      b.xbase.toNat + b.xsize.toNat ≤ 2 ^ W.bits)

/-- The host value the operand registers were decoded from (R6, R127), if they hold a number. -/
def hostValue (b : Block W) : Option Int := if b.HasNumber then some b.operandValue else none

/-- The magnitude of the first `k` digits of the working buffer (R13, R44). -/
def wbufMag (b : Block W) (k : Nat) : Nat := mag W (fun i => (b.wbufDigit i).toNat) k

/-- The value the host's encoder builds when STATE = DONE and ERR = NONE (R261). ORIGINAL is the host value the
command's operand was decoded from, unchanged (R176, R324): a later write of an operand register or of the operand's
digits does not change it. -/
def resultValue (b : Block W) : Option Int :=
  if b.phase = .done ∧ b.err = .none then
    match b.rform with
    | .none => none
    | .scalar => some b.rval.toNat
    | .compact => some (signed b.rsign b.rval.toNat)
    | .digits => some (signed b.rsign (b.wbufMag b.rsize.toNat))
    | .original => b.decoded
  else none

end Sys2Proof.Machine.Block
end

