-- ==== Sys2Proof/Machine/Flags.lean ====
section
/-!
DEFINITION. The fields of STATUS as numbers and STATUS as one word (R24), and the constant words of the
identification registers (R38, R39). The core has no other flags (R47).
-/
namespace Sys2Proof.Machine

/-- STATUS[1:0] (R24). -/
def Phase.code : Phase → Nat
  | .idle => 0
  | .busy => 1
  | .done => 2

/-- STATUS[3:2] (R24, R280). -/
def ErrCode.code : ErrCode → Nat
  | .none => 0
  | .badArgument => 1
  | .allocationFailure => 2
  | .illegalCommand => 3

/-- STATUS[6:4] (R24). -/
def RForm.code : RForm → Nat
  | .none => 0
  | .scalar => 1
  | .compact => 2
  | .digits => 3
  | .original => 4

/-- STATUS[9:8] (R24). -/
def WKind.code : WKind → Nat
  | .none => 0
  | .inline => 1
  | .heap => 2

namespace Block
variable {W : Width}

/-- STATUS: STATE in [1:0], ERR in [3:2], RFORM in [6:4], RSIGN in [7], WBUF in [9:8], zeros above (R24). -/
def statusWord (b : Block W) : Word W :=
  BitVec.ofNat W.bits
    (b.phase.code + b.err.code * 2 ^ 2 + b.rform.code * 2 ^ 4 + b.rsign.toNat * 2 ^ 7 + b.wkind.code * 2 ^ 8)

/-- RDIG (R37). -/
def rdigWord (b : Block W) : Word W :=
  if (b.rform = .compact ∨ b.rform = .digits) ∧ b.rsel.toNat < b.rsize.toNat then b.wbufDigit b.rsel.toNat
  else 0

/-- RBASE (R51). -/
def rbaseWord (b : Block W) : Word W := if b.wkind = .heap then b.hbase else 0

end Block

/-- CONFIG: `W` in [7:0], INLINE_THRESHOLD in [15:8], zeros above (R38). -/
def configWord (W : Width) : Word W := BitVec.ofNat W.bits (W.bits + inlineThreshold * 2 ^ 8)

end Sys2Proof.Machine
end

