-- ==== Sys2Proof/Machine/Registers.lean ====
section
/-!
DEFINITION. The register block (R20 to R23): the map, the byte addresses, and the one read and the one
write of a register by the host.
-/
namespace Sys2Proof.Machine

/-- The 16 interface registers (R21). -/
inductive Reg where
  | cmd
  | status
  | xdesc
  | xsize
  | xbase
  | ximm
  | ndesc
  | nval
  | rval
  | rsize
  | rsel
  | rdig
  | config
  | maxdig
  | rbase
  | reserved
  deriving DecidableEq, Repr

/-- The register's number (R21). -/
def Reg.num : Reg → Nat
  | .cmd => 0
  | .status => 1
  | .xdesc => 2
  | .xsize => 3
  | .xbase => 4
  | .ximm => 5
  | .ndesc => 6
  | .nval => 7
  | .rval => 8
  | .rsize => 9
  | .rsel => 10
  | .rdig => 11
  | .config => 12
  | .maxdig => 13
  | .rbase => 14
  | .reserved => 15

/-- The register of a number (R21). -/
def Reg.ofNum : Nat → Option Reg
  | 0 => some .cmd
  | 1 => some .status
  | 2 => some .xdesc
  | 3 => some .xsize
  | 4 => some .xbase
  | 5 => some .ximm
  | 6 => some .ndesc
  | 7 => some .nval
  | 8 => some .rval
  | 9 => some .rsize
  | 10 => some .rsel
  | 11 => some .rdig
  | 12 => some .config
  | 13 => some .maxdig
  | 14 => some .rbase
  | 15 => some .reserved
  | _ => none

/-- The byte address of a register: `BLOCK_BASE + k * (W / 8)` (R20). -/
def regAddr (W : Width) (p : Params) (r : Reg) : Nat := p.blockBase + r.num * W.bytes

/-- What a bus access of some bytes at a byte address reaches (R20). -/
inductive BusTarget where
  /-- a whole aligned register -/
  | reg (r : Reg)
  /-- some other part of the block -/
  | part
  /-- no byte of the block -/
  | outside
  deriving DecidableEq, Repr

/-- R20: only a whole aligned `W`-bit word of the block is a register access. The spec does not say whether
`BLOCK_BASE` is itself a multiple of `W/8`: alignment is measured from `BLOCK_BASE`, and any base is taken (DESIGN
CHOICE, A24). -/
def busTarget (W : Width) (p : Params) (addr size : Nat) : BusTarget :=
  if addr + size ≤ p.blockBase ∨ p.blockBase + 16 * W.bytes ≤ addr then .outside
  else if addr < p.blockBase ∨ size ≠ W.bytes ∨ (addr - p.blockBase) % W.bytes ≠ 0 then .part
  else
    match Reg.ofNum ((addr - p.blockBase) / W.bytes) with
    | some r => .reg r
    | none => .outside

namespace Block
variable {W : Width}

/-- What a host read of a register returns (R21, R22, R34 to R39, R48, R51). -/
def readReg (b : Block W) : Reg → Word W
  | .cmd => 0
  | .status => b.statusWord
  | .xdesc => b.xdesc.setWidth W.bits
  | .xsize => b.xsize
  | .xbase => b.xbase
  | .ximm => b.ximm
  | .ndesc => b.ndesc.setWidth W.bits
  | .nval => b.nval
  | .rval => b.rval
  | .rsize => b.rsize
  | .rsel => b.rsel
  | .rdig => b.rdigWord
  | .config => configWord W
  | .maxdig => BitVec.ofNat W.bits b.params.maxDigits
  | .rbase => b.rbaseWord
  | .reserved => 0

/-- What a host write does to a register other than CMD, the block not BUSY: the RW registers take the
value, reserved bits of XDESC and NDESC drop it, the rest ignore it (R21, R22, R27, R31). -/
def writeReg (b : Block W) (r : Reg) (v : Word W) : Block W :=
  match r with
  | .xdesc => { b with xdesc := v.setWidth 3 }
  | .xsize => { b with xsize := v }
  | .xbase => { b with xbase := v }
  | .ximm => { b with ximm := v }
  | .ndesc => { b with ndesc := v.setWidth 2 }
  | .nval => { b with nval := v }
  | .rsel => { b with rsel := v }
  | .cmd => b
  | .status => b
  | .rval => b
  | .rsize => b
  | .rdig => b
  | .config => b
  | .maxdig => b
  | .rbase => b
  | .reserved => b

end Block

/-- `WR <reg>, <v>` (R97). -/
def HostMove.wr {W : Width} (p : Params) (r : Reg) (v : Word W) : HostMove W :=
  .busWrite (regAddr W p r) W.bytes v

/-- `RD <reg>` (R97). -/
def HostMove.rd (W : Width) (p : Params) (r : Reg) : HostMove W := .busRead (regAddr W p r) W.bytes

end Sys2Proof.Machine
end

