-- ==== Sys2Proof/Machine/Interface.lean ====
section
/-!
DEFINITION. The turns of the two agents: the core's (R252), and each atomic step of the host (R250,
R251, R310, R320).
-/
namespace Sys2Proof.Machine

/-- The command a pending operation stands for (R42, R252). -/
def PendingOp.instr : PendingOp → Instr
  | .size => .size
  | .test => .test
  | .set => .set
  | .clear => .clear
  | .toggle => .toggle
  | .count => .count

/-- The pending operation of a command; RELEASE is never pending (R250). -/
def pendingOf : Instr → Option PendingOp
  | .size => some .size
  | .test => some .test
  | .set => some .set
  | .clear => some .clear
  | .toggle => some .toggle
  | .count => some .count
  | .release => none

namespace Block
variable {W : Width}

/-- The moves still to come. -/
def setAgenda (b : Block W) (l : List (Move W)) : Block W := { b with agenda := l }

/-- What the host's read returned (A10). -/
def setBusData (b : Block W) (v : Word W) : Block W := { b with busData := v }

/-- The operand region the host must leave alone (R320; A9). -/
def setGuarded (b : Block W) (r : Option Region) : Block W := { b with guarded := r }

/-- The host value behind the operand of a command, which the host keeps (R261, R324; A23). -/
def setDecoded (b : Block W) (v : Option Int) : Block W := { b with decoded := v }

/-- The operand region the operand registers name (R61). -/
def operandRegion (b : Block W) : Option Region :=
  if b.xform = 2 then some ⟨b.xbase.toNat, b.xsize.toNat⟩ else none

/-- The held heap buffer (R61). -/
def heldRegion (b : Block W) : Option Region :=
  if b.wkind = .heap then some ⟨b.hbase.toNat, b.wn⟩ else none

/-- A host write at this digit address would break R320. A buffer abandoned at a reset is not held: the host may
write it before it reclaims it, though no `Free` has ended R64 (c) (DESIGN CHOICE, A20). -/
def hostMayNotWrite (b : Block W) (a : Nat) : Bool :=
  b.guarded.any (·.has a) || b.heldRegion.any (·.has a)

/-- A host read at this digit address would break R72. -/
def hostMayNotRead (b : Block W) (a : Nat) : Bool :=
  decide (b.phase = .busy) && b.heldRegion.any (·.has a)

/-- PENDING_OP (R42). -/
def setPending (b : Block W) (op : PendingOp) : Block W := { b with pendingOp := op }

/-- The CMD write of a word that names one of the six operations (R250). The guard is put on the operand region of
this command alone: one still on an earlier command's region, no read of STATUS having ended it, gives way
(DESIGN CHOICE, A9). The host keeps the value the operand was decoded from (A23). -/
def acceptCommand (b : Block W) (op : PendingOp) : Block W :=
  (((b.releaseResult.setPending op).setPhase .busy).setGuarded b.operandRegion).setDecoded b.hostValue

/-- The CMD write of an illegal word (R250, R260). -/
def illegalCommand (b : Block W) : Block W :=
  (b.releaseResult.errorExit .illegalCommand).setPhase .done

/-- Reset of a running block (R310, R311): every register and all internal state at the values of R50;
host memory, the allocator and the moves to come as they were; a held heap buffer is abandoned (A20). -/
def hostReset (b : Block W) : Block W :=
  { Block.resetWith W b.params b.mem with
    live := b.live
    released := b.released
    trace := b.trace
    agenda := b.agenda
    answers := b.answers
    draws := b.draws
    busData := b.busData }

/-- The block after a register read: the data, and after a read of STATUS with STATE ≠ BUSY the operand
region is the host's again (R72, R320). A read has no other effect (R251). -/
def afterRead (b : Block W) (r : Reg) : Block W :=
  (b.setBusData (b.readReg r)).setGuarded
    (if r = .status ∧ b.phase ≠ .busy then none else b.guarded)

end Block

variable {W : Width}

/-- The core's turn: its step when STATE = BUSY, else nothing (R252, R295). -/
def coreTurn (b : Block W) : Host.Outcome State Fault Refusal :=
  if b.phase = .busy then exec b.pendingOp.instr ⟨W, b⟩ else .next ⟨W, b⟩

/-- HostWriteCMD (R250): ignored while BUSY, else decoded; RELEASE runs at once. -/
def hostWriteCmd (b : Block W) (v : Word W) : Host.Outcome State Fault Refusal :=
  if b.phase = .busy then .next ⟨W, b⟩
  else
    match decode v with
    | .illegal _ => .next ⟨W, b.illegalCommand⟩
    | .command i =>
      match pendingOf i with
      | some op => .next ⟨W, b.acceptCommand op⟩
      | none => exec i ⟨W, b⟩

/-- A host write of a register: CMD dispatches (R23), every write while BUSY is ignored (R48). -/
def hostWriteReg (b : Block W) (r : Reg) (v : Word W) : Host.Outcome State Fault Refusal :=
  match r with
  | .cmd => hostWriteCmd b v
  | r => if b.phase = .busy then .next ⟨W, b⟩ else .next ⟨W, b.writeReg r v⟩

/-- One atomic step of the host (R251). `WAIT` lets the core take its turn while STATE = BUSY and then
reads STATUS (R97; A13). `reclaim` asks only that the core does not hold the buffer: the host may reclaim an
abandoned one that lies in the guarded operand region of a BUSY command, whose digits are then any value (DESIGN
CHOICE, A15). -/
def hostTurn (m : HostMove W) (b : Block W) : Host.Outcome State Fault Refusal :=
  match m with
  | .busWrite addr size v =>
    match busTarget W b.params addr size with
    | .reg r => hostWriteReg b r v
    | .part => .refused (.partialRegisterAccess addr size)
    | .outside => .refused (.accessOutsideBlock addr)
  | .busRead addr size =>
    match busTarget W b.params addr size with
    | .reg r => .next ⟨W, b.afterRead r⟩
    | .part => .refused (.partialRegisterAccess addr size)
    | .outside => .refused (.accessOutsideBlock addr)
  | .memWrite a d =>
    if 2 ^ W.bits ≤ a then .fault (.digitAddressOutsideMemory a)
    else if b.hostMayNotWrite a then .refused (.hostTouchedOwnedStorage a)
    else .next ⟨W, b.putDigit a d⟩
  | .memRead a =>
    if 2 ^ W.bits ≤ a then .fault (.digitAddressOutsideMemory a)
    else if b.hostMayNotRead a then .refused (.hostTouchedOwnedStorage a)
    else .next ⟨W, (b.fetchDigit a).2.setBusData (b.fetchDigit a).1⟩
  | .wait =>
    if b.phase = .busy then coreTurn (b.setAgenda (.host .wait :: b.agenda))
    else .next ⟨W, b.afterRead .status⟩
  | .reset => .next ⟨W, b.hostReset⟩
  | .reclaim base =>
    match b.live.find? (fun r => r.base == base) with
    | none => .next ⟨W, b⟩
    | some r =>
      if b.heldRegion = some r then .refused (.hostTouchedOwnedStorage base)
      else .next ⟨W, b.giveBack r⟩

end Sys2Proof.Machine
end

