-- ==== Sys2Proof/Machine/Step.lean ====
section
/-!
DEFINITION. One step of the machine: the next move on the agenda; with none left, the core's turn
(R250 to R252, R257; A7). And the placing of a command so that the next step runs it (A8).
-/
namespace Sys2Proof.Machine

/-- One step. -/
def step (s : State) : Host.Outcome State Fault Refusal :=
  match s.block.agenda with
  | [] => coreTurn s.block
  | .core :: rest => coreTurn (s.block.setAgenda rest)
  | .host m :: rest => hostTurn m (s.block.setAgenda rest)

/-- The state in which the next step runs the command word `w` (A8): for one of the six operations, its
CMD write has just been accepted and the core moves next; for RELEASE and for an illegal word, which run
inside the CMD write, that write is the next move and the block is not BUSY. -/
def State.withFetchWord (s : State) (nbits w : Nat) : State :=
  match (decodeTableWord nbits w).bind pendingOf with
  | some op =>
    ⟨s.width, (s.block.acceptCommand op).setAgenda (.core :: s.block.agenda)⟩
  | none =>
    ⟨s.width,
      (s.block.setPhase (if s.block.phase = .busy then .idle else s.block.phase)).setAgenda
        (.host (.wr s.block.params .cmd (BitVec.ofNat s.width.bits (w % 2 ^ nbits))) :: s.block.agenda)⟩

end Sys2Proof.Machine
end

