-- ==== Sys2Proof/Machine/Assembler.lean ====
section
/-!
DEFINITION. The expansion of an assembler line into host moves (R98).
-/
namespace Sys2Proof.Asm
open Sys2Proof.Machine

/-- The register writes of operand `<x>` (R98). -/
def XOperand.expand (W : Width) (p : Params) : XOperand → List (HostMove W)
  | .imm v => [.wr p .xdesc 1, .wr p .ximm (BitVec.ofInt W.bits v)]
  | .digits neg base size =>
    [.wr p .xdesc (if neg then 6 else 2), .wr p .xsize (BitVec.ofNat W.bits size),
      .wr p .xbase (BitVec.ofNat W.bits base)]
  | .nan => [.wr p .xdesc 0]

/-- The register writes of operand `<n>` (R98). -/
def NOperand.expand (W : Width) (p : Params) : NOperand → List (HostMove W)
  | .val k => [.wr p .ndesc 1, .wr p .nval (BitVec.ofNat W.bits k)]
  | .huge => [.wr p .ndesc 2]
  | .invalid => [.wr p .ndesc 0]

/-- `WR CMD, <op>` (R98). -/
def wrCmd (W : Width) (p : Params) (i : Instr) : HostMove W := .wr p .cmd (encode W i)

/-- The expansion of a line (R98). RELEASE needs no `WAIT`: it never enters BUSY (R250). -/
def Line.expand (W : Width) (p : Params) : Line → List (HostMove W)
  | .size x => x.expand W p ++ [wrCmd W p .size, .wait]
  | .test x n => x.expand W p ++ n.expand W p ++ [wrCmd W p .test, .wait]
  | .set x n => x.expand W p ++ n.expand W p ++ [wrCmd W p .set, .wait]
  | .clear x n => x.expand W p ++ n.expand W p ++ [wrCmd W p .clear, .wait]
  | .toggle x n => x.expand W p ++ n.expand W p ++ [wrCmd W p .toggle, .wait]
  | .count x => x.expand W p ++ [wrCmd W p .count, .wait]
  | .release => [wrCmd W p .release]

end Sys2Proof.Asm
end

