-- ==== Sys2Proof/Machine/AssemblerText.lean ====
section
/-!
DEFINITION. The text of an assembler line (R96) read into a term, and the line assembled into host moves (R98).
What R96 does not say of the text (spaces, letter case of hexadecimal digits) is chosen (A16).
-/
namespace Sys2Proof.Asm
open Sys2Proof.Machine

/-- The value of a digit below `base`: `0` to `9`, then `a` or `A` on. -/
def digitVal (base : Nat) (c : Char) : Option Nat :=
  let n := c.toNat
  let d :=
    if 48 ≤ n ∧ n ≤ 57 then n - 48
    else if 97 ≤ n ∧ n ≤ 102 then n - 87
    else if 65 ≤ n ∧ n ≤ 70 then n - 55
    else base
  if d < base then some d else none

/-- The value of a run of digits that follow those of value `acc`. -/
def digitsVal (base : Nat) : List Char → Nat → Option Nat
  | [], acc => some acc
  | c :: cs, acc =>
    match digitVal base c with
    | some d => digitsVal base cs (acc * base + d)
    | none => none

/-- A number: decimal, or hexadecimal after `0x` (R96). -/
def number : List Char → Option Nat
  | [] => none
  | '0' :: 'x' :: c :: cs => digitsVal 16 (c :: cs) 0
  | c :: cs => digitsVal 10 (c :: cs) 0

/-- The text before and after the first `sep`. -/
def splitAtChar (sep : Char) : List Char → Option (List Char × List Char)
  | [] => none
  | c :: cs =>
    if c = sep then some ([], cs)
    else
      match splitAtChar sep cs with
      | some (l, r) => some (c :: l, r)
      | none => none

/-- The text without the spaces around it. -/
def strip (cs : List Char) : List Char :=
  ((cs.dropWhile (· == ' ')).reverse.dropWhile (· == ' ')).reverse

/-- `<base>:<size>` (R96). -/
def parseRegion (neg : Bool) (cs : List Char) : Option XOperand :=
  match splitAtChar ':' cs with
  | none => none
  | some (b, s) =>
    match number b, number s with
    | some base, some size => some (.digits neg base size)
    | _, _ => none

/-- Operand `<x>` (R96). -/
def parseX : List Char → Option XOperand
  | ['n', 'a', 'n'] => some .nan
  | '#' :: '-' :: cs => (number cs).map fun k => .imm (-(k : Int))
  | '#' :: cs => (number cs).map fun k => .imm (k : Int)
  | '-' :: '@' :: cs => parseRegion true cs
  | '@' :: cs => parseRegion false cs
  | _ => none

/-- Operand `<n>` (R96). -/
def parseN : List Char → Option NOperand
  | ['h', 'u', 'g', 'e'] => some .huge
  | ['i', 'n', 'v', 'a', 'l', 'i', 'd'] => some .invalid
  | '#' :: cs => (number cs).map .val
  | _ => none

/-- `<x>, <n>` (R96). -/
def parseXN (cs : List Char) : Option (XOperand × NOperand) :=
  match splitAtChar ',' cs with
  | none => none
  | some (x, n) =>
    match parseX (strip x), parseN (strip n) with
    | some x, some n => some (x, n)
    | _, _ => none

/-- A command line (R96). -/
def parseLine (text : List Char) : Option Line :=
  let line := strip text
  let rest := strip (line.dropWhile (· != ' '))
  match line.takeWhile (· != ' ') with
  | ['S', 'I', 'Z', 'E'] => (parseX rest).map .size
  | ['T', 'E', 'S', 'T'] => (parseXN rest).map fun o => .test o.1 o.2
  | ['S', 'E', 'T'] => (parseXN rest).map fun o => .set o.1 o.2
  | ['C', 'L', 'E', 'A', 'R'] => (parseXN rest).map fun o => .clear o.1 o.2
  | ['T', 'O', 'G', 'G', 'L', 'E'] => (parseXN rest).map fun o => .toggle o.1 o.2
  | ['C', 'O', 'U', 'N', 'T'] => (parseX rest).map .count
  | ['R', 'E', 'L', 'E', 'A', 'S', 'E'] => if rest = [] then some .release else none
  | _ => none

/-- The host moves of a line of text, if it is one and its numbers are in their ranges (R96, R98). -/
def assemble (W : Width) (p : Params) (text : List Char) : Option (List (HostMove W)) :=
  match parseLine text with
  | some l => if l.wf W then some (l.expand W p) else none
  | none => none

end Sys2Proof.Asm
end

