-- ==== Sys2Proof/Safety.lean ====
section
/-!
DEFINITION. The terms claims use: what operand X and operand N are (R27, R31, R40, R126), what no
command changes (R33), and the invariant of the block. None of it is read by the step.
-/
namespace Sys2Proof.Machine.Block
variable {W : Width}

/-! ### The operands, said without the acquisition's code -/

/-- The view of operand X has its sign set (R121, R122). -/
abbrev Negative (b : Block W) : Prop :=
  (b.xform = 1 ∧ b.ximm.msb = true) ∨ (b.xform = 2 ∧ b.xsign = true)

/-- Operand N is a non-negative integer (R161). -/
abbrev HasIndex (b : Block W) : Prop := b.nkind = 1 ∨ b.nkind = 2

/-- The digit count of operand X (R121, R122). -/
def operandSize (b : Block W) : Nat := if b.xform = 2 then b.xsize.toNat else 1

/-- Digit `i` of operand X (R121, R123). -/
def operandDigit (b : Block W) (i : Nat) : Word W :=
  if b.xform = 2 then b.digitAt (b.xbase.toNat + i) else b.ximmAbs

/-- The magnitude of operand X (R13). -/
def operandMag (b : Block W) : Nat := mag W (fun i => (b.operandDigit i).toNat) b.operandSize

/-- No digit of a DIGITS operand has been given back to the allocator: the host keeps R323. -/
abbrev Settled (b : Block W) : Prop :=
  b.xform = 2 → ∀ i, i < b.xsize.toNat → b.xbase.toNat + i ∉ b.released

/-- What the four bit operations ask of their operands (R170), the index a VALUE. -/
abbrev BitOpReady (b : Block W) : Prop := b.HasNumber ∧ ¬ b.Negative ∧ b.nkind = 1

/-- The buffer size SET and TOGGLE need for operand X and a VALUE index (R140, R164). -/
def neededDigits (b : Block W) : Nat := max (b.nval.toNat / W.bits + 1) b.operandSize

/-- A buffer of `n` digits can be had: within `MAX_DIGITS`, and inline or granted by the allocator (R141 to
R143). -/
abbrev BufferGranted (b : Block W) (n : Nat) : Prop :=
  n ≤ b.params.maxDigits ∧ (n < inlineThreshold ∨ b.allocAnswer b.operandRegion n ≠ .fail)

/-! ### What a command leaves alone -/

/-- What no command changes: the parameters, the operand registers and RSEL (R33, R36), PENDING_OP, and
what belongs to the host's side. -/
structure InputsKept (b t : Block W) : Prop where
  params : t.params = b.params
  xdesc : t.xdesc = b.xdesc
  xsize : t.xsize = b.xsize
  xbase : t.xbase = b.xbase
  ximm : t.ximm = b.ximm
  ndesc : t.ndesc = b.ndesc
  nval : t.nval = b.nval
  rsel : t.rsel = b.rsel
  pendingOp : t.pendingOp = b.pendingOp
  agenda : t.agenda = b.agenda
  busData : t.busData = b.busData
  guarded : t.guarded = b.guarded
  decoded : t.decoded = b.decoded

/-- No working buffer, no storage and no allocator state has changed. -/
structure StorageKept (b t : Block W) : Prop where
  wkind : t.wkind = b.wkind
  inl : t.inl = b.inl
  hbase : t.hbase = b.hbase
  wn : t.wn = b.wn
  mem : t.mem = b.mem
  live : t.live = b.live
  released : t.released = b.released
  trace : t.trace = b.trace
  answers : t.answers = b.answers

/-- Every byte of host memory outside the digits of the region reads as before. -/
def MemoryKeptOutside (r : Region) (b t : Block W) : Prop :=
  ∀ k : Nat, r.has (k / W.bytes) = false → readByte t.mem k = readByte b.mem k

/-- No result is held (R253, R256). -/
structure ResultCleared (b : Block W) : Prop where
  rform : b.rform = .none
  rsign : b.rsign = false
  rval : b.rval = 0
  rsize : b.rsize = 0

/-! ### How a command ends -/

/-- A command has completed with a scalar result and holds no buffer (R171, R200, R230, R255). -/
structure ScalarDone (t : Block W) (v : Nat) : Prop where
  phase : t.phase = .done
  err : t.err = .none
  rform : t.rform = .scalar
  rsign : t.rsign = false
  wkind : t.wkind = .none
  rval : t.rval.toNat = v
  rsize : t.rsize = 0

/-- A command has ended with an error (R256, R283). -/
structure FailedWith (t : Block W) (e : ErrCode) : Prop where
  phase : t.phase = .done
  err : t.err = e
  cleared : t.ResultCleared
  wkind : t.wkind = .none

/-! ### The invariant -/

/-- The working buffer (R42, R43, R64, R141): WN is 0 with no buffer, 1 to 3 inline, 4 to MAX_DIGITS on the
heap, where the region is live, does not wrap and is not the allocator's to change. -/
def WorkOk (b : Block W) : Prop :=
  match b.wkind with
  | .none => b.hbase = 0 ∧ b.wn = 0
  | .inline => b.hbase = 0 ∧ 1 ≤ b.wn ∧ b.wn < inlineThreshold ∧ b.wn ≤ b.params.maxDigits
  | .heap =>
    inlineThreshold ≤ b.wn ∧ b.wn ≤ b.params.maxDigits ∧ b.hbase.toNat + b.wn ≤ 2 ^ W.bits ∧
      (⟨b.hbase.toNat, b.wn⟩ : Region) ∈ b.live ∧ ∀ i, i < b.wn → b.hbase.toNat + i ∉ b.released

/-- The result of a command that completed (R26, R34, R35, R41, R45, R211 to R214). -/
def ResultOk (b : Block W) : Prop :=
  match b.rform with
  | .none => False
  | .scalar => b.rsign = false ∧ b.rsize = 0 ∧ b.wkind = .none
  | .original => b.rsign = false ∧ b.rval = 0 ∧ b.rsize = 0 ∧ b.wkind = .none
  | .compact =>
    b.rsign = false ∧ b.rsize = 1 ∧ b.wkind ≠ .none ∧ b.rval = b.wbufDigit 0 ∧
      ∀ i, 1 ≤ i → i < b.wn → b.wbufDigit i = 0
  | .digits =>
    b.rsign = false ∧ b.rval = 0 ∧ b.wkind ≠ .none ∧ 2 ≤ b.rsize.toNat ∧ b.rsize.toNat ≤ b.wn ∧
      b.wbufDigit (b.rsize.toNat - 1) ≠ 0 ∧ ∀ i, b.rsize.toNat ≤ i → i < b.wn → b.wbufDigit i = 0

/-- SET, in-range CLEAR or TOGGLE has completed: the working buffer holds the `n` digits `d`, on the path
of R141, and the result is what normalisation makes of them (R210 to R212, R214). -/
structure EditDone (t : Block W) (n : Nat) (d : Nat → Word W) : Prop where
  phase : t.phase = .done
  err : t.err = .none
  wkind : t.wkind = if n < inlineThreshold then .inline else .heap
  wn : t.wn = n
  digits : ∀ i, i < n → t.wbufDigit i = d i
  result : t.ResultOk

/-- The digits of operand X grown to any size: its own, then zeros (R144). -/
def grownDigit (b : Block W) (i : Nat) : Word W := if i < b.operandSize then b.operandDigit i else 0

/-- The number of digits SET, CLEAR or TOGGLE copies, if the command comes to copy at all (R173, R175,
R179, R142): operands accepted, a VALUE index, for CLEAR one in range, and no more than `MAX_DIGITS`. -/
def copyLength (b : Block W) (i : Instr) : Option Nat :=
  if b.BitOpReady ∧ b.neededDigits ≤ b.params.maxDigits then
    match i with
    | .size => none
    | .test => none
    | .set => some b.neededDigits
    | .clear => if b.nval.toNat / W.bits < b.operandSize then some b.operandSize else none
    | .toggle => some b.neededDigits
    | .count => none
    | .release => none
  else none

/-- The region a command stores its copy to: what the allocator answers for the length it copies, at or above
the threshold (R141, R143). -/
def storedRegion (b : Block W) (i : Instr) : Option Region :=
  match b.copyLength i with
  | none => none
  | some n =>
    if n < inlineThreshold then none
    else
      match b.allocAnswer b.operandRegion n with
      | .fail => none
      | .ok base => some ⟨base.toNat, n⟩

/-- The invariant of the block, which every step keeps. -/
structure Inv (b : Block W) : Prop where
  /-- the parameters are legal (R9) -/
  legal : b.params.legal W = true
  /-- host memory is in its canonical form -/
  mem : b.mem.wf
  /-- live buffers do not overlap (R64 b) -/
  liveDisjoint : b.live.Pairwise (fun r q => r.disjoint q = true)
  /-- live buffers do not wrap (R64 a), and are on the heap path (R141) -/
  liveBounds : ∀ r ∈ b.live, inlineThreshold ≤ r.len ∧ r.base + r.len ≤ 2 ^ W.bits
  /-- the working buffer -/
  work : b.WorkOk
  /-- outside DONE there is no error, no result and no buffer (R26, R48) -/
  quiet : b.phase ≠ .done → b.err = .none ∧ b.ResultCleared ∧ b.wkind = .none
  /-- an error holds no result and no buffer (R26, R283) -/
  failed : b.err ≠ .none → b.ResultCleared ∧ b.wkind = .none
  /-- a completed command's result -/
  result : b.phase = .done → b.err = .none → b.ResultOk
  /-- while BUSY the operand region is guarded from the host (R320) -/
  guard : b.phase = .busy → b.guarded = b.operandRegion
  /-- while BUSY the value the host keeps is the one the operand registers denote (R33, R261) -/
  hostValue : b.phase = .busy → b.decoded = b.hostValue
  /-- behind an ORIGINAL result there is a value the host keeps (R324) -/
  original : b.rform = .original → b.decoded ≠ none

end Sys2Proof.Machine.Block

namespace Sys2Proof.Machine

/-- `ALLOC` events (R143). -/
def AllocEvent.isAlloc {W : Width} : AllocEvent W → Bool
  | .alloc _ _ => true
  | .free _ => false

/-- A state whose block meets the invariant. -/
def State.Inv (s : State) : Prop := s.block.Inv

/-- A safe run: a step that answers a next state. -/
def Answers (o : Host.Outcome State Fault Refusal) : Prop := ∃ t, o = .next t

/-- A move that keeps the host's duties whatever the block does: the core's turn, a wait, a whole register
access (R20, R320). -/
def Move.polite {W : Width} (p : Params) : Move W → Bool
  | .core => true
  | .host (.busWrite addr size _) =>
    match busTarget W p addr size with
    | .reg _ => true
    | .part => false
    | .outside => false
  | .host (.busRead addr size) =>
    match busTarget W p addr size with
    | .reg _ => true
    | .part => false
    | .outside => false
  | .host (.memWrite _ _) => false
  | .host (.memRead _) => false
  | .host .wait => true
  | .host .reset => true
  | .host (.reclaim _) => false

end Sys2Proof.Machine
end

