-- ==== Sys2Proof/Certificates/Slice0/Obligations.lean ====
section
/-!
DEFINITION. The statements for the provers, from the spec's numbered rules. A statement about the block is
made for every width, every legal parameter and every state that meets its premises; `Block.Inv`, where it is
a premise, is itself stated as kept by every step.
-/
open Sys2Proof Sys2Proof.Machine

/-! ### Command words -/

/-- R92, R93: decoding the word of a command gives the command, at both widths. -/
def Obligations.DecodeOfEncodeIsTheCommand : Prop :=
  ∀ (W : Width) (i : Instr), decode (encode W i) = .command i

/-- R93: a word is legal if and only if its bits from 4 up are 0 and its low four bits are one of the seven
codes, and then it is the word of the command it selects. -/
def Obligations.LegalWordsAreTheSevenCodes : Prop :=
  ∀ (W : Width) (v : Word W),
    ((∃ i, decode v = .command i) ↔
      (v >>> 4 = 0 ∧ v.toNat % 16 ∈ [0x1, 0x2, 0x3, 0x4, 0x5, 0x6, 0xF])) ∧
    ∀ i, decode v = .command i ↔ v = encode W i

/-- R92, R94: words written out from the table at both widths, and illegal ones. -/
def Obligations.WordsOfTheTableDecode : Prop :=
  decode (W := .w32) 0b00000000000000000000000000000001#32 = .command .size ∧
  decode (W := .w32) 0b00000000000000000000000000000010#32 = .command .test ∧
  decode (W := .w32) 0b00000000000000000000000000000100#32 = .command .clear ∧
  decode (W := .w64) 0x0000000000000003#64 = .command .set ∧
  decode (W := .w64) 0x0000000000000005#64 = .command .toggle ∧
  decode (W := .w64) 0x0000000000000006#64 = .command .count ∧
  decode (W := .w64) 0x000000000000000F#64 = .command .release ∧
  decode (W := .w32) 0x00000000#32 = .illegal (.reservedOp 0) ∧
  decode (W := .w32) 0x0000000E#32 = .illegal (.reservedOp 14) ∧
  decode (W := .w32) 0x00000013#32 = .illegal .reservedBits ∧
  decode (W := .w64) 0x0000000100000003#64 = .illegal .reservedBits

/-! ### Steps -/

/-- R252: while BUSY, a turn of the core (its move on the agenda, none left, or a host that waits) is `exec`
of the pending command. The agenda is the model's (A7, A13). -/
def Obligations.CoreTurnRunsThePendingCommand : Prop :=
  ∀ (W : Width) (b : Block W), b.phase = .busy →
    (∀ rest, b.agenda = .core :: rest →
      step ⟨W, b⟩ = exec b.pendingOp.instr ⟨W, b.setAgenda rest⟩) ∧
    (b.agenda = [] → step ⟨W, b⟩ = exec b.pendingOp.instr ⟨W, b⟩) ∧
    (∀ rest, b.agenda = .host .wait :: rest → step ⟨W, b⟩ = exec b.pendingOp.instr ⟨W, b⟩)

/-- R250, R252, A8: placing a command word makes the next step run it: for one of the six operations, its CMD
write has been accepted and the core moves; RELEASE runs in its CMD write, on a block that is not BUSY. -/
def Obligations.PlacedCommandRuns : Prop :=
  ∀ (W : Width) (b : Block W),
    (∀ op : PendingOp,
      step ((⟨W, b⟩ : State).withFetchWord 32 (opcode op.instr)) =
        exec op.instr ⟨W, (b.acceptCommand op).setAgenda b.agenda⟩) ∧
    (b.phase ≠ .busy → step ((⟨W, b⟩ : State).withFetchWord 32 (opcode .release)) = exec .release ⟨W, b⟩)

/-- R250: the host's write of `v` to CMD is ignored while BUSY; else it releases the held result and then
reports an illegal word, runs RELEASE, or makes the command pending with STATE = BUSY. The guarded operand
region (A9) and the host value kept for an ORIGINAL result (A23) are the model's. -/
def Obligations.CmdWriteDispatches : Prop :=
  ∀ (W : Width) (b : Block W) (v : Word W) (rest : List (Move W)),
    b.agenda = .host (.wr b.params .cmd v) :: rest →
    (b.phase = .busy → step ⟨W, b⟩ = .next ⟨W, b.setAgenda rest⟩) ∧
    (b.phase ≠ .busy →
      (∀ r, decode v = .illegal r →
        step ⟨W, b⟩ = .next ⟨W, { (b.setAgenda rest).releaseResult with
          err := .illegalCommand, phase := .done }⟩) ∧
      (decode v = .command .release →
        step ⟨W, b⟩ = exec .release ⟨W, b.setAgenda rest⟩ ∧
        step ⟨W, b⟩ = .next ⟨W, { (b.setAgenda rest).releaseResult with phase := .idle }⟩) ∧
      ∀ op : PendingOp, decode v = .command op.instr →
        step ⟨W, b⟩ = .next ⟨W, { (b.setAgenda rest).releaseResult with
          pendingOp := op, phase := .busy, guarded := b.operandRegion, decoded := b.hostValue }⟩)

/-- R253: every CMD write that is not ignored ends the previous result: a held heap buffer is freed, once, and
nothing else of the result stays; host memory is as before. -/
def Obligations.CmdWriteReleasesTheResult : Prop :=
  ∀ (W : Width) (b : Block W) (v : Word W) (rest : List (Move W)),
    b.agenda = .host (.wr b.params .cmd v) :: rest → b.phase ≠ .busy →
    ∃ t : Block W, step ⟨W, b⟩ = .next ⟨W, t⟩ ∧ t.ResultCleared ∧ t.wkind = .none ∧ t.hbase = 0 ∧ t.wn = 0 ∧
      t.mem = b.mem ∧ t.rbaseWord = 0 ∧
      t.trace = b.trace ++ (if b.wkind = .heap then [.free b.hbase] else []) ∧
      t.err = (match decode v with | .illegal _ => .illegalCommand | .command _ => .none)

/-- R48: while BUSY every host register write is ignored, STATUS reads with STATE = BUSY, and the result
registers read 0. -/
def Obligations.RegistersWhileBusy : Prop :=
  ∀ (W : Width) (b : Block W), b.Inv → b.phase = .busy →
    (∀ (r : Reg) (v : Word W) (rest : List (Move W)), b.agenda = .host (.wr b.params r v) :: rest →
      step ⟨W, b⟩ = .next ⟨W, b.setAgenda rest⟩) ∧
    b.readReg .status = 1 ∧ b.readReg .rval = 0 ∧ b.readReg .rsize = 0 ∧ b.readReg .rdig = 0 ∧
    b.readReg .rbase = 0

/-- R295: in IDLE and DONE the core has no step of its own: its turn changes nothing. -/
def Obligations.CoreWaitsOutsideBusy : Prop :=
  ∀ (W : Width) (b : Block W), b.phase ≠ .busy →
    (b.agenda = [] → step ⟨W, b⟩ = .next ⟨W, b⟩) ∧
    (∀ rest, b.agenda = .core :: rest → step ⟨W, b⟩ = .next ⟨W, b.setAgenda rest⟩)

/-- R257: STATE = BUSY ends after finitely many steps, whatever well-behaved moves the host still makes: at most
one more than there are. The finite agenda is the model's form of the fairness R257 asks for (A7). -/
def Obligations.BusyEnds : Prop :=
  ∀ (W : Width) (b : Block W), (∀ m ∈ b.agenda, m.polite b.params = true) →
    ∃ k ≤ b.agenda.length + 1, ∃ t : Block W,
      Host.Core.run Sys2Proof.core k ⟨W, b⟩ = .next (⟨W, t⟩ : State) ∧ t.phase ≠ .busy

/-! ### SIZE, TEST, COUNT -/

/-- R200: the bit-length of operand X whatever its sign, operand N not looked at; BadArgument when X is not a
number the core accepts, and no other exception; no allocation. The digits are those in host memory (A6). -/
def Obligations.SizeResult : Prop :=
  ∀ (W : Width) (b : Block W), b.Inv → b.phase = .busy →
    (b.HasNumber → b.Settled →
      ∃ t : Block W, exec .size ⟨W, b⟩ = .next ⟨W, t⟩ ∧
        t.ScalarDone ((b.operandSize - 1) * W.bits + bitlen (b.operandDigit (b.operandSize - 1))) ∧
        b.InputsKept t ∧ b.StorageKept t) ∧
    (¬ b.HasNumber →
      ∃ t : Block W, exec .size ⟨W, b⟩ = .next ⟨W, t⟩ ∧ t.FailedWith .badArgument ∧
        b.InputsKept t ∧ b.StorageKept t)

/-- R171: bit N of operand X, 0 for a digit index at or beyond the operand's size and for a HUGE index;
BadArgument when the prologue rejects the operands; no mutation, no allocation. -/
def Obligations.TestResult : Prop :=
  ∀ (W : Width) (b : Block W), b.Inv → b.phase = .busy →
    (b.HasNumber → b.HasIndex → ¬ b.Negative → b.Settled →
      ∃ t : Block W, exec .test ⟨W, b⟩ = .next ⟨W, t⟩ ∧
        t.ScalarDone
          (if b.nkind = 2 then 0
           else if b.operandSize ≤ b.nval.toNat / W.bits then 0
           else ((b.operandDigit (b.nval.toNat / W.bits)).getLsbD (b.nval.toNat % W.bits)).toNat) ∧
        b.InputsKept t ∧ b.StorageKept t) ∧
    (¬ (b.HasNumber ∧ b.HasIndex ∧ ¬ b.Negative) →
      ∃ t : Block W, exec .test ⟨W, b⟩ = .next ⟨W, t⟩ ∧ t.FailedWith .badArgument ∧
        b.InputsKept t ∧ b.StorageKept t)

/-- R230: the number of set bits across all digits of operand X, whatever its sign, operand N not looked at;
BadArgument when X is not a number the core accepts; no allocation. -/
def Obligations.CountResult : Prop :=
  ∀ (W : Width) (b : Block W), b.Inv → b.phase = .busy →
    (b.HasNumber → b.Settled →
      ∃ t : Block W, exec .count ⟨W, b⟩ = .next ⟨W, t⟩ ∧
        t.ScalarDone (((List.range b.operandSize).map (fun i => popcount (b.operandDigit i))).sum) ∧
        b.InputsKept t ∧ b.StorageKept t) ∧
    (¬ b.HasNumber →
      ∃ t : Block W, exec .count ⟨W, b⟩ = .next ⟨W, t⟩ ∧ t.FailedWith .badArgument ∧
        b.InputsKept t ∧ b.StorageKept t)

/-- R202, R14: for an operand whose top digit is not 0, or of one digit, SIZE gives the least `k` with the
magnitude below `2^k`. -/
def Obligations.SizeIsTheLeastBound : Prop :=
  ∀ (W : Width) (b : Block W), b.Inv → b.phase = .busy → b.HasNumber → b.Settled →
    (b.operandSize = 1 ∨ b.operandDigit (b.operandSize - 1) ≠ 0) →
    ∃ t : Block W, exec .size ⟨W, b⟩ = .next ⟨W, t⟩ ∧ t.rform = .scalar ∧
      ∀ k : Nat, b.operandMag < 2 ^ k ↔ t.rval.toNat ≤ k

/-- R234: for a non-negative operand, COUNT gives the number of indices below what SIZE gives for which TEST
gives 1. -/
def Obligations.CountIsTheNumberOfTestedOnes : Prop :=
  ∀ (W : Width) (b : Block W), b.Inv → b.phase = .busy → b.HasNumber → b.Settled → ¬ b.Negative →
    ∃ (tc ts : Block W) (tt : Nat → Block W),
      exec .count ⟨W, b⟩ = .next ⟨W, tc⟩ ∧ exec .size ⟨W, b⟩ = .next ⟨W, ts⟩ ∧
      (∀ n, n < 2 ^ W.bits →
        exec .test ⟨W, { b with ndesc := 1, nval := BitVec.ofNat W.bits n }⟩ = .next ⟨W, tt n⟩) ∧
      tc.rval.toNat = (List.range ts.rval.toNat).countP (fun n => decide ((tt n).rval = 1))

/-- R201: the shifting loop gives the same value as the formula of R200. -/
def Obligations.BitLengthLoopAgrees : Prop :=
  ∀ (W : Width) (t : Word W) (r : Nat), bitLengthLoop W.bits t.toNat r = r + bitlen t

/-- R232: the word-parallel reduction. After the three subtractions each 4-bit lane, and after the widening
the remainder modulo 255 is the population count. COUNT itself is
modelled by the population count; the steps of R232 are the spec's general knowledge G1, G2 (A17). -/
def Obligations.WordParallelCountAgrees : Prop :=
  ∀ (W : Width) (d : Word W),
    (∀ j, j < W.bits / 4 →
      ((swarNibbles d).extractLsb' (4 * j) 4).toNat =
        (List.range 4).countP (fun i => d.getLsbD (4 * j + i))) ∧
    (∀ j, j < W.bits / 8 →
      ((swarBytes (swarNibbles d)).extractLsb' (8 * j) 8).toNat =
        (List.range 8).countP (fun i => d.getLsbD (8 * j + i))) ∧
    swarCount d = popcount d

/-! ### SET, CLEAR, TOGGLE -/

/-- R173, R144, R141: SET completes when its operands are accepted and a buffer can be had; the buffer then
holds the operand's digits, zero-extended, with the bit's digit ORed. The digits are those in host memory (A6). -/
def Obligations.SetResult : Prop :=
  ∀ (W : Width) (b : Block W), b.Inv → b.phase = .busy → b.BitOpReady → b.Settled →
    b.BufferGranted b.neededDigits →
    ∃ t : Block W, exec .set ⟨W, b⟩ = .next ⟨W, t⟩ ∧
      t.EditDone b.neededDigits (fun i =>
        if i = b.nval.toNat / W.bits then b.grownDigit i ||| (1#W.bits <<< (b.nval.toNat % W.bits))
        else b.grownDigit i) ∧
      b.InputsKept t

/-- R175: CLEAR of a bit in range completes when a buffer of the operand's size can be had; the buffer then
holds the operand's digits with the bit's digit ANDed with the complement. -/
def Obligations.ClearResult : Prop :=
  ∀ (W : Width) (b : Block W), b.Inv → b.phase = .busy → b.BitOpReady → b.Settled →
    b.nval.toNat / W.bits < b.operandSize → b.BufferGranted b.operandSize →
    ∃ t : Block W, exec .clear ⟨W, b⟩ = .next ⟨W, t⟩ ∧
      t.EditDone b.operandSize (fun i =>
        if i = b.nval.toNat / W.bits then b.operandDigit i &&& ~~~(1#W.bits <<< (b.nval.toNat % W.bits))
        else b.operandDigit i) ∧
      b.InputsKept t

/-- R179: TOGGLE grows as SET does and XORs. -/
def Obligations.ToggleResult : Prop :=
  ∀ (W : Width) (b : Block W), b.Inv → b.phase = .busy → b.BitOpReady → b.Settled →
    b.BufferGranted b.neededDigits →
    ∃ t : Block W, exec .toggle ⟨W, b⟩ = .next ⟨W, t⟩ ∧
      t.EditDone b.neededDigits (fun i =>
        if i = b.nval.toNat / W.bits then b.grownDigit i ^^^ (1#W.bits <<< (b.nval.toNat % W.bits))
        else b.grownDigit i) ∧
      b.InputsKept t

/-- R176: a CLEAR whose digit index is not below the operand's size, or whose index is HUGE, gives the operand
itself: ORIGINAL, no buffer, no copy, no allocation, nothing else changed. That the result denotes the operand's value
also where digits of it have been given back to the allocator is the model's choice (A23). -/
def Obligations.ClearOutOfRangeIsOriginal : Prop :=
  ∀ (W : Width) (b : Block W), b.Inv → b.phase = .busy → b.HasNumber → b.HasIndex → ¬ b.Negative →
    (b.nkind = 2 ∨ b.operandSize < b.nval.toNat / W.bits + 1) →
    ∃ t : Block W, exec .clear ⟨W, b⟩ = .next ⟨W, t⟩ ∧ t.phase = .done ∧ t.err = .none ∧ t.rform = .original ∧
      t.rsign = false ∧ t.rval = 0 ∧ t.rsize = 0 ∧ t.wkind = .none ∧ b.InputsKept t ∧ b.StorageKept t ∧
      t.resultValue = some b.operandValue

/-- R182: the value laws. With `x` the operand's value: TEST gives `(x >> bn) & 1`, SET `x | 2^bn`, CLEAR
`x & ~2^bn`, TOGGLE `x XOR 2^bn`, whenever the command completes; and a result that is not ORIGINAL is
normalised. -/
def Obligations.BitOperationValueLaws : Prop :=
  ∀ (W : Width) (b : Block W), b.Inv → b.phase = .busy → b.BitOpReady → b.Settled →
    b.operandValue = (b.operandMag : Int) ∧
    ∀ (i : Instr) (t : Block W), exec i ⟨W, b⟩ = .next ⟨W, t⟩ → t.err = .none →
      (i = .test → t.rform = .scalar ∧ t.rval.toNat = (b.operandMag >>> b.nval.toNat) &&& 1) ∧
      (i = .set → t.resultValue = some ((b.operandMag ||| 2 ^ b.nval.toNat : Nat) : Int)) ∧
      (i = .clear →
        t.resultValue = some ((b.operandMag - (b.operandMag &&& 2 ^ b.nval.toNat) : Nat) : Int)) ∧
      (i = .toggle → t.resultValue = some ((b.operandMag ^^^ 2 ^ b.nval.toNat : Nat) : Int)) ∧
      (i = .set ∨ i = .clear ∨ i = .toggle →
        t.rform = .original ∨ t.rsize = 1 ∨ t.wbufDigit (t.rsize.toNat - 1) ≠ 0)

/-- R162: a HUGE index has the outcomes of every index with `di + 1 > MAX_DIGITS`: TEST 0, CLEAR ORIGINAL, SET
and TOGGLE AllocationFailure with no call of the allocator. -/
def Obligations.HugeIndexOutcomes : Prop :=
  ∀ (W : Width) (b : Block W), b.Inv → b.phase = .busy → b.HasNumber → ¬ b.Negative →
    (b.nkind = 2 ∨ (b.nkind = 1 ∧ b.params.maxDigits < b.nval.toNat / W.bits + 1)) →
    (∃ t : Block W, exec .test ⟨W, b⟩ = .next ⟨W, t⟩ ∧ t.ScalarDone 0) ∧
    (∃ t : Block W, exec .clear ⟨W, b⟩ = .next ⟨W, t⟩ ∧ t.err = .none ∧ t.rform = .original) ∧
    (∃ t : Block W, exec .set ⟨W, b⟩ = .next ⟨W, t⟩ ∧ t.FailedWith .allocationFailure ∧ t.trace = b.trace) ∧
    (∃ t : Block W, exec .toggle ⟨W, b⟩ = .next ⟨W, t⟩ ∧ t.FailedWith .allocationFailure ∧ t.trace = b.trace)

/-! ### Frames -/

/-- R61, R64, R181: what SET, CLEAR and TOGGLE leave alone. A form that copies to the heap stores only to the
region the allocator grants for its length, and not to INL; every other form stores nothing to host memory, and
one that comes to no copy writes no cell of INL. -/
def Obligations.EditCommandsFrame : Prop :=
  ∀ (W : Width) (b : Block W) (i : Instr), i = .set ∨ i = .clear ∨ i = .toggle → b.Inv → b.phase = .busy →
    ∃ t : Block W, exec i ⟨W, b⟩ = .next ⟨W, t⟩ ∧ b.InputsKept t ∧
      (∀ r, b.storedRegion i = some r →
        b.MemoryKeptOutside r t ∧ t.live = r :: b.live ∧ (∀ a, a ∈ t.released → a ∈ b.released) ∧ t.inl = b.inl) ∧
      (b.storedRegion i = none →
        (∀ k, readByte t.mem k = readByte b.mem k) ∧ t.live = b.live ∧ t.released = b.released) ∧
      (b.copyLength i = none → t.inl = b.inl)

/-- R120, R121, R124: a command's acquisition writes ACQD, the absolute value of XIMM, for a COMPACT operand and
nothing for any other; nothing else writes ACQD. THE MODEL'S CHOICE in two clauses: that ACQD keeps the digit when the
command then raises (A12; R12 speaks of visible changes only), and that the absolute value of a negative XIMM is its
two's-complement negation (A19, the spec's general knowledge G3). -/
def Obligations.AcquisitionWritesTheSynthesisedDigit : Prop :=
  ∀ (W : Width) (b : Block W) (op : PendingOp), b.Inv → b.phase = .busy →
    ∃ t : Block W, exec op.instr ⟨W, b⟩ = .next ⟨W, t⟩ ∧
      t.acqd = (if b.xform = 1 then (if b.ximm.msb then -b.ximm else b.ximm) else b.acqd)

/-- R61, R181: no command changes a digit of the operand region. -/
def Obligations.OperandRegionIsNeverWritten : Prop :=
  ∀ (W : Width) (b : Block W) (i : Instr) (r : Region), b.Inv → (b.phase = .busy ∨ i = .release) → b.HasNumber →
    b.operandRegion = some r →
    ∃ t : Block W, exec i ⟨W, b⟩ = .next ⟨W, t⟩ ∧ ∀ a, r.has a = true → t.digitAt a = b.digitAt a

/-- R33, R36, R38, R39: a step changes an operand register or RSEL only when it is a host register access or a
reset, and nothing changes the parameters or the width. -/
def Obligations.OnlyTheHostWritesOperandRegisters : Prop :=
  ∀ (W : Width) (b : Block W) (s' : State), step ⟨W, b⟩ = .next s' →
    ∃ t : Block W, s' = ⟨W, t⟩ ∧ t.params = b.params ∧
      ((∀ addr size v rest, b.agenda ≠ .host (.busWrite addr size v) :: rest) →
        (∀ rest, b.agenda ≠ .host .reset :: rest) →
        t.xdesc = b.xdesc ∧ t.xsize = b.xsize ∧ t.xbase = b.xbase ∧ t.ximm = b.ximm ∧ t.ndesc = b.ndesc ∧
          t.nval = b.nval ∧ t.rsel = b.rsel)

/-- R77, R62, D6: a command's result depends only on its own operands and its own allocator answers. Two blocks
with the same operand registers, the same operand digits (each in its own byte order) and the same answers end
with the same result, whatever else memory and the blocks hold. -/
def Obligations.ResultDependsOnlyOnOperandsAndAnswers : Prop :=
  ∀ (W : Width) (b c : Block W) (op : PendingOp), b.Inv → c.Inv → b.phase = .busy → c.phase = .busy →
    b.params.maxDigits = c.params.maxDigits → b.xdesc = c.xdesc → b.xsize = c.xsize → b.xbase = c.xbase →
    b.ximm = c.ximm → b.ndesc = c.ndesc → b.nval = c.nval → b.Settled → c.Settled →
    (∀ i, i < b.operandSize → b.operandDigit i = c.operandDigit i) →
    (∀ n, b.allocAnswer b.operandRegion n = c.allocAnswer c.operandRegion n) →
    ∃ t u : Block W, exec op.instr ⟨W, b⟩ = .next ⟨W, t⟩ ∧ exec op.instr ⟨W, c⟩ = .next ⟨W, u⟩ ∧
      t.readReg .status = u.readReg .status ∧ t.rval = u.rval ∧ t.rsize = u.rsize ∧
      t.readReg .rbase = u.readReg .rbase ∧ ∀ i, i < t.rsize.toNat → t.wbufDigit i = u.wbufDigit i

/-- R78: the accesses of the core's port to host memory, in order. SIZE reads the top digit once, COUNT every
digit ascending, TEST the bit's digit only if it is in range, a CLEAR out of range none, a command that ends in
BadArgument none; a COMPACT operand is never read from memory. The log is the model's (A11). -/
def Obligations.ReadingCommandsAccessOrder : Prop :=
  ∀ (W : Width) (b : Block W), b.Inv → b.phase = .busy →
    (b.HasNumber →
      let inMemory := fun (l : List Nat) =>
        if b.xform = 2 then l.map (fun i => PortAccess.read (b.xbase.toNat + i)) else []
      (∃ t : Block W, exec .size ⟨W, b⟩ = .next ⟨W, t⟩ ∧ t.portLog = inMemory [b.operandSize - 1]) ∧
      (∃ t : Block W, exec .count ⟨W, b⟩ = .next ⟨W, t⟩ ∧ t.portLog = inMemory (List.range b.operandSize)) ∧
      (∃ t : Block W, exec .test ⟨W, b⟩ = .next ⟨W, t⟩ ∧
        t.portLog =
          if ¬ b.Negative ∧ b.nkind = 1 ∧ b.nval.toNat / W.bits < b.operandSize then
            inMemory [b.nval.toNat / W.bits]
          else []) ∧
      (∃ t : Block W, exec .clear ⟨W, b⟩ = .next ⟨W, t⟩ ∧ (b.copyLength .clear = none → t.portLog = []))) ∧
    ∀ op : PendingOp, ∃ t : Block W, exec op.instr ⟨W, b⟩ = .next ⟨W, t⟩ ∧
      (t.err = .badArgument → t.portLog = [])

/-- R78, R71: on the heap path the operand's digits are written to the buffer ascending, each read just before
from the operand region for a DIGITS operand and none read from memory for a COMPACT one; then the zeros are written,
the bit's digit is read and written, and the digits are read from the top down to the highest that is not 0, or to
the lowest. The log is the model's (A11). -/
def Obligations.CopyingCommandsAccessOrder : Prop :=
  ∀ (W : Width) (b : Block W) (i : Instr) (r : Region), b.Inv → b.phase = .busy → b.storedRegion i = some r →
    ∃ t : Block W, exec i ⟨W, b⟩ = .next ⟨W, t⟩ ∧
      t.portLog =
        (List.range b.operandSize).flatMap (fun j =>
          (if b.xform = 2 then [PortAccess.read (b.xbase.toNat + j)] else []) ++ [PortAccess.write (r.base + j)]) ++
        (List.range' b.operandSize (r.len - b.operandSize)).map (fun j => PortAccess.write (r.base + j)) ++
        [PortAccess.read (r.base + b.nval.toNat / W.bits), PortAccess.write (r.base + b.nval.toNat / W.bits)] ++
        (List.range (r.len - t.rsize.toNat + 1)).map (fun j => PortAccess.read (r.base + (r.len - 1 - j)))

/-! ### The engines -/

/-- R144: after a CopyAndGrow that succeeds, the buffer's digits are the view's, then zeros, so its magnitude is
the view's. -/
def Obligations.CopyAndGrowKeepsTheMagnitude : Prop :=
  ∀ (W : Width) (b t : Block W) (v : View) (m : Nat), b.mem.wf → 1 ≤ v.size →
    (∀ r a, v.region? = some r → r.has a = true → a ∉ b.released) →
    b.copyAndGrow v m = .ok () t →
    t.wn = max m v.size ∧
    (∀ i, i < v.size → t.wbufDigit i = (b.digit v i).1) ∧
    (∀ i, v.size ≤ i → i < t.wn → t.wbufDigit i = 0) ∧
    t.wbufMag t.wn = mag W (fun i => (b.digit v i).1.toNat) v.size

/-- R140 to R143, R147: the path by the digit count. Beyond `MAX_DIGITS` no call and a failure; up to three
digits the inline buffer and no call; from four on one call, and the heap at its base, or a failure. -/
def Obligations.BufferPathByDigitCount : Prop :=
  ∀ (W : Width) (b : Block W) (v : View) (m : Nat),
    (b.params.maxDigits < max m v.size → b.copyAndGrow v m = .raise .allocationFailure b) ∧
    (max m v.size ≤ b.params.maxDigits → max m v.size ≤ 3 →
      ∃ t, b.copyAndGrow v m = .ok () t ∧ t.wkind = .inline ∧ t.wn = max m v.size ∧ t.trace = b.trace ∧
        t.mem = b.mem) ∧
    (max m v.size ≤ b.params.maxDigits → 4 ≤ max m v.size →
      (b.allocAnswer v.region? (max m v.size) = .fail →
        ∃ t, b.copyAndGrow v m = .raise .allocationFailure t ∧ t.wkind = b.wkind ∧ t.mem = b.mem ∧ t.inl = b.inl ∧
          t.trace = b.trace ++ [.alloc (max m v.size) .fail]) ∧
      ∀ base, b.allocAnswer v.region? (max m v.size) = .ok base →
        ∃ t, b.copyAndGrow v m = .ok () t ∧ t.wkind = .heap ∧ t.hbase = base ∧ t.wn = max m v.size ∧
          t.trace = b.trace ++ [.alloc (max m v.size) (.ok base)])

/-- R210 to R212: the trim and the four result forms, for both signs. Normalisation writes no digit and keeps WN. -/
def Obligations.NormalizeTrimsAndForms : Prop :=
  ∀ (W : Width) (b : Block W) (sign : Bool), 1 ≤ b.wn → b.wn < 2 ^ W.bits →
    (b.wkind = .heap → ∀ i, i < b.wn → b.hbase.toNat + i ∉ b.released) →
    let t := b.normalize sign
    t.wn = b.wn ∧ (∀ i, t.wbufDigit i = b.wbufDigit i) ∧ 1 ≤ t.rsize.toNat ∧ t.rsize.toNat ≤ b.wn ∧
    (∀ i, t.rsize.toNat ≤ i → i < b.wn → b.wbufDigit i = 0) ∧
    (t.rsize.toNat = 1 ∨ b.wbufDigit (t.rsize.toNat - 1) ≠ 0) ∧
    (t.rsize.toNat = 1 → sign = false → t.rform = .compact ∧ t.rsign = false ∧ t.rval = b.wbufDigit 0) ∧
    (t.rsize.toNat = 1 → sign = true → (b.wbufDigit 0).msb = false →
      t.rform = .compact ∧ t.rsign = true ∧ t.rval = b.wbufDigit 0) ∧
    (t.rsize.toNat = 1 → sign = true → (b.wbufDigit 0).msb = true →
      t.rform = .digits ∧ t.rsign = true ∧ t.rval = 0) ∧
    (t.rsize.toNat ≠ 1 → t.rform = .digits ∧ t.rsign = sign ∧ t.rval = 0)

/-- R215: the value a normalised result denotes is the signed magnitude of the whole buffer. -/
def Obligations.NormalizePreservesTheValue : Prop :=
  ∀ (W : Width) (b : Block W) (sign : Bool), b.phase = .done → b.err = .none → 1 ≤ b.wn → b.wn < 2 ^ W.bits →
    (b.wkind = .heap → ∀ i, i < b.wn → b.hbase.toNat + i ∉ b.released) →
    (b.normalize sign).resultValue = some (signed sign (b.wbufMag b.wn))

/-- R127: the acquired view's value is the operand's value. -/
def Obligations.AcquiredViewHasTheOperandsValue : Prop :=
  ∀ (W : Width) (b t : Block W) (v : View), b.Settled → b.acquire = .ok v t →
    signed v.sign (mag W (fun i => (t.digit v i).1.toNat) v.size) = b.operandValue

/-- R160: a bit address decomposes uniquely into a digit index and a bit offset below `W`. -/
def Obligations.LocateDecomposesUniquely : Prop :=
  ∀ (W : Width) (bn di bo : Nat),
    (bn = W.bits * di + bo ∧ bo < W.bits) ↔ (di = digitIndex W bn ∧ bo = bitOffset W bn)

/-! ### Errors -/

/-- R281: the causes of BadArgument, exactly. -/
def Obligations.BadArgumentCauses : Prop :=
  ∀ (W : Width) (b : Block W) (op : PendingOp), b.Inv → b.phase = .busy →
    ∃ t : Block W, exec op.instr ⟨W, b⟩ = .next ⟨W, t⟩ ∧
      (t.err = .badArgument ↔
        (b.xform = 0 ∨ b.xform = 3) ∨
        (b.xform = 2 ∧ (b.xsize = 0 ∨ b.params.maxDigits < b.xsize.toNat ∨
          2 ^ W.bits < b.xbase.toNat + b.xsize.toNat)) ∨
        ((op = .test ∨ op = .set ∨ op = .clear ∨ op = .toggle) ∧
          ((b.nkind = 0 ∨ b.nkind = 3) ∨ b.Negative)))

/-- R282: the causes of AllocationFailure, exactly; of the three only the allocator's own answer involves a call
of the allocator. -/
def Obligations.AllocationFailureCauses : Prop :=
  ∀ (W : Width) (b : Block W) (op : PendingOp), b.Inv → b.phase = .busy →
    ∃ t : Block W, exec op.instr ⟨W, b⟩ = .next ⟨W, t⟩ ∧
      let accepted := b.HasNumber ∧ ¬ b.Negative
      let tooLarge := accepted ∧ (op = .set ∨ op = .toggle) ∧ b.nkind = 1 ∧ b.params.maxDigits < b.neededDigits
      let huge := accepted ∧ (op = .set ∨ op = .toggle) ∧ b.nkind = 2
      let refused := ∃ n, b.copyLength op.instr = some n ∧ 4 ≤ n ∧ b.allocAnswer b.operandRegion n = .fail
      (t.err = .allocationFailure ↔ tooLarge ∨ huge ∨ refused) ∧
      (tooLarge ∨ huge → t.trace = b.trace) ∧
      (∀ n, b.copyLength op.instr = some n → 4 ≤ n → b.allocAnswer b.operandRegion n = .fail →
        t.trace = b.trace ++ [.alloc n .fail])

/-- R283, R256: what an error of a command leaves, and what an illegal command word leaves (R260): no result, no
buffer, host memory and the operand registers as before; a failed command's trace gains at most one failed
`ALLOC`, an illegal word's only the release of what was held. -/
def Obligations.ErrorsLeaveNoTrace : Prop :=
  (∀ (W : Width) (b t : Block W) (op : PendingOp), b.Inv → b.phase = .busy →
    exec op.instr ⟨W, b⟩ = .next ⟨W, t⟩ → t.err ≠ .none →
    t.FailedWith t.err ∧ t.rbaseWord = 0 ∧ t.mem = b.mem ∧ b.InputsKept t ∧
      (t.trace = b.trace ∨ ∃ n, t.trace = b.trace ++ [.alloc n .fail])) ∧
  (∀ (W : Width) (b : Block W) (v : Word W) (rest : List (Move W)) (r : DecodeReject), b.phase ≠ .busy →
    b.agenda = .host (.wr b.params .cmd v) :: rest → decode v = .illegal r →
    ∃ t : Block W, step ⟨W, b⟩ = .next ⟨W, t⟩ ∧ t.FailedWith .illegalCommand ∧ t.readReg .status = 0x0E ∧
      t.rbaseWord = 0 ∧ t.mem = b.mem ∧ (b.setAgenda rest).InputsKept t ∧
      t.trace = b.trace ++ (if b.wkind = .heap then [.free b.hbase] else []))

/-- R143, R148: a command calls the allocator at most once, and only if it comes to copy. -/
def Obligations.AtMostOneAllocation : Prop :=
  ∀ (W : Width) (b : Block W) (i : Instr), b.Inv → (b.phase = .busy ∨ i = .release) →
    ∃ t : Block W, exec i ⟨W, b⟩ = .next ⟨W, t⟩ ∧
      t.trace.countP AllocEvent.isAlloc ≤ b.trace.countP AllocEvent.isAlloc + 1 ∧
      (b.copyLength i = none ∨ i = .release →
        t.trace.countP AllocEvent.isAlloc = b.trace.countP AllocEvent.isAlloc)

/-- R254: RELEASE frees the held buffer and returns the core to IDLE; in IDLE it changes nothing; while BUSY its
CMD write is ignored. -/
def Obligations.ReleaseResult : Prop :=
  ∀ (W : Width) (b : Block W), b.Inv →
    (b.phase ≠ .busy →
      ∃ t : Block W, exec .release ⟨W, b⟩ = .next ⟨W, t⟩ ∧ t.readReg .status = 0 ∧ t.readReg .rval = 0 ∧
        t.readReg .rsize = 0 ∧ t.readReg .rbase = 0 ∧ t.phase = .idle ∧ t.wkind = .none ∧ t.wn = 0 ∧
        t.mem = b.mem ∧ t.inl = b.inl ∧ t.acqd = b.acqd ∧ b.InputsKept t ∧
        t.trace = b.trace ++ (if b.wkind = .heap then [.free b.hbase] else [])) ∧
    (b.phase = .idle → exec .release ⟨W, b⟩ = .next ⟨W, b⟩) ∧
    (b.phase = .busy → ∀ rest, b.agenda = .host (.wr b.params .cmd (encode W .release)) :: rest →
      step ⟨W, b⟩ = .next ⟨W, b.setAgenda rest⟩)

/-! ### Registers and the host -/

/-- R24: the fields of STATUS at their bits, zeros above, and the codes of each field. -/
def Obligations.StatusFieldLayout : Prop :=
  ∀ (W : Width) (b : Block W),
    let s := b.readReg .status
    s.extractLsb' 0 2 = (match b.phase with | .idle => 0 | .busy => 1 | .done => 2) ∧
    s.extractLsb' 2 2 =
      (match b.err with | .none => 0 | .badArgument => 1 | .allocationFailure => 2 | .illegalCommand => 3) ∧
    s.extractLsb' 4 3 =
      (match b.rform with | .none => 0 | .scalar => 1 | .compact => 2 | .digits => 3 | .original => 4) ∧
    s.getLsbD 7 = b.rsign ∧
    s.extractLsb' 8 2 = (match b.wkind with | .none => 0 | .inline => 1 | .heap => 2) ∧
    s >>> 10 = 0

/-- R251, R22: a host read of a register returns its value and has no other effect; a read of STATUS with STATE ≠
BUSY ends the model's guard on the operand region (A9, A10). -/
def Obligations.RegisterReadHasNoSideEffect : Prop :=
  ∀ (W : Width) (b : Block W) (r : Reg) (rest : List (Move W)),
    b.agenda = .host (.rd W b.params r) :: rest →
    step ⟨W, b⟩ = .next ⟨W, { (b.setAgenda rest) with
      busData := b.readReg r
      guarded := if r = .status ∧ b.phase ≠ .busy then none else b.guarded }⟩

/-- R21 to R23, R37 to R39: what the registers that hold no state read as. -/
def Obligations.ComputedRegistersRead : Prop :=
  ∀ (W : Width) (b : Block W), b.params.legal W = true →
    b.readReg .cmd = 0 ∧ b.readReg .reserved = 0 ∧
    (b.readReg .config).toNat = W.bits + 4 * 256 ∧ (b.readReg .maxdig).toNat = b.params.maxDigits ∧
    (b.rform ≠ .compact → b.rform ≠ .digits → b.readReg .rdig = 0) ∧
    (b.rsize.toNat ≤ b.rsel.toNat → b.readReg .rdig = 0) ∧
    ((b.rform = .compact ∨ b.rform = .digits) → b.rsel.toNat < b.rsize.toNat →
      b.readReg .rdig = b.wbufDigit b.rsel.toNat)

/-- R22, R27 to R32, R36: a host write, the block not BUSY, of any register but CMD: the read/write registers
read back as written, XDESC and NDESC in their defined bits only, and every other register reads as before. -/
def Obligations.RegisterWritesReadBack : Prop :=
  ∀ (W : Width) (b : Block W) (r : Reg) (v : Word W) (rest : List (Move W)), b.phase ≠ .busy → r ≠ .cmd →
    b.agenda = .host (.wr b.params r v) :: rest →
    ∃ t : Block W, step ⟨W, b⟩ = .next ⟨W, t⟩ ∧ t.mem = b.mem ∧ t.trace = b.trace ∧
      (r ∈ [Reg.xsize, .xbase, .ximm, .nval, .rsel] → t.readReg r = v) ∧
      (r = .xdesc → t.readReg r = v &&& 7) ∧
      (r = .ndesc → t.readReg r = v &&& 3) ∧
      (r ∈ [Reg.status, .rval, .rsize, .rdig, .config, .maxdig, .rbase, .reserved] →
        t = b.setAgenda rest) ∧
      (∀ r', r' ≠ r → ¬ (r = .rsel ∧ r' = .rdig) → t.readReg r' = b.readReg r')

/-- R20: exactly the whole aligned `W`-bit words of the block are register accesses; the step refuses any other
access that touches the block. That this holds at a `BLOCK_BASE` that is no multiple of `W/8` too is the model's
choice (A24). -/
def Obligations.OnlyWholeRegistersAreAccessed : Prop :=
  ∀ (W : Width) (b : Block W) (addr size : Nat) (v : Word W) (rest : List (Move W)),
    (∀ r, busTarget W b.params addr size = .reg r ↔ (size = W.bytes ∧ addr = regAddr W b.params r)) ∧
    (b.agenda = .host (.busWrite addr size v) :: rest ∨ b.agenda = .host (.busRead addr size) :: rest →
      (∃ a, b.params.blockBase ≤ a ∧ a < b.params.blockBase + 16 * W.bytes ∧ addr ≤ a ∧ a < addr + size) →
      (¬ ∃ r, size = W.bytes ∧ addr = regAddr W b.params r) →
      step ⟨W, b⟩ = .refused (.partialRegisterAccess addr size))

/-- R66: while a heap result is held, RDIG at `RSEL = i` and a host read of digit address `RBASE + i` give the
same digit. -/
def Obligations.WindowAndMemoryAgree : Prop :=
  ∀ (W : Width) (b : Block W) (i : Nat) (rest : List (Move W)), b.Inv → b.wkind = .heap →
    (b.rform = .compact ∨ b.rform = .digits) → i < b.rsize.toNat →
    b.agenda = .host (.memRead ((b.readReg .rbase).toNat + i)) :: rest →
    ∃ t : Block W, step ⟨W, b⟩ = .next ⟨W, t⟩ ∧
      t.busData = ({ b with rsel := BitVec.ofNat W.bits i } : Block W).readReg .rdig

/-- R320, R65: the host has no move on the operand region of a command until it has read STATUS with STATE ≠
BUSY, nor on a held heap buffer: the step refuses it. Any other write of a digit changes that digit and no other.
The refusal and the guarded region are the model's form of R320 (A9). -/
def Obligations.HostWritesRespectOwnership : Prop :=
  ∀ (W : Width) (b : Block W) (a : Nat) (d : Word W) (rest : List (Move W)), b.Inv → a < 2 ^ W.bits →
    b.agenda = .host (.memWrite a d) :: rest →
    (((∃ r, b.guarded = some r ∧ r.has a = true) ∨
        (b.wkind = .heap ∧ b.hbase.toNat ≤ a ∧ a < b.hbase.toNat + b.wn)) →
      step ⟨W, b⟩ = .refused (.hostTouchedOwnedStorage a)) ∧
    (¬ ((∃ r, b.guarded = some r ∧ r.has a = true) ∨
        (b.wkind = .heap ∧ b.hbase.toNat ≤ a ∧ a < b.hbase.toNat + b.wn)) →
      ∃ t : Block W, step ⟨W, b⟩ = .next ⟨W, t⟩ ∧ t.digitAt a = d ∧ (∀ a', a' ≠ a → t.digitAt a' = b.digitAt a') ∧
        (∀ i, b.wbufDigit i ≠ t.wbufDigit i → b.wn ≤ i))

/-- R98: after the register writes an operand's assembler form expands to, the operand registers hold that
operand. -/
def Obligations.ExpansionsWriteTheOperands : Prop :=
  ∀ (W : Width) (b : Block W) (x : Asm.XOperand) (n : Asm.NOperand), x.wf W = true → n.wf W = true →
    b.phase ≠ .busy →
    b.agenda = (x.expand W b.params ++ n.expand W b.params).map .host →
    ∃ t : Block W,
      Host.Core.run Sys2Proof.core (x.expand W b.params ++ n.expand W b.params).length ⟨W, b⟩ =
        .next (⟨W, t⟩ : State) ∧
      t.agenda = [] ∧ t.phase = b.phase ∧
      (match x with
        | .imm v => t.xform = 1 ∧ t.ximm.toInt = v
        | .digits neg base size =>
          t.xform = 2 ∧ t.xsign = neg ∧ t.xbase.toNat = base ∧ t.xsize.toNat = size
        | .nan => t.xform = 0) ∧
      (match n with
        | .val k => t.nkind = 1 ∧ t.nval.toNat = k
        | .huge => t.nkind = 2
        | .invalid => t.nkind = 0)

/-! ### Reset -/

/-- R50: the reset values the spec gives, at every width and parameters. -/
def Obligations.ResetValues : Prop :=
  ∀ (W : Width) (p : Params),
    let b := (State.resetFor W p).block
    b.phase = .idle ∧ b.err = .none ∧ b.rform = .none ∧ b.rsign = false ∧ b.wkind = .none ∧ b.xdesc = 0 ∧
      b.xsize = 0 ∧ b.xbase = 0 ∧ b.ximm = 0 ∧ b.ndesc = 0 ∧ b.nval = 0 ∧ b.rval = 0 ∧ b.rsize = 0 ∧ b.rsel = 0 ∧
      b.hbase = 0 ∧ b.wn = 0 ∧ b.readReg .status = 0 ∧ b.readReg .rbase = 0

/-- R311, R310: a reset of a running block gives every register its reset value, writes no host memory and calls
no allocator: a held buffer is abandoned, its region still live. -/
def Obligations.ResetAbandonsTheBuffer : Prop :=
  ∀ (W : Width) (b : Block W) (rest : List (Move W)), b.agenda = .host .reset :: rest →
    ∃ t : Block W, step ⟨W, b⟩ = .next ⟨W, t⟩ ∧ t.phase = .idle ∧ t.ResultCleared ∧ t.err = .none ∧
      t.wkind = .none ∧ t.hbase = 0 ∧ t.wn = 0 ∧ t.xdesc = 0 ∧ t.xsize = 0 ∧ t.xbase = 0 ∧ t.ximm = 0 ∧ t.ndesc = 0 ∧
      t.nval = 0 ∧ t.rsel = 0 ∧ t.mem = b.mem ∧
      t.trace = b.trace ∧ t.live = b.live

/-- R263: after reset, every command but RELEASE ends with BadArgument. -/
def Obligations.CommandsRightAfterResetFail : Prop :=
  ∀ (W : Width) (p : Params) (op : PendingOp),
    ∃ t : Block W, exec op.instr ⟨W, (State.resetFor W p).block.acceptCommand op⟩ = .next ⟨W, t⟩ ∧
      t.FailedWith .badArgument

/-! ### The invariant -/

/-- The state after reset meets the invariant, at every legal parameters. -/
def Obligations.ResetMeetsTheInvariant : Prop :=
  State.reset.Inv ∧ ∀ (W : Width) (p : Params), p.legal W = true → (State.resetFor W p).Inv

/-- Every step keeps the invariant: memory in its canonical form; buffers that neither wrap nor overlap (R64); the
working buffer on the path of its size (R141); no result, no error and no buffer outside DONE (R26, R48); an error
holds none (R283); a result that is normalised, with zeros above it (R211, R214); the host value kept for an ORIGINAL
result (R324, A23). -/
def Obligations.EveryStepKeepsTheInvariant : Prop :=
  ∀ s s' : State, s.Inv → step s = .next s' → s'.Inv

/-! ### Free values -/

/-- I18, A6: TEST of a digit that has been given back to the allocator completes, and its result is a bit of a
free value: nothing is known of it but that it is 0 or 1. -/
def Obligations.TestOfReturnedStorageIsFree : Prop :=
  ∀ (W : Width) (b : Block W), b.Inv → b.phase = .busy → b.BitOpReady → b.xform = 2 →
    b.nval.toNat / W.bits < b.operandSize → b.xbase.toNat + b.nval.toNat / W.bits ∈ b.released →
    ∃ t : Block W, exec .test ⟨W, b⟩ = .next ⟨W, t⟩ ∧ t.draws = b.draws + 1 ∧
      t.ScalarDone ((Config.releasedDigit W b.draws (b.xbase.toNat + b.nval.toNat / W.bits)).getLsbD
        (b.nval.toNat % W.bits)).toNat

/-! ### The life of a result -/

/-- R261, R323, R324: from DONE on, until a CMD write or a reset, no move of either agent changes the value the
host's encoder builds, nor what STATUS, RVAL, RSIZE and RBASE read: an ORIGINAL result stays the host value of its own
command when operand registers or the operand's digits are written. Where that value is kept is the model's choice
(A23), and so is the host's having no move on a held buffer (A9). -/
def Obligations.ResultStaysUntilTheNextCommand : Prop :=
  ∀ (W : Width) (b : Block W) (s' : State), b.Inv → b.phase = .done →
    (∀ v rest, b.agenda ≠ .host (.wr b.params .cmd v) :: rest) → (∀ rest, b.agenda ≠ .host .reset :: rest) →
    step ⟨W, b⟩ = .next s' →
    ∃ t : Block W, s' = ⟨W, t⟩ ∧ t.phase = .done ∧ t.resultValue = b.resultValue ∧
      ∀ r, r ∈ [Reg.status, .rval, .rsize, .rbase] → t.readReg r = b.readReg r

/-- R26, R261: in DONE the encoder builds a value exactly when no error is reported: every result form has one. -/
def Obligations.EveryResultDenotesAValue : Prop :=
  ∀ (W : Width) (b : Block W), b.Inv → b.phase = .done → (b.err = .none ↔ ∃ v, b.resultValue = some v)
end

