-- ==== Sys2Proof/Laws/Memory.lean ====
section
/-!
SUPPORT. Laws of host memory: the canonical form is kept, a read after a write to the same place gives
the value written, and a write leaves every other place alone; for bytes, then for digits.
-/
namespace Sys2Proof

theorem Width.bits_eq (W : Width) : W.bits = 8 * W.bytes := by cases W <;> rfl

theorem Width.bits_pos (W : Width) : 0 < W.bits := by cases W <;> decide

theorem Width.bytes_pos (W : Width) : 0 < W.bytes := by cases W <;> decide

namespace Machine

/-! ### Bytes -/

theorem readByte_of_forall_lt {m : Memory} {a : Nat} (h : ∀ c ∈ m, a < c.1) : readByte m a = Memory.unlisted := by
  induction m with
  | nil => rfl
  | cons c rest ih =>
    have hc := h c (by simp)
    have : c.1 ≠ a := by omega
    simp only [readByte, if_neg this]
    exact ih (fun d hd => h d (by simp [hd]))

/-- Every key of the result is the key written or one that was there. -/
theorem mem_writeByte {m : Memory} {a : Nat} {v : BitVec 8} {c : Host.Cell} (h : c ∈ writeByte m a v) :
    c = (a, v) ∨ c ∈ m := by
  induction m with
  | nil =>
    simp only [writeByte] at h
    split at h
    · simp at h
    · exact .inl (by simpa using h)
  | cons d rest ih =>
    obtain ⟨k, x⟩ := d
    simp only [writeByte] at h
    split at h
    · split at h
      · exact .inr h
      · rcases List.mem_cons.mp h with h | h
        · exact .inl h
        · exact .inr h
    · split at h
      · split at h
        · exact .inr (List.mem_cons_of_mem _ h)
        · rcases List.mem_cons.mp h with h | h
          · exact .inl h
          · exact .inr (List.mem_cons_of_mem _ h)
      · rcases List.mem_cons.mp h with h | h
        · exact .inr (by simp [h])
        · rcases ih h with h | h
          · exact .inl h
          · exact .inr (List.mem_cons_of_mem _ h)

theorem writeByte_wf {m : Memory} (hm : m.wf) (a : Nat) (v : BitVec 8) : (writeByte m a v).wf := by
  induction m with
  | nil =>
    simp only [writeByte]
    split
    · exact ⟨.nil, by simp⟩
    · next hv => exact ⟨by simp, by simpa using hv⟩
  | cons d rest ih =>
    obtain ⟨k, x⟩ := d
    obtain ⟨hp, hn⟩ := hm
    rw [List.pairwise_cons] at hp
    have hrest : Memory.wf rest := ⟨hp.2, fun c hc => hn c (by simp [hc])⟩
    have hx : x ≠ Memory.unlisted := hn (k, x) (by simp)
    simp only [writeByte]
    split
    · next hak =>
      split
      · exact ⟨by rw [List.pairwise_cons]; exact hp, hn⟩
      · next hv =>
        refine ⟨?_, ?_⟩
        · rw [List.pairwise_cons, List.pairwise_cons]
          refine ⟨?_, hp⟩
          intro c hc
          rcases List.mem_cons.mp hc with rfl | hc
          · exact hak
          · exact Nat.lt_trans hak (hp.1 c hc)
        · intro c hc
          rcases List.mem_cons.mp hc with rfl | hc
          · exact hv
          · exact hn c hc
    · next hak =>
      split
      · next hak' =>
        subst hak'
        split
        · exact hrest
        · next hv =>
          refine ⟨by rw [List.pairwise_cons]; exact hp, ?_⟩
          intro c hc
          rcases List.mem_cons.mp hc with rfl | hc
          · exact hv
          · exact hrest.2 c hc
      · next hne =>
        have hr := ih hrest
        refine ⟨?_, ?_⟩
        · rw [List.pairwise_cons]
          refine ⟨?_, hr.1⟩
          intro c hc
          rcases mem_writeByte hc with rfl | hc
          · simp only; omega
          · exact hp.1 c hc
        · intro c hc
          rcases List.mem_cons.mp hc with rfl | hc
          · exact hx
          · exact hr.2 c hc

theorem readByte_writeByte_same {m : Memory} (hm : m.wf) (a : Nat) (v : BitVec 8) :
    readByte (writeByte m a v) a = v := by
  induction m with
  | nil =>
    simp only [writeByte]
    split
    · next hv => simp [readByte, hv]
    · simp [readByte]
  | cons d rest ih =>
    obtain ⟨k, x⟩ := d
    obtain ⟨hp, hn⟩ := hm
    rw [List.pairwise_cons] at hp
    have hrest : Memory.wf rest := ⟨hp.2, fun c hc => hn c (by simp [hc])⟩
    simp only [writeByte]
    split
    · next hak =>
      split
      · next hv =>
        rw [hv]
        apply readByte_of_forall_lt
        intro c hc
        rcases List.mem_cons.mp hc with rfl | hc
        · exact hak
        · exact Nat.lt_trans hak (hp.1 c hc)
      · simp [readByte]
    · split
      · next hak =>
        subst hak
        split
        · next hv => rw [hv]; exact readByte_of_forall_lt hp.1
        · simp [readByte]
      · next hne =>
        have : k ≠ a := fun h => hne h.symm
        simp only [readByte, if_neg this]
        exact ih hrest

theorem readByte_writeByte_other (m : Memory) {a a' : Nat} (h : a' ≠ a) (v : BitVec 8) :
    readByte (writeByte m a v) a' = readByte m a' := by
  have h' : a ≠ a' := fun e => h e.symm
  induction m with
  | nil =>
    simp only [writeByte]
    split <;> simp [readByte, h']
  | cons d rest ih =>
    obtain ⟨k, x⟩ := d
    simp only [writeByte]
    split
    · split <;> simp [readByte, h']
    · split
      · next hak =>
        subst hak
        split <;> simp [readByte, h']
      · simp only [readByte]
        split
        · rfl
        · exact ih

/-! ### Digits -/

/-- Two bytes of digits have the same key only if they are the same byte of the same digit. -/
theorem byteKey_inj {W : Width} {o : ByteOrder} {a a' i i' : Nat} (hi : i < W.bytes) (hi' : i' < W.bytes)
    (h : byteKey W o a i = byteKey W o a' i') : a = a' ∧ i = i' := by
  cases W <;> cases o <;> simp only [byteKey, Width.bytes] at * <;> omega

/-- A byte's key tells its digit address. -/
theorem byteKey_div {W : Width} {i : Nat} (o : ByteOrder) (a : Nat) (hi : i < W.bytes) :
    byteKey W o a i / W.bytes = a := by
  cases W <;> cases o <;> simp only [byteKey, Width.bytes] at * <;> omega

theorem writeBytes_wf {m : Memory} (hm : m.wf) (W : Width) (o : ByteOrder) (a : Nat) (v : Word W) (n : Nat) :
    (writeBytes W o m a v n).wf := by
  induction n with
  | zero => exact hm
  | succ n ih => exact writeByte_wf ih _ _

theorem writeDigit_wf {m : Memory} (hm : m.wf) (W : Width) (o : ByteOrder) (a : Nat) (v : Word W) :
    (writeDigit W o m a v).wf := writeBytes_wf hm W o a v _

/-- A digit write leaves every key that is not one of the digit's bytes alone. -/
theorem readByte_writeBytes_other (W : Width) (o : ByteOrder) (m : Memory) (a : Nat) (v : Word W) (n k : Nat)
    (h : ∀ i, i < n → k ≠ byteKey W o a i) : readByte (writeBytes W o m a v n) k = readByte m k := by
  induction n with
  | zero => rfl
  | succ n ih =>
    simp only [writeBytes]
    rw [readByte_writeByte_other _ (h n (by omega))]
    exact ih (fun i hi => h i (by omega))

theorem readByte_writeBytes_same {m : Memory} (hm : m.wf) (W : Width) (o : ByteOrder) (a : Nat) (v : Word W)
    (n i : Nat) (hn : n ≤ W.bytes) (hi : i < n) :
    readByte (writeBytes W o m a v n) (byteKey W o a i) = v.extractLsb' (8 * i) 8 := by
  induction n with
  | zero => omega
  | succ n ih =>
    simp only [writeBytes]
    by_cases h : i = n
    · subst h
      exact readByte_writeByte_same (writeBytes_wf hm W o a v _) _ _
    · rw [readByte_writeByte_other]
      · exact ih (by omega) (by omega)
      · intro e
        exact h (byteKey_inj (by omega) (by omega) e).2

theorem readBytes_congr {W : Width} {o : ByteOrder} {m m' : Memory} {a n : Nat}
    (h : ∀ i, i < n → readByte m (byteKey W o a i) = readByte m' (byteKey W o a i)) :
    readBytes W o m a n = readBytes W o m' a n := by
  induction n with
  | zero => rfl
  | succ n ih =>
    simp only [readBytes]
    rw [ih (fun i hi => h i (by omega)), h n (by omega)]

theorem readBytes_writeBytes {m : Memory} (hm : m.wf) (W : Width) (o : ByteOrder) (a : Nat) (v : Word W)
    (n : Nat) (hn : n ≤ W.bytes) :
    readBytes W o (writeBytes W o m a v W.bytes) a n = v.toNat % 256 ^ n := by
  induction n with
  | zero => simp [readBytes, Nat.mod_one]
  | succ n ih =>
    simp only [readBytes]
    rw [ih (by omega), readByte_writeBytes_same hm W o a v W.bytes n (Nat.le_refl _) (by omega)]
    simp only [BitVec.extractLsb'_toNat, Nat.shiftRight_eq_div_pow]
    rw [show (2 : Nat) ^ (8 * n) = 256 ^ n by rw [Nat.pow_mul], show (2 : Nat) ^ 8 = 256 by rfl,
      Nat.pow_succ, Nat.mod_mul, Nat.mul_comm]

/-- A digit read after a write of that digit gives the digit written (R65). -/
theorem readDigit_writeDigit_same {m : Memory} (hm : m.wf) (W : Width) (o : ByteOrder) (a : Nat) (v : Word W) :
    readDigit W o (writeDigit W o m a v) a = v := by
  unfold readDigit writeDigit
  rw [readBytes_writeBytes hm W o a v _ (Nat.le_refl _)]
  apply BitVec.eq_of_toNat_eq
  rw [BitVec.toNat_ofNat]
  have h1 : (256 : Nat) ^ W.bytes = 2 ^ W.bits := by
    rw [Width.bits_eq, Nat.pow_mul]
  rw [h1, Nat.mod_mod]
  exact Nat.mod_eq_of_lt v.isLt

/-- A digit write leaves every other digit alone (R65). -/
theorem readDigit_writeDigit_other (W : Width) (o : ByteOrder) (m : Memory) {a a' : Nat} (h : a' ≠ a)
    (v : Word W) : readDigit W o (writeDigit W o m a v) a' = readDigit W o m a' := by
  unfold readDigit writeDigit
  congr 1
  apply readBytes_congr
  intro i hi
  apply readByte_writeBytes_other
  intro j hj e
  exact h (byteKey_inj hi hj e).1

end Machine
end Sys2Proof
end

