-- ==== Sys2Proof/Laws/State.lean ====
section
/-!
SUPPORT. One lemma per field per named update of the block: what the update leaves in that field.
-/
namespace Sys2Proof.Machine.Block
variable {W : Width} (b : Block W)

@[simp] theorem logPort_params (x : PortAccess) : (b.logPort x).params = b.params := rfl
@[simp] theorem logPort_phase (x : PortAccess) : (b.logPort x).phase = b.phase := rfl
@[simp] theorem logPort_err (x : PortAccess) : (b.logPort x).err = b.err := rfl
@[simp] theorem logPort_rform (x : PortAccess) : (b.logPort x).rform = b.rform := rfl
@[simp] theorem logPort_rsign (x : PortAccess) : (b.logPort x).rsign = b.rsign := rfl
@[simp] theorem logPort_xdesc (x : PortAccess) : (b.logPort x).xdesc = b.xdesc := rfl
@[simp] theorem logPort_xsize (x : PortAccess) : (b.logPort x).xsize = b.xsize := rfl
@[simp] theorem logPort_xbase (x : PortAccess) : (b.logPort x).xbase = b.xbase := rfl
@[simp] theorem logPort_ximm (x : PortAccess) : (b.logPort x).ximm = b.ximm := rfl
@[simp] theorem logPort_ndesc (x : PortAccess) : (b.logPort x).ndesc = b.ndesc := rfl
@[simp] theorem logPort_nval (x : PortAccess) : (b.logPort x).nval = b.nval := rfl
@[simp] theorem logPort_rval (x : PortAccess) : (b.logPort x).rval = b.rval := rfl
@[simp] theorem logPort_rsize (x : PortAccess) : (b.logPort x).rsize = b.rsize := rfl
@[simp] theorem logPort_rsel (x : PortAccess) : (b.logPort x).rsel = b.rsel := rfl
@[simp] theorem logPort_pendingOp (x : PortAccess) : (b.logPort x).pendingOp = b.pendingOp := rfl
@[simp] theorem logPort_acqd (x : PortAccess) : (b.logPort x).acqd = b.acqd := rfl
@[simp] theorem logPort_wkind (x : PortAccess) : (b.logPort x).wkind = b.wkind := rfl
@[simp] theorem logPort_inl (x : PortAccess) : (b.logPort x).inl = b.inl := rfl
@[simp] theorem logPort_hbase (x : PortAccess) : (b.logPort x).hbase = b.hbase := rfl
@[simp] theorem logPort_wn (x : PortAccess) : (b.logPort x).wn = b.wn := rfl
@[simp] theorem logPort_mem (x : PortAccess) : (b.logPort x).mem = b.mem := rfl
@[simp] theorem logPort_live (x : PortAccess) : (b.logPort x).live = b.live := rfl
@[simp] theorem logPort_released (x : PortAccess) : (b.logPort x).released = b.released := rfl
@[simp] theorem logPort_trace (x : PortAccess) : (b.logPort x).trace = b.trace := rfl
@[simp] theorem logPort_portLog (x : PortAccess) : (b.logPort x).portLog = b.portLog ++ [x] := rfl
@[simp] theorem logPort_agenda (x : PortAccess) : (b.logPort x).agenda = b.agenda := rfl
@[simp] theorem logPort_answers (x : PortAccess) : (b.logPort x).answers = b.answers := rfl
@[simp] theorem logPort_draws (x : PortAccess) : (b.logPort x).draws = b.draws := rfl
@[simp] theorem logPort_busData (x : PortAccess) : (b.logPort x).busData = b.busData := rfl
@[simp] theorem logPort_guarded (x : PortAccess) : (b.logPort x).guarded = b.guarded := rfl
@[simp] theorem logPort_decoded (x : PortAccess) : (b.logPort x).decoded = b.decoded := rfl

@[simp] theorem countDraw_params : b.countDraw.params = b.params := rfl
@[simp] theorem countDraw_phase : b.countDraw.phase = b.phase := rfl
@[simp] theorem countDraw_err : b.countDraw.err = b.err := rfl
@[simp] theorem countDraw_rform : b.countDraw.rform = b.rform := rfl
@[simp] theorem countDraw_rsign : b.countDraw.rsign = b.rsign := rfl
@[simp] theorem countDraw_xdesc : b.countDraw.xdesc = b.xdesc := rfl
@[simp] theorem countDraw_xsize : b.countDraw.xsize = b.xsize := rfl
@[simp] theorem countDraw_xbase : b.countDraw.xbase = b.xbase := rfl
@[simp] theorem countDraw_ximm : b.countDraw.ximm = b.ximm := rfl
@[simp] theorem countDraw_ndesc : b.countDraw.ndesc = b.ndesc := rfl
@[simp] theorem countDraw_nval : b.countDraw.nval = b.nval := rfl
@[simp] theorem countDraw_rval : b.countDraw.rval = b.rval := rfl
@[simp] theorem countDraw_rsize : b.countDraw.rsize = b.rsize := rfl
@[simp] theorem countDraw_rsel : b.countDraw.rsel = b.rsel := rfl
@[simp] theorem countDraw_pendingOp : b.countDraw.pendingOp = b.pendingOp := rfl
@[simp] theorem countDraw_acqd : b.countDraw.acqd = b.acqd := rfl
@[simp] theorem countDraw_wkind : b.countDraw.wkind = b.wkind := rfl
@[simp] theorem countDraw_inl : b.countDraw.inl = b.inl := rfl
@[simp] theorem countDraw_hbase : b.countDraw.hbase = b.hbase := rfl
@[simp] theorem countDraw_wn : b.countDraw.wn = b.wn := rfl
@[simp] theorem countDraw_mem : b.countDraw.mem = b.mem := rfl
@[simp] theorem countDraw_live : b.countDraw.live = b.live := rfl
@[simp] theorem countDraw_released : b.countDraw.released = b.released := rfl
@[simp] theorem countDraw_trace : b.countDraw.trace = b.trace := rfl
@[simp] theorem countDraw_portLog : b.countDraw.portLog = b.portLog := rfl
@[simp] theorem countDraw_agenda : b.countDraw.agenda = b.agenda := rfl
@[simp] theorem countDraw_answers : b.countDraw.answers = b.answers := rfl
@[simp] theorem countDraw_draws : b.countDraw.draws = b.draws + 1 := rfl
@[simp] theorem countDraw_busData : b.countDraw.busData = b.busData := rfl
@[simp] theorem countDraw_guarded : b.countDraw.guarded = b.guarded := rfl
@[simp] theorem countDraw_decoded : b.countDraw.decoded = b.decoded := rfl

@[simp] theorem putDigit_params (a : Nat) (v : Word W) : (b.putDigit a v).params = b.params := rfl
@[simp] theorem putDigit_phase (a : Nat) (v : Word W) : (b.putDigit a v).phase = b.phase := rfl
@[simp] theorem putDigit_err (a : Nat) (v : Word W) : (b.putDigit a v).err = b.err := rfl
@[simp] theorem putDigit_rform (a : Nat) (v : Word W) : (b.putDigit a v).rform = b.rform := rfl
@[simp] theorem putDigit_rsign (a : Nat) (v : Word W) : (b.putDigit a v).rsign = b.rsign := rfl
@[simp] theorem putDigit_xdesc (a : Nat) (v : Word W) : (b.putDigit a v).xdesc = b.xdesc := rfl
@[simp] theorem putDigit_xsize (a : Nat) (v : Word W) : (b.putDigit a v).xsize = b.xsize := rfl
@[simp] theorem putDigit_xbase (a : Nat) (v : Word W) : (b.putDigit a v).xbase = b.xbase := rfl
@[simp] theorem putDigit_ximm (a : Nat) (v : Word W) : (b.putDigit a v).ximm = b.ximm := rfl
@[simp] theorem putDigit_ndesc (a : Nat) (v : Word W) : (b.putDigit a v).ndesc = b.ndesc := rfl
@[simp] theorem putDigit_nval (a : Nat) (v : Word W) : (b.putDigit a v).nval = b.nval := rfl
@[simp] theorem putDigit_rval (a : Nat) (v : Word W) : (b.putDigit a v).rval = b.rval := rfl
@[simp] theorem putDigit_rsize (a : Nat) (v : Word W) : (b.putDigit a v).rsize = b.rsize := rfl
@[simp] theorem putDigit_rsel (a : Nat) (v : Word W) : (b.putDigit a v).rsel = b.rsel := rfl
@[simp] theorem putDigit_pendingOp (a : Nat) (v : Word W) : (b.putDigit a v).pendingOp = b.pendingOp := rfl
@[simp] theorem putDigit_acqd (a : Nat) (v : Word W) : (b.putDigit a v).acqd = b.acqd := rfl
@[simp] theorem putDigit_wkind (a : Nat) (v : Word W) : (b.putDigit a v).wkind = b.wkind := rfl
@[simp] theorem putDigit_inl (a : Nat) (v : Word W) : (b.putDigit a v).inl = b.inl := rfl
@[simp] theorem putDigit_hbase (a : Nat) (v : Word W) : (b.putDigit a v).hbase = b.hbase := rfl
@[simp] theorem putDigit_wn (a : Nat) (v : Word W) : (b.putDigit a v).wn = b.wn := rfl
@[simp] theorem putDigit_mem (a : Nat) (v : Word W) : (b.putDigit a v).mem = writeDigit W b.params.byteOrder b.mem a v := rfl
@[simp] theorem putDigit_live (a : Nat) (v : Word W) : (b.putDigit a v).live = b.live := rfl
@[simp] theorem putDigit_released (a : Nat) (v : Word W) : (b.putDigit a v).released = b.released.filter (· != a) := rfl
@[simp] theorem putDigit_trace (a : Nat) (v : Word W) : (b.putDigit a v).trace = b.trace := rfl
@[simp] theorem putDigit_portLog (a : Nat) (v : Word W) : (b.putDigit a v).portLog = b.portLog := rfl
@[simp] theorem putDigit_agenda (a : Nat) (v : Word W) : (b.putDigit a v).agenda = b.agenda := rfl
@[simp] theorem putDigit_answers (a : Nat) (v : Word W) : (b.putDigit a v).answers = b.answers := rfl
@[simp] theorem putDigit_draws (a : Nat) (v : Word W) : (b.putDigit a v).draws = b.draws := rfl
@[simp] theorem putDigit_busData (a : Nat) (v : Word W) : (b.putDigit a v).busData = b.busData := rfl
@[simp] theorem putDigit_guarded (a : Nat) (v : Word W) : (b.putDigit a v).guarded = b.guarded := rfl
@[simp] theorem putDigit_decoded (a : Nat) (v : Word W) : (b.putDigit a v).decoded = b.decoded := rfl

@[simp] theorem setAcqd_params (v : Word W) : (b.setAcqd v).params = b.params := rfl
@[simp] theorem setAcqd_phase (v : Word W) : (b.setAcqd v).phase = b.phase := rfl
@[simp] theorem setAcqd_err (v : Word W) : (b.setAcqd v).err = b.err := rfl
@[simp] theorem setAcqd_rform (v : Word W) : (b.setAcqd v).rform = b.rform := rfl
@[simp] theorem setAcqd_rsign (v : Word W) : (b.setAcqd v).rsign = b.rsign := rfl
@[simp] theorem setAcqd_xdesc (v : Word W) : (b.setAcqd v).xdesc = b.xdesc := rfl
@[simp] theorem setAcqd_xsize (v : Word W) : (b.setAcqd v).xsize = b.xsize := rfl
@[simp] theorem setAcqd_xbase (v : Word W) : (b.setAcqd v).xbase = b.xbase := rfl
@[simp] theorem setAcqd_ximm (v : Word W) : (b.setAcqd v).ximm = b.ximm := rfl
@[simp] theorem setAcqd_ndesc (v : Word W) : (b.setAcqd v).ndesc = b.ndesc := rfl
@[simp] theorem setAcqd_nval (v : Word W) : (b.setAcqd v).nval = b.nval := rfl
@[simp] theorem setAcqd_rval (v : Word W) : (b.setAcqd v).rval = b.rval := rfl
@[simp] theorem setAcqd_rsize (v : Word W) : (b.setAcqd v).rsize = b.rsize := rfl
@[simp] theorem setAcqd_rsel (v : Word W) : (b.setAcqd v).rsel = b.rsel := rfl
@[simp] theorem setAcqd_pendingOp (v : Word W) : (b.setAcqd v).pendingOp = b.pendingOp := rfl
@[simp] theorem setAcqd_acqd (v : Word W) : (b.setAcqd v).acqd = v := rfl
@[simp] theorem setAcqd_wkind (v : Word W) : (b.setAcqd v).wkind = b.wkind := rfl
@[simp] theorem setAcqd_inl (v : Word W) : (b.setAcqd v).inl = b.inl := rfl
@[simp] theorem setAcqd_hbase (v : Word W) : (b.setAcqd v).hbase = b.hbase := rfl
@[simp] theorem setAcqd_wn (v : Word W) : (b.setAcqd v).wn = b.wn := rfl
@[simp] theorem setAcqd_mem (v : Word W) : (b.setAcqd v).mem = b.mem := rfl
@[simp] theorem setAcqd_live (v : Word W) : (b.setAcqd v).live = b.live := rfl
@[simp] theorem setAcqd_released (v : Word W) : (b.setAcqd v).released = b.released := rfl
@[simp] theorem setAcqd_trace (v : Word W) : (b.setAcqd v).trace = b.trace := rfl
@[simp] theorem setAcqd_portLog (v : Word W) : (b.setAcqd v).portLog = b.portLog := rfl
@[simp] theorem setAcqd_agenda (v : Word W) : (b.setAcqd v).agenda = b.agenda := rfl
@[simp] theorem setAcqd_answers (v : Word W) : (b.setAcqd v).answers = b.answers := rfl
@[simp] theorem setAcqd_draws (v : Word W) : (b.setAcqd v).draws = b.draws := rfl
@[simp] theorem setAcqd_busData (v : Word W) : (b.setAcqd v).busData = b.busData := rfl
@[simp] theorem setAcqd_guarded (v : Word W) : (b.setAcqd v).guarded = b.guarded := rfl
@[simp] theorem setAcqd_decoded (v : Word W) : (b.setAcqd v).decoded = b.decoded := rfl

@[simp] theorem record_params (e : AllocEvent W) : (b.record e).params = b.params := rfl
@[simp] theorem record_phase (e : AllocEvent W) : (b.record e).phase = b.phase := rfl
@[simp] theorem record_err (e : AllocEvent W) : (b.record e).err = b.err := rfl
@[simp] theorem record_rform (e : AllocEvent W) : (b.record e).rform = b.rform := rfl
@[simp] theorem record_rsign (e : AllocEvent W) : (b.record e).rsign = b.rsign := rfl
@[simp] theorem record_xdesc (e : AllocEvent W) : (b.record e).xdesc = b.xdesc := rfl
@[simp] theorem record_xsize (e : AllocEvent W) : (b.record e).xsize = b.xsize := rfl
@[simp] theorem record_xbase (e : AllocEvent W) : (b.record e).xbase = b.xbase := rfl
@[simp] theorem record_ximm (e : AllocEvent W) : (b.record e).ximm = b.ximm := rfl
@[simp] theorem record_ndesc (e : AllocEvent W) : (b.record e).ndesc = b.ndesc := rfl
@[simp] theorem record_nval (e : AllocEvent W) : (b.record e).nval = b.nval := rfl
@[simp] theorem record_rval (e : AllocEvent W) : (b.record e).rval = b.rval := rfl
@[simp] theorem record_rsize (e : AllocEvent W) : (b.record e).rsize = b.rsize := rfl
@[simp] theorem record_rsel (e : AllocEvent W) : (b.record e).rsel = b.rsel := rfl
@[simp] theorem record_pendingOp (e : AllocEvent W) : (b.record e).pendingOp = b.pendingOp := rfl
@[simp] theorem record_acqd (e : AllocEvent W) : (b.record e).acqd = b.acqd := rfl
@[simp] theorem record_wkind (e : AllocEvent W) : (b.record e).wkind = b.wkind := rfl
@[simp] theorem record_inl (e : AllocEvent W) : (b.record e).inl = b.inl := rfl
@[simp] theorem record_hbase (e : AllocEvent W) : (b.record e).hbase = b.hbase := rfl
@[simp] theorem record_wn (e : AllocEvent W) : (b.record e).wn = b.wn := rfl
@[simp] theorem record_mem (e : AllocEvent W) : (b.record e).mem = b.mem := rfl
@[simp] theorem record_live (e : AllocEvent W) : (b.record e).live = b.live := rfl
@[simp] theorem record_released (e : AllocEvent W) : (b.record e).released = b.released := rfl
@[simp] theorem record_trace (e : AllocEvent W) : (b.record e).trace = b.trace ++ [e] := rfl
@[simp] theorem record_portLog (e : AllocEvent W) : (b.record e).portLog = b.portLog := rfl
@[simp] theorem record_agenda (e : AllocEvent W) : (b.record e).agenda = b.agenda := rfl
@[simp] theorem record_answers (e : AllocEvent W) : (b.record e).answers = b.answers := rfl
@[simp] theorem record_draws (e : AllocEvent W) : (b.record e).draws = b.draws := rfl
@[simp] theorem record_busData (e : AllocEvent W) : (b.record e).busData = b.busData := rfl
@[simp] theorem record_guarded (e : AllocEvent W) : (b.record e).guarded = b.guarded := rfl
@[simp] theorem record_decoded (e : AllocEvent W) : (b.record e).decoded = b.decoded := rfl

@[simp] theorem addLive_params (r : Region) : (b.addLive r).params = b.params := rfl
@[simp] theorem addLive_phase (r : Region) : (b.addLive r).phase = b.phase := rfl
@[simp] theorem addLive_err (r : Region) : (b.addLive r).err = b.err := rfl
@[simp] theorem addLive_rform (r : Region) : (b.addLive r).rform = b.rform := rfl
@[simp] theorem addLive_rsign (r : Region) : (b.addLive r).rsign = b.rsign := rfl
@[simp] theorem addLive_xdesc (r : Region) : (b.addLive r).xdesc = b.xdesc := rfl
@[simp] theorem addLive_xsize (r : Region) : (b.addLive r).xsize = b.xsize := rfl
@[simp] theorem addLive_xbase (r : Region) : (b.addLive r).xbase = b.xbase := rfl
@[simp] theorem addLive_ximm (r : Region) : (b.addLive r).ximm = b.ximm := rfl
@[simp] theorem addLive_ndesc (r : Region) : (b.addLive r).ndesc = b.ndesc := rfl
@[simp] theorem addLive_nval (r : Region) : (b.addLive r).nval = b.nval := rfl
@[simp] theorem addLive_rval (r : Region) : (b.addLive r).rval = b.rval := rfl
@[simp] theorem addLive_rsize (r : Region) : (b.addLive r).rsize = b.rsize := rfl
@[simp] theorem addLive_rsel (r : Region) : (b.addLive r).rsel = b.rsel := rfl
@[simp] theorem addLive_pendingOp (r : Region) : (b.addLive r).pendingOp = b.pendingOp := rfl
@[simp] theorem addLive_acqd (r : Region) : (b.addLive r).acqd = b.acqd := rfl
@[simp] theorem addLive_wkind (r : Region) : (b.addLive r).wkind = b.wkind := rfl
@[simp] theorem addLive_inl (r : Region) : (b.addLive r).inl = b.inl := rfl
@[simp] theorem addLive_hbase (r : Region) : (b.addLive r).hbase = b.hbase := rfl
@[simp] theorem addLive_wn (r : Region) : (b.addLive r).wn = b.wn := rfl
@[simp] theorem addLive_mem (r : Region) : (b.addLive r).mem = b.mem := rfl
@[simp] theorem addLive_live (r : Region) : (b.addLive r).live = r :: b.live := rfl
@[simp] theorem addLive_released (r : Region) : (b.addLive r).released = b.released := rfl
@[simp] theorem addLive_trace (r : Region) : (b.addLive r).trace = b.trace := rfl
@[simp] theorem addLive_portLog (r : Region) : (b.addLive r).portLog = b.portLog := rfl
@[simp] theorem addLive_agenda (r : Region) : (b.addLive r).agenda = b.agenda := rfl
@[simp] theorem addLive_answers (r : Region) : (b.addLive r).answers = b.answers := rfl
@[simp] theorem addLive_draws (r : Region) : (b.addLive r).draws = b.draws := rfl
@[simp] theorem addLive_busData (r : Region) : (b.addLive r).busData = b.busData := rfl
@[simp] theorem addLive_guarded (r : Region) : (b.addLive r).guarded = b.guarded := rfl
@[simp] theorem addLive_decoded (r : Region) : (b.addLive r).decoded = b.decoded := rfl

@[simp] theorem giveBack_params (r : Region) : (b.giveBack r).params = b.params := rfl
@[simp] theorem giveBack_phase (r : Region) : (b.giveBack r).phase = b.phase := rfl
@[simp] theorem giveBack_err (r : Region) : (b.giveBack r).err = b.err := rfl
@[simp] theorem giveBack_rform (r : Region) : (b.giveBack r).rform = b.rform := rfl
@[simp] theorem giveBack_rsign (r : Region) : (b.giveBack r).rsign = b.rsign := rfl
@[simp] theorem giveBack_xdesc (r : Region) : (b.giveBack r).xdesc = b.xdesc := rfl
@[simp] theorem giveBack_xsize (r : Region) : (b.giveBack r).xsize = b.xsize := rfl
@[simp] theorem giveBack_xbase (r : Region) : (b.giveBack r).xbase = b.xbase := rfl
@[simp] theorem giveBack_ximm (r : Region) : (b.giveBack r).ximm = b.ximm := rfl
@[simp] theorem giveBack_ndesc (r : Region) : (b.giveBack r).ndesc = b.ndesc := rfl
@[simp] theorem giveBack_nval (r : Region) : (b.giveBack r).nval = b.nval := rfl
@[simp] theorem giveBack_rval (r : Region) : (b.giveBack r).rval = b.rval := rfl
@[simp] theorem giveBack_rsize (r : Region) : (b.giveBack r).rsize = b.rsize := rfl
@[simp] theorem giveBack_rsel (r : Region) : (b.giveBack r).rsel = b.rsel := rfl
@[simp] theorem giveBack_pendingOp (r : Region) : (b.giveBack r).pendingOp = b.pendingOp := rfl
@[simp] theorem giveBack_acqd (r : Region) : (b.giveBack r).acqd = b.acqd := rfl
@[simp] theorem giveBack_wkind (r : Region) : (b.giveBack r).wkind = b.wkind := rfl
@[simp] theorem giveBack_inl (r : Region) : (b.giveBack r).inl = b.inl := rfl
@[simp] theorem giveBack_hbase (r : Region) : (b.giveBack r).hbase = b.hbase := rfl
@[simp] theorem giveBack_wn (r : Region) : (b.giveBack r).wn = b.wn := rfl
@[simp] theorem giveBack_mem (r : Region) : (b.giveBack r).mem = b.mem := rfl
@[simp] theorem giveBack_live (r : Region) : (b.giveBack r).live = b.live.filter (· != r) := rfl
@[simp] theorem giveBack_released (r : Region) : (b.giveBack r).released = List.range' r.base r.len ++ b.released.filter (fun a => !r.has a) := rfl
@[simp] theorem giveBack_trace (r : Region) : (b.giveBack r).trace = b.trace := rfl
@[simp] theorem giveBack_portLog (r : Region) : (b.giveBack r).portLog = b.portLog := rfl
@[simp] theorem giveBack_agenda (r : Region) : (b.giveBack r).agenda = b.agenda := rfl
@[simp] theorem giveBack_answers (r : Region) : (b.giveBack r).answers = b.answers := rfl
@[simp] theorem giveBack_draws (r : Region) : (b.giveBack r).draws = b.draws := rfl
@[simp] theorem giveBack_busData (r : Region) : (b.giveBack r).busData = b.busData := rfl
@[simp] theorem giveBack_guarded (r : Region) : (b.giveBack r).guarded = b.guarded := rfl
@[simp] theorem giveBack_decoded (r : Region) : (b.giveBack r).decoded = b.decoded := rfl

@[simp] theorem setWork_params (k : WKind) (base : Word W) (n : Nat) : (b.setWork k base n).params = b.params := rfl
@[simp] theorem setWork_phase (k : WKind) (base : Word W) (n : Nat) : (b.setWork k base n).phase = b.phase := rfl
@[simp] theorem setWork_err (k : WKind) (base : Word W) (n : Nat) : (b.setWork k base n).err = b.err := rfl
@[simp] theorem setWork_rform (k : WKind) (base : Word W) (n : Nat) : (b.setWork k base n).rform = b.rform := rfl
@[simp] theorem setWork_rsign (k : WKind) (base : Word W) (n : Nat) : (b.setWork k base n).rsign = b.rsign := rfl
@[simp] theorem setWork_xdesc (k : WKind) (base : Word W) (n : Nat) : (b.setWork k base n).xdesc = b.xdesc := rfl
@[simp] theorem setWork_xsize (k : WKind) (base : Word W) (n : Nat) : (b.setWork k base n).xsize = b.xsize := rfl
@[simp] theorem setWork_xbase (k : WKind) (base : Word W) (n : Nat) : (b.setWork k base n).xbase = b.xbase := rfl
@[simp] theorem setWork_ximm (k : WKind) (base : Word W) (n : Nat) : (b.setWork k base n).ximm = b.ximm := rfl
@[simp] theorem setWork_ndesc (k : WKind) (base : Word W) (n : Nat) : (b.setWork k base n).ndesc = b.ndesc := rfl
@[simp] theorem setWork_nval (k : WKind) (base : Word W) (n : Nat) : (b.setWork k base n).nval = b.nval := rfl
@[simp] theorem setWork_rval (k : WKind) (base : Word W) (n : Nat) : (b.setWork k base n).rval = b.rval := rfl
@[simp] theorem setWork_rsize (k : WKind) (base : Word W) (n : Nat) : (b.setWork k base n).rsize = b.rsize := rfl
@[simp] theorem setWork_rsel (k : WKind) (base : Word W) (n : Nat) : (b.setWork k base n).rsel = b.rsel := rfl
@[simp] theorem setWork_pendingOp (k : WKind) (base : Word W) (n : Nat) : (b.setWork k base n).pendingOp = b.pendingOp := rfl
@[simp] theorem setWork_acqd (k : WKind) (base : Word W) (n : Nat) : (b.setWork k base n).acqd = b.acqd := rfl
@[simp] theorem setWork_wkind (k : WKind) (base : Word W) (n : Nat) : (b.setWork k base n).wkind = k := rfl
@[simp] theorem setWork_inl (k : WKind) (base : Word W) (n : Nat) : (b.setWork k base n).inl = b.inl := rfl
@[simp] theorem setWork_hbase (k : WKind) (base : Word W) (n : Nat) : (b.setWork k base n).hbase = base := rfl
@[simp] theorem setWork_wn (k : WKind) (base : Word W) (n : Nat) : (b.setWork k base n).wn = n := rfl
@[simp] theorem setWork_mem (k : WKind) (base : Word W) (n : Nat) : (b.setWork k base n).mem = b.mem := rfl
@[simp] theorem setWork_live (k : WKind) (base : Word W) (n : Nat) : (b.setWork k base n).live = b.live := rfl
@[simp] theorem setWork_released (k : WKind) (base : Word W) (n : Nat) : (b.setWork k base n).released = b.released := rfl
@[simp] theorem setWork_trace (k : WKind) (base : Word W) (n : Nat) : (b.setWork k base n).trace = b.trace := rfl
@[simp] theorem setWork_portLog (k : WKind) (base : Word W) (n : Nat) : (b.setWork k base n).portLog = b.portLog := rfl
@[simp] theorem setWork_agenda (k : WKind) (base : Word W) (n : Nat) : (b.setWork k base n).agenda = b.agenda := rfl
@[simp] theorem setWork_answers (k : WKind) (base : Word W) (n : Nat) : (b.setWork k base n).answers = b.answers := rfl
@[simp] theorem setWork_draws (k : WKind) (base : Word W) (n : Nat) : (b.setWork k base n).draws = b.draws := rfl
@[simp] theorem setWork_busData (k : WKind) (base : Word W) (n : Nat) : (b.setWork k base n).busData = b.busData := rfl
@[simp] theorem setWork_guarded (k : WKind) (base : Word W) (n : Nat) : (b.setWork k base n).guarded = b.guarded := rfl
@[simp] theorem setWork_decoded (k : WKind) (base : Word W) (n : Nat) : (b.setWork k base n).decoded = b.decoded := rfl

@[simp] theorem setInl_params (i : Nat) (v : Word W) : (b.setInl i v).params = b.params := rfl
@[simp] theorem setInl_phase (i : Nat) (v : Word W) : (b.setInl i v).phase = b.phase := rfl
@[simp] theorem setInl_err (i : Nat) (v : Word W) : (b.setInl i v).err = b.err := rfl
@[simp] theorem setInl_rform (i : Nat) (v : Word W) : (b.setInl i v).rform = b.rform := rfl
@[simp] theorem setInl_rsign (i : Nat) (v : Word W) : (b.setInl i v).rsign = b.rsign := rfl
@[simp] theorem setInl_xdesc (i : Nat) (v : Word W) : (b.setInl i v).xdesc = b.xdesc := rfl
@[simp] theorem setInl_xsize (i : Nat) (v : Word W) : (b.setInl i v).xsize = b.xsize := rfl
@[simp] theorem setInl_xbase (i : Nat) (v : Word W) : (b.setInl i v).xbase = b.xbase := rfl
@[simp] theorem setInl_ximm (i : Nat) (v : Word W) : (b.setInl i v).ximm = b.ximm := rfl
@[simp] theorem setInl_ndesc (i : Nat) (v : Word W) : (b.setInl i v).ndesc = b.ndesc := rfl
@[simp] theorem setInl_nval (i : Nat) (v : Word W) : (b.setInl i v).nval = b.nval := rfl
@[simp] theorem setInl_rval (i : Nat) (v : Word W) : (b.setInl i v).rval = b.rval := rfl
@[simp] theorem setInl_rsize (i : Nat) (v : Word W) : (b.setInl i v).rsize = b.rsize := rfl
@[simp] theorem setInl_rsel (i : Nat) (v : Word W) : (b.setInl i v).rsel = b.rsel := rfl
@[simp] theorem setInl_pendingOp (i : Nat) (v : Word W) : (b.setInl i v).pendingOp = b.pendingOp := rfl
@[simp] theorem setInl_acqd (i : Nat) (v : Word W) : (b.setInl i v).acqd = b.acqd := rfl
@[simp] theorem setInl_wkind (i : Nat) (v : Word W) : (b.setInl i v).wkind = b.wkind := rfl
@[simp] theorem setInl_inl (i : Nat) (v : Word W) : (b.setInl i v).inl = b.inl.setIfInBounds i v := rfl
@[simp] theorem setInl_hbase (i : Nat) (v : Word W) : (b.setInl i v).hbase = b.hbase := rfl
@[simp] theorem setInl_wn (i : Nat) (v : Word W) : (b.setInl i v).wn = b.wn := rfl
@[simp] theorem setInl_mem (i : Nat) (v : Word W) : (b.setInl i v).mem = b.mem := rfl
@[simp] theorem setInl_live (i : Nat) (v : Word W) : (b.setInl i v).live = b.live := rfl
@[simp] theorem setInl_released (i : Nat) (v : Word W) : (b.setInl i v).released = b.released := rfl
@[simp] theorem setInl_trace (i : Nat) (v : Word W) : (b.setInl i v).trace = b.trace := rfl
@[simp] theorem setInl_portLog (i : Nat) (v : Word W) : (b.setInl i v).portLog = b.portLog := rfl
@[simp] theorem setInl_agenda (i : Nat) (v : Word W) : (b.setInl i v).agenda = b.agenda := rfl
@[simp] theorem setInl_answers (i : Nat) (v : Word W) : (b.setInl i v).answers = b.answers := rfl
@[simp] theorem setInl_draws (i : Nat) (v : Word W) : (b.setInl i v).draws = b.draws := rfl
@[simp] theorem setInl_busData (i : Nat) (v : Word W) : (b.setInl i v).busData = b.busData := rfl
@[simp] theorem setInl_guarded (i : Nat) (v : Word W) : (b.setInl i v).guarded = b.guarded := rfl
@[simp] theorem setInl_decoded (i : Nat) (v : Word W) : (b.setInl i v).decoded = b.decoded := rfl

@[simp] theorem setResult_params (f : RForm) (s : Bool) (v z : Word W) : (b.setResult f s v z).params = b.params := rfl
@[simp] theorem setResult_phase (f : RForm) (s : Bool) (v z : Word W) : (b.setResult f s v z).phase = b.phase := rfl
@[simp] theorem setResult_err (f : RForm) (s : Bool) (v z : Word W) : (b.setResult f s v z).err = b.err := rfl
@[simp] theorem setResult_rform (f : RForm) (s : Bool) (v z : Word W) : (b.setResult f s v z).rform = f := rfl
@[simp] theorem setResult_rsign (f : RForm) (s : Bool) (v z : Word W) : (b.setResult f s v z).rsign = s := rfl
@[simp] theorem setResult_xdesc (f : RForm) (s : Bool) (v z : Word W) : (b.setResult f s v z).xdesc = b.xdesc := rfl
@[simp] theorem setResult_xsize (f : RForm) (s : Bool) (v z : Word W) : (b.setResult f s v z).xsize = b.xsize := rfl
@[simp] theorem setResult_xbase (f : RForm) (s : Bool) (v z : Word W) : (b.setResult f s v z).xbase = b.xbase := rfl
@[simp] theorem setResult_ximm (f : RForm) (s : Bool) (v z : Word W) : (b.setResult f s v z).ximm = b.ximm := rfl
@[simp] theorem setResult_ndesc (f : RForm) (s : Bool) (v z : Word W) : (b.setResult f s v z).ndesc = b.ndesc := rfl
@[simp] theorem setResult_nval (f : RForm) (s : Bool) (v z : Word W) : (b.setResult f s v z).nval = b.nval := rfl
@[simp] theorem setResult_rval (f : RForm) (s : Bool) (v z : Word W) : (b.setResult f s v z).rval = v := rfl
@[simp] theorem setResult_rsize (f : RForm) (s : Bool) (v z : Word W) : (b.setResult f s v z).rsize = z := rfl
@[simp] theorem setResult_rsel (f : RForm) (s : Bool) (v z : Word W) : (b.setResult f s v z).rsel = b.rsel := rfl
@[simp] theorem setResult_pendingOp (f : RForm) (s : Bool) (v z : Word W) : (b.setResult f s v z).pendingOp = b.pendingOp := rfl
@[simp] theorem setResult_acqd (f : RForm) (s : Bool) (v z : Word W) : (b.setResult f s v z).acqd = b.acqd := rfl
@[simp] theorem setResult_wkind (f : RForm) (s : Bool) (v z : Word W) : (b.setResult f s v z).wkind = b.wkind := rfl
@[simp] theorem setResult_inl (f : RForm) (s : Bool) (v z : Word W) : (b.setResult f s v z).inl = b.inl := rfl
@[simp] theorem setResult_hbase (f : RForm) (s : Bool) (v z : Word W) : (b.setResult f s v z).hbase = b.hbase := rfl
@[simp] theorem setResult_wn (f : RForm) (s : Bool) (v z : Word W) : (b.setResult f s v z).wn = b.wn := rfl
@[simp] theorem setResult_mem (f : RForm) (s : Bool) (v z : Word W) : (b.setResult f s v z).mem = b.mem := rfl
@[simp] theorem setResult_live (f : RForm) (s : Bool) (v z : Word W) : (b.setResult f s v z).live = b.live := rfl
@[simp] theorem setResult_released (f : RForm) (s : Bool) (v z : Word W) : (b.setResult f s v z).released = b.released := rfl
@[simp] theorem setResult_trace (f : RForm) (s : Bool) (v z : Word W) : (b.setResult f s v z).trace = b.trace := rfl
@[simp] theorem setResult_portLog (f : RForm) (s : Bool) (v z : Word W) : (b.setResult f s v z).portLog = b.portLog := rfl
@[simp] theorem setResult_agenda (f : RForm) (s : Bool) (v z : Word W) : (b.setResult f s v z).agenda = b.agenda := rfl
@[simp] theorem setResult_answers (f : RForm) (s : Bool) (v z : Word W) : (b.setResult f s v z).answers = b.answers := rfl
@[simp] theorem setResult_draws (f : RForm) (s : Bool) (v z : Word W) : (b.setResult f s v z).draws = b.draws := rfl
@[simp] theorem setResult_busData (f : RForm) (s : Bool) (v z : Word W) : (b.setResult f s v z).busData = b.busData := rfl
@[simp] theorem setResult_guarded (f : RForm) (s : Bool) (v z : Word W) : (b.setResult f s v z).guarded = b.guarded := rfl
@[simp] theorem setResult_decoded (f : RForm) (s : Bool) (v z : Word W) : (b.setResult f s v z).decoded = b.decoded := rfl

@[simp] theorem setErr_params (e : ErrCode) : (b.setErr e).params = b.params := rfl
@[simp] theorem setErr_phase (e : ErrCode) : (b.setErr e).phase = b.phase := rfl
@[simp] theorem setErr_err (e : ErrCode) : (b.setErr e).err = e := rfl
@[simp] theorem setErr_rform (e : ErrCode) : (b.setErr e).rform = b.rform := rfl
@[simp] theorem setErr_rsign (e : ErrCode) : (b.setErr e).rsign = b.rsign := rfl
@[simp] theorem setErr_xdesc (e : ErrCode) : (b.setErr e).xdesc = b.xdesc := rfl
@[simp] theorem setErr_xsize (e : ErrCode) : (b.setErr e).xsize = b.xsize := rfl
@[simp] theorem setErr_xbase (e : ErrCode) : (b.setErr e).xbase = b.xbase := rfl
@[simp] theorem setErr_ximm (e : ErrCode) : (b.setErr e).ximm = b.ximm := rfl
@[simp] theorem setErr_ndesc (e : ErrCode) : (b.setErr e).ndesc = b.ndesc := rfl
@[simp] theorem setErr_nval (e : ErrCode) : (b.setErr e).nval = b.nval := rfl
@[simp] theorem setErr_rval (e : ErrCode) : (b.setErr e).rval = b.rval := rfl
@[simp] theorem setErr_rsize (e : ErrCode) : (b.setErr e).rsize = b.rsize := rfl
@[simp] theorem setErr_rsel (e : ErrCode) : (b.setErr e).rsel = b.rsel := rfl
@[simp] theorem setErr_pendingOp (e : ErrCode) : (b.setErr e).pendingOp = b.pendingOp := rfl
@[simp] theorem setErr_acqd (e : ErrCode) : (b.setErr e).acqd = b.acqd := rfl
@[simp] theorem setErr_wkind (e : ErrCode) : (b.setErr e).wkind = b.wkind := rfl
@[simp] theorem setErr_inl (e : ErrCode) : (b.setErr e).inl = b.inl := rfl
@[simp] theorem setErr_hbase (e : ErrCode) : (b.setErr e).hbase = b.hbase := rfl
@[simp] theorem setErr_wn (e : ErrCode) : (b.setErr e).wn = b.wn := rfl
@[simp] theorem setErr_mem (e : ErrCode) : (b.setErr e).mem = b.mem := rfl
@[simp] theorem setErr_live (e : ErrCode) : (b.setErr e).live = b.live := rfl
@[simp] theorem setErr_released (e : ErrCode) : (b.setErr e).released = b.released := rfl
@[simp] theorem setErr_trace (e : ErrCode) : (b.setErr e).trace = b.trace := rfl
@[simp] theorem setErr_portLog (e : ErrCode) : (b.setErr e).portLog = b.portLog := rfl
@[simp] theorem setErr_agenda (e : ErrCode) : (b.setErr e).agenda = b.agenda := rfl
@[simp] theorem setErr_answers (e : ErrCode) : (b.setErr e).answers = b.answers := rfl
@[simp] theorem setErr_draws (e : ErrCode) : (b.setErr e).draws = b.draws := rfl
@[simp] theorem setErr_busData (e : ErrCode) : (b.setErr e).busData = b.busData := rfl
@[simp] theorem setErr_guarded (e : ErrCode) : (b.setErr e).guarded = b.guarded := rfl
@[simp] theorem setErr_decoded (e : ErrCode) : (b.setErr e).decoded = b.decoded := rfl

@[simp] theorem setPhase_params (p : Phase) : (b.setPhase p).params = b.params := rfl
@[simp] theorem setPhase_phase (p : Phase) : (b.setPhase p).phase = p := rfl
@[simp] theorem setPhase_err (p : Phase) : (b.setPhase p).err = b.err := rfl
@[simp] theorem setPhase_rform (p : Phase) : (b.setPhase p).rform = b.rform := rfl
@[simp] theorem setPhase_rsign (p : Phase) : (b.setPhase p).rsign = b.rsign := rfl
@[simp] theorem setPhase_xdesc (p : Phase) : (b.setPhase p).xdesc = b.xdesc := rfl
@[simp] theorem setPhase_xsize (p : Phase) : (b.setPhase p).xsize = b.xsize := rfl
@[simp] theorem setPhase_xbase (p : Phase) : (b.setPhase p).xbase = b.xbase := rfl
@[simp] theorem setPhase_ximm (p : Phase) : (b.setPhase p).ximm = b.ximm := rfl
@[simp] theorem setPhase_ndesc (p : Phase) : (b.setPhase p).ndesc = b.ndesc := rfl
@[simp] theorem setPhase_nval (p : Phase) : (b.setPhase p).nval = b.nval := rfl
@[simp] theorem setPhase_rval (p : Phase) : (b.setPhase p).rval = b.rval := rfl
@[simp] theorem setPhase_rsize (p : Phase) : (b.setPhase p).rsize = b.rsize := rfl
@[simp] theorem setPhase_rsel (p : Phase) : (b.setPhase p).rsel = b.rsel := rfl
@[simp] theorem setPhase_pendingOp (p : Phase) : (b.setPhase p).pendingOp = b.pendingOp := rfl
@[simp] theorem setPhase_acqd (p : Phase) : (b.setPhase p).acqd = b.acqd := rfl
@[simp] theorem setPhase_wkind (p : Phase) : (b.setPhase p).wkind = b.wkind := rfl
@[simp] theorem setPhase_inl (p : Phase) : (b.setPhase p).inl = b.inl := rfl
@[simp] theorem setPhase_hbase (p : Phase) : (b.setPhase p).hbase = b.hbase := rfl
@[simp] theorem setPhase_wn (p : Phase) : (b.setPhase p).wn = b.wn := rfl
@[simp] theorem setPhase_mem (p : Phase) : (b.setPhase p).mem = b.mem := rfl
@[simp] theorem setPhase_live (p : Phase) : (b.setPhase p).live = b.live := rfl
@[simp] theorem setPhase_released (p : Phase) : (b.setPhase p).released = b.released := rfl
@[simp] theorem setPhase_trace (p : Phase) : (b.setPhase p).trace = b.trace := rfl
@[simp] theorem setPhase_portLog (p : Phase) : (b.setPhase p).portLog = b.portLog := rfl
@[simp] theorem setPhase_agenda (p : Phase) : (b.setPhase p).agenda = b.agenda := rfl
@[simp] theorem setPhase_answers (p : Phase) : (b.setPhase p).answers = b.answers := rfl
@[simp] theorem setPhase_draws (p : Phase) : (b.setPhase p).draws = b.draws := rfl
@[simp] theorem setPhase_busData (p : Phase) : (b.setPhase p).busData = b.busData := rfl
@[simp] theorem setPhase_guarded (p : Phase) : (b.setPhase p).guarded = b.guarded := rfl
@[simp] theorem setPhase_decoded (p : Phase) : (b.setPhase p).decoded = b.decoded := rfl

@[simp] theorem clearPortLog_params : b.clearPortLog.params = b.params := rfl
@[simp] theorem clearPortLog_phase : b.clearPortLog.phase = b.phase := rfl
@[simp] theorem clearPortLog_err : b.clearPortLog.err = b.err := rfl
@[simp] theorem clearPortLog_rform : b.clearPortLog.rform = b.rform := rfl
@[simp] theorem clearPortLog_rsign : b.clearPortLog.rsign = b.rsign := rfl
@[simp] theorem clearPortLog_xdesc : b.clearPortLog.xdesc = b.xdesc := rfl
@[simp] theorem clearPortLog_xsize : b.clearPortLog.xsize = b.xsize := rfl
@[simp] theorem clearPortLog_xbase : b.clearPortLog.xbase = b.xbase := rfl
@[simp] theorem clearPortLog_ximm : b.clearPortLog.ximm = b.ximm := rfl
@[simp] theorem clearPortLog_ndesc : b.clearPortLog.ndesc = b.ndesc := rfl
@[simp] theorem clearPortLog_nval : b.clearPortLog.nval = b.nval := rfl
@[simp] theorem clearPortLog_rval : b.clearPortLog.rval = b.rval := rfl
@[simp] theorem clearPortLog_rsize : b.clearPortLog.rsize = b.rsize := rfl
@[simp] theorem clearPortLog_rsel : b.clearPortLog.rsel = b.rsel := rfl
@[simp] theorem clearPortLog_pendingOp : b.clearPortLog.pendingOp = b.pendingOp := rfl
@[simp] theorem clearPortLog_acqd : b.clearPortLog.acqd = b.acqd := rfl
@[simp] theorem clearPortLog_wkind : b.clearPortLog.wkind = b.wkind := rfl
@[simp] theorem clearPortLog_inl : b.clearPortLog.inl = b.inl := rfl
@[simp] theorem clearPortLog_hbase : b.clearPortLog.hbase = b.hbase := rfl
@[simp] theorem clearPortLog_wn : b.clearPortLog.wn = b.wn := rfl
@[simp] theorem clearPortLog_mem : b.clearPortLog.mem = b.mem := rfl
@[simp] theorem clearPortLog_live : b.clearPortLog.live = b.live := rfl
@[simp] theorem clearPortLog_released : b.clearPortLog.released = b.released := rfl
@[simp] theorem clearPortLog_trace : b.clearPortLog.trace = b.trace := rfl
@[simp] theorem clearPortLog_portLog : b.clearPortLog.portLog = [] := rfl
@[simp] theorem clearPortLog_agenda : b.clearPortLog.agenda = b.agenda := rfl
@[simp] theorem clearPortLog_answers : b.clearPortLog.answers = b.answers := rfl
@[simp] theorem clearPortLog_draws : b.clearPortLog.draws = b.draws := rfl
@[simp] theorem clearPortLog_busData : b.clearPortLog.busData = b.busData := rfl
@[simp] theorem clearPortLog_guarded : b.clearPortLog.guarded = b.guarded := rfl
@[simp] theorem clearPortLog_decoded : b.clearPortLog.decoded = b.decoded := rfl

@[simp] theorem setAgenda_params (l : List (Move W)) : (b.setAgenda l).params = b.params := rfl
@[simp] theorem setAgenda_phase (l : List (Move W)) : (b.setAgenda l).phase = b.phase := rfl
@[simp] theorem setAgenda_err (l : List (Move W)) : (b.setAgenda l).err = b.err := rfl
@[simp] theorem setAgenda_rform (l : List (Move W)) : (b.setAgenda l).rform = b.rform := rfl
@[simp] theorem setAgenda_rsign (l : List (Move W)) : (b.setAgenda l).rsign = b.rsign := rfl
@[simp] theorem setAgenda_xdesc (l : List (Move W)) : (b.setAgenda l).xdesc = b.xdesc := rfl
@[simp] theorem setAgenda_xsize (l : List (Move W)) : (b.setAgenda l).xsize = b.xsize := rfl
@[simp] theorem setAgenda_xbase (l : List (Move W)) : (b.setAgenda l).xbase = b.xbase := rfl
@[simp] theorem setAgenda_ximm (l : List (Move W)) : (b.setAgenda l).ximm = b.ximm := rfl
@[simp] theorem setAgenda_ndesc (l : List (Move W)) : (b.setAgenda l).ndesc = b.ndesc := rfl
@[simp] theorem setAgenda_nval (l : List (Move W)) : (b.setAgenda l).nval = b.nval := rfl
@[simp] theorem setAgenda_rval (l : List (Move W)) : (b.setAgenda l).rval = b.rval := rfl
@[simp] theorem setAgenda_rsize (l : List (Move W)) : (b.setAgenda l).rsize = b.rsize := rfl
@[simp] theorem setAgenda_rsel (l : List (Move W)) : (b.setAgenda l).rsel = b.rsel := rfl
@[simp] theorem setAgenda_pendingOp (l : List (Move W)) : (b.setAgenda l).pendingOp = b.pendingOp := rfl
@[simp] theorem setAgenda_acqd (l : List (Move W)) : (b.setAgenda l).acqd = b.acqd := rfl
@[simp] theorem setAgenda_wkind (l : List (Move W)) : (b.setAgenda l).wkind = b.wkind := rfl
@[simp] theorem setAgenda_inl (l : List (Move W)) : (b.setAgenda l).inl = b.inl := rfl
@[simp] theorem setAgenda_hbase (l : List (Move W)) : (b.setAgenda l).hbase = b.hbase := rfl
@[simp] theorem setAgenda_wn (l : List (Move W)) : (b.setAgenda l).wn = b.wn := rfl
@[simp] theorem setAgenda_mem (l : List (Move W)) : (b.setAgenda l).mem = b.mem := rfl
@[simp] theorem setAgenda_live (l : List (Move W)) : (b.setAgenda l).live = b.live := rfl
@[simp] theorem setAgenda_released (l : List (Move W)) : (b.setAgenda l).released = b.released := rfl
@[simp] theorem setAgenda_trace (l : List (Move W)) : (b.setAgenda l).trace = b.trace := rfl
@[simp] theorem setAgenda_portLog (l : List (Move W)) : (b.setAgenda l).portLog = b.portLog := rfl
@[simp] theorem setAgenda_agenda (l : List (Move W)) : (b.setAgenda l).agenda = l := rfl
@[simp] theorem setAgenda_answers (l : List (Move W)) : (b.setAgenda l).answers = b.answers := rfl
@[simp] theorem setAgenda_draws (l : List (Move W)) : (b.setAgenda l).draws = b.draws := rfl
@[simp] theorem setAgenda_busData (l : List (Move W)) : (b.setAgenda l).busData = b.busData := rfl
@[simp] theorem setAgenda_guarded (l : List (Move W)) : (b.setAgenda l).guarded = b.guarded := rfl
@[simp] theorem setAgenda_decoded (l : List (Move W)) : (b.setAgenda l).decoded = b.decoded := rfl

@[simp] theorem setBusData_params (v : Word W) : (b.setBusData v).params = b.params := rfl
@[simp] theorem setBusData_phase (v : Word W) : (b.setBusData v).phase = b.phase := rfl
@[simp] theorem setBusData_err (v : Word W) : (b.setBusData v).err = b.err := rfl
@[simp] theorem setBusData_rform (v : Word W) : (b.setBusData v).rform = b.rform := rfl
@[simp] theorem setBusData_rsign (v : Word W) : (b.setBusData v).rsign = b.rsign := rfl
@[simp] theorem setBusData_xdesc (v : Word W) : (b.setBusData v).xdesc = b.xdesc := rfl
@[simp] theorem setBusData_xsize (v : Word W) : (b.setBusData v).xsize = b.xsize := rfl
@[simp] theorem setBusData_xbase (v : Word W) : (b.setBusData v).xbase = b.xbase := rfl
@[simp] theorem setBusData_ximm (v : Word W) : (b.setBusData v).ximm = b.ximm := rfl
@[simp] theorem setBusData_ndesc (v : Word W) : (b.setBusData v).ndesc = b.ndesc := rfl
@[simp] theorem setBusData_nval (v : Word W) : (b.setBusData v).nval = b.nval := rfl
@[simp] theorem setBusData_rval (v : Word W) : (b.setBusData v).rval = b.rval := rfl
@[simp] theorem setBusData_rsize (v : Word W) : (b.setBusData v).rsize = b.rsize := rfl
@[simp] theorem setBusData_rsel (v : Word W) : (b.setBusData v).rsel = b.rsel := rfl
@[simp] theorem setBusData_pendingOp (v : Word W) : (b.setBusData v).pendingOp = b.pendingOp := rfl
@[simp] theorem setBusData_acqd (v : Word W) : (b.setBusData v).acqd = b.acqd := rfl
@[simp] theorem setBusData_wkind (v : Word W) : (b.setBusData v).wkind = b.wkind := rfl
@[simp] theorem setBusData_inl (v : Word W) : (b.setBusData v).inl = b.inl := rfl
@[simp] theorem setBusData_hbase (v : Word W) : (b.setBusData v).hbase = b.hbase := rfl
@[simp] theorem setBusData_wn (v : Word W) : (b.setBusData v).wn = b.wn := rfl
@[simp] theorem setBusData_mem (v : Word W) : (b.setBusData v).mem = b.mem := rfl
@[simp] theorem setBusData_live (v : Word W) : (b.setBusData v).live = b.live := rfl
@[simp] theorem setBusData_released (v : Word W) : (b.setBusData v).released = b.released := rfl
@[simp] theorem setBusData_trace (v : Word W) : (b.setBusData v).trace = b.trace := rfl
@[simp] theorem setBusData_portLog (v : Word W) : (b.setBusData v).portLog = b.portLog := rfl
@[simp] theorem setBusData_agenda (v : Word W) : (b.setBusData v).agenda = b.agenda := rfl
@[simp] theorem setBusData_answers (v : Word W) : (b.setBusData v).answers = b.answers := rfl
@[simp] theorem setBusData_draws (v : Word W) : (b.setBusData v).draws = b.draws := rfl
@[simp] theorem setBusData_busData (v : Word W) : (b.setBusData v).busData = v := rfl
@[simp] theorem setBusData_guarded (v : Word W) : (b.setBusData v).guarded = b.guarded := rfl
@[simp] theorem setBusData_decoded (v : Word W) : (b.setBusData v).decoded = b.decoded := rfl

@[simp] theorem setGuarded_params (r : Option Region) : (b.setGuarded r).params = b.params := rfl
@[simp] theorem setGuarded_phase (r : Option Region) : (b.setGuarded r).phase = b.phase := rfl
@[simp] theorem setGuarded_err (r : Option Region) : (b.setGuarded r).err = b.err := rfl
@[simp] theorem setGuarded_rform (r : Option Region) : (b.setGuarded r).rform = b.rform := rfl
@[simp] theorem setGuarded_rsign (r : Option Region) : (b.setGuarded r).rsign = b.rsign := rfl
@[simp] theorem setGuarded_xdesc (r : Option Region) : (b.setGuarded r).xdesc = b.xdesc := rfl
@[simp] theorem setGuarded_xsize (r : Option Region) : (b.setGuarded r).xsize = b.xsize := rfl
@[simp] theorem setGuarded_xbase (r : Option Region) : (b.setGuarded r).xbase = b.xbase := rfl
@[simp] theorem setGuarded_ximm (r : Option Region) : (b.setGuarded r).ximm = b.ximm := rfl
@[simp] theorem setGuarded_ndesc (r : Option Region) : (b.setGuarded r).ndesc = b.ndesc := rfl
@[simp] theorem setGuarded_nval (r : Option Region) : (b.setGuarded r).nval = b.nval := rfl
@[simp] theorem setGuarded_rval (r : Option Region) : (b.setGuarded r).rval = b.rval := rfl
@[simp] theorem setGuarded_rsize (r : Option Region) : (b.setGuarded r).rsize = b.rsize := rfl
@[simp] theorem setGuarded_rsel (r : Option Region) : (b.setGuarded r).rsel = b.rsel := rfl
@[simp] theorem setGuarded_pendingOp (r : Option Region) : (b.setGuarded r).pendingOp = b.pendingOp := rfl
@[simp] theorem setGuarded_acqd (r : Option Region) : (b.setGuarded r).acqd = b.acqd := rfl
@[simp] theorem setGuarded_wkind (r : Option Region) : (b.setGuarded r).wkind = b.wkind := rfl
@[simp] theorem setGuarded_inl (r : Option Region) : (b.setGuarded r).inl = b.inl := rfl
@[simp] theorem setGuarded_hbase (r : Option Region) : (b.setGuarded r).hbase = b.hbase := rfl
@[simp] theorem setGuarded_wn (r : Option Region) : (b.setGuarded r).wn = b.wn := rfl
@[simp] theorem setGuarded_mem (r : Option Region) : (b.setGuarded r).mem = b.mem := rfl
@[simp] theorem setGuarded_live (r : Option Region) : (b.setGuarded r).live = b.live := rfl
@[simp] theorem setGuarded_released (r : Option Region) : (b.setGuarded r).released = b.released := rfl
@[simp] theorem setGuarded_trace (r : Option Region) : (b.setGuarded r).trace = b.trace := rfl
@[simp] theorem setGuarded_portLog (r : Option Region) : (b.setGuarded r).portLog = b.portLog := rfl
@[simp] theorem setGuarded_agenda (r : Option Region) : (b.setGuarded r).agenda = b.agenda := rfl
@[simp] theorem setGuarded_answers (r : Option Region) : (b.setGuarded r).answers = b.answers := rfl
@[simp] theorem setGuarded_draws (r : Option Region) : (b.setGuarded r).draws = b.draws := rfl
@[simp] theorem setGuarded_busData (r : Option Region) : (b.setGuarded r).busData = b.busData := rfl
@[simp] theorem setGuarded_guarded (r : Option Region) : (b.setGuarded r).guarded = r := rfl
@[simp] theorem setGuarded_decoded (r : Option Region) : (b.setGuarded r).decoded = b.decoded := rfl

@[simp] theorem setDecoded_params (v : Option Int) : (b.setDecoded v).params = b.params := rfl
@[simp] theorem setDecoded_phase (v : Option Int) : (b.setDecoded v).phase = b.phase := rfl
@[simp] theorem setDecoded_err (v : Option Int) : (b.setDecoded v).err = b.err := rfl
@[simp] theorem setDecoded_rform (v : Option Int) : (b.setDecoded v).rform = b.rform := rfl
@[simp] theorem setDecoded_rsign (v : Option Int) : (b.setDecoded v).rsign = b.rsign := rfl
@[simp] theorem setDecoded_xdesc (v : Option Int) : (b.setDecoded v).xdesc = b.xdesc := rfl
@[simp] theorem setDecoded_xsize (v : Option Int) : (b.setDecoded v).xsize = b.xsize := rfl
@[simp] theorem setDecoded_xbase (v : Option Int) : (b.setDecoded v).xbase = b.xbase := rfl
@[simp] theorem setDecoded_ximm (v : Option Int) : (b.setDecoded v).ximm = b.ximm := rfl
@[simp] theorem setDecoded_ndesc (v : Option Int) : (b.setDecoded v).ndesc = b.ndesc := rfl
@[simp] theorem setDecoded_nval (v : Option Int) : (b.setDecoded v).nval = b.nval := rfl
@[simp] theorem setDecoded_rval (v : Option Int) : (b.setDecoded v).rval = b.rval := rfl
@[simp] theorem setDecoded_rsize (v : Option Int) : (b.setDecoded v).rsize = b.rsize := rfl
@[simp] theorem setDecoded_rsel (v : Option Int) : (b.setDecoded v).rsel = b.rsel := rfl
@[simp] theorem setDecoded_pendingOp (v : Option Int) : (b.setDecoded v).pendingOp = b.pendingOp := rfl
@[simp] theorem setDecoded_acqd (v : Option Int) : (b.setDecoded v).acqd = b.acqd := rfl
@[simp] theorem setDecoded_wkind (v : Option Int) : (b.setDecoded v).wkind = b.wkind := rfl
@[simp] theorem setDecoded_inl (v : Option Int) : (b.setDecoded v).inl = b.inl := rfl
@[simp] theorem setDecoded_hbase (v : Option Int) : (b.setDecoded v).hbase = b.hbase := rfl
@[simp] theorem setDecoded_wn (v : Option Int) : (b.setDecoded v).wn = b.wn := rfl
@[simp] theorem setDecoded_mem (v : Option Int) : (b.setDecoded v).mem = b.mem := rfl
@[simp] theorem setDecoded_live (v : Option Int) : (b.setDecoded v).live = b.live := rfl
@[simp] theorem setDecoded_released (v : Option Int) : (b.setDecoded v).released = b.released := rfl
@[simp] theorem setDecoded_trace (v : Option Int) : (b.setDecoded v).trace = b.trace := rfl
@[simp] theorem setDecoded_portLog (v : Option Int) : (b.setDecoded v).portLog = b.portLog := rfl
@[simp] theorem setDecoded_agenda (v : Option Int) : (b.setDecoded v).agenda = b.agenda := rfl
@[simp] theorem setDecoded_answers (v : Option Int) : (b.setDecoded v).answers = b.answers := rfl
@[simp] theorem setDecoded_draws (v : Option Int) : (b.setDecoded v).draws = b.draws := rfl
@[simp] theorem setDecoded_busData (v : Option Int) : (b.setDecoded v).busData = b.busData := rfl
@[simp] theorem setDecoded_guarded (v : Option Int) : (b.setDecoded v).guarded = b.guarded := rfl
@[simp] theorem setDecoded_decoded (v : Option Int) : (b.setDecoded v).decoded = v := rfl

@[simp] theorem setPending_params (op : PendingOp) : (b.setPending op).params = b.params := rfl
@[simp] theorem setPending_phase (op : PendingOp) : (b.setPending op).phase = b.phase := rfl
@[simp] theorem setPending_err (op : PendingOp) : (b.setPending op).err = b.err := rfl
@[simp] theorem setPending_rform (op : PendingOp) : (b.setPending op).rform = b.rform := rfl
@[simp] theorem setPending_rsign (op : PendingOp) : (b.setPending op).rsign = b.rsign := rfl
@[simp] theorem setPending_xdesc (op : PendingOp) : (b.setPending op).xdesc = b.xdesc := rfl
@[simp] theorem setPending_xsize (op : PendingOp) : (b.setPending op).xsize = b.xsize := rfl
@[simp] theorem setPending_xbase (op : PendingOp) : (b.setPending op).xbase = b.xbase := rfl
@[simp] theorem setPending_ximm (op : PendingOp) : (b.setPending op).ximm = b.ximm := rfl
@[simp] theorem setPending_ndesc (op : PendingOp) : (b.setPending op).ndesc = b.ndesc := rfl
@[simp] theorem setPending_nval (op : PendingOp) : (b.setPending op).nval = b.nval := rfl
@[simp] theorem setPending_rval (op : PendingOp) : (b.setPending op).rval = b.rval := rfl
@[simp] theorem setPending_rsize (op : PendingOp) : (b.setPending op).rsize = b.rsize := rfl
@[simp] theorem setPending_rsel (op : PendingOp) : (b.setPending op).rsel = b.rsel := rfl
@[simp] theorem setPending_pendingOp (op : PendingOp) : (b.setPending op).pendingOp = op := rfl
@[simp] theorem setPending_acqd (op : PendingOp) : (b.setPending op).acqd = b.acqd := rfl
@[simp] theorem setPending_wkind (op : PendingOp) : (b.setPending op).wkind = b.wkind := rfl
@[simp] theorem setPending_inl (op : PendingOp) : (b.setPending op).inl = b.inl := rfl
@[simp] theorem setPending_hbase (op : PendingOp) : (b.setPending op).hbase = b.hbase := rfl
@[simp] theorem setPending_wn (op : PendingOp) : (b.setPending op).wn = b.wn := rfl
@[simp] theorem setPending_mem (op : PendingOp) : (b.setPending op).mem = b.mem := rfl
@[simp] theorem setPending_live (op : PendingOp) : (b.setPending op).live = b.live := rfl
@[simp] theorem setPending_released (op : PendingOp) : (b.setPending op).released = b.released := rfl
@[simp] theorem setPending_trace (op : PendingOp) : (b.setPending op).trace = b.trace := rfl
@[simp] theorem setPending_portLog (op : PendingOp) : (b.setPending op).portLog = b.portLog := rfl
@[simp] theorem setPending_agenda (op : PendingOp) : (b.setPending op).agenda = b.agenda := rfl
@[simp] theorem setPending_answers (op : PendingOp) : (b.setPending op).answers = b.answers := rfl
@[simp] theorem setPending_draws (op : PendingOp) : (b.setPending op).draws = b.draws := rfl
@[simp] theorem setPending_busData (op : PendingOp) : (b.setPending op).busData = b.busData := rfl
@[simp] theorem setPending_guarded (op : PendingOp) : (b.setPending op).guarded = b.guarded := rfl
@[simp] theorem setPending_decoded (op : PendingOp) : (b.setPending op).decoded = b.decoded := rfl

/-! Using an allocator answer changes only the answers fixed in advance or the count of free values. -/

@[simp] theorem takeAnswer_params : b.takeAnswer.params = b.params := by unfold takeAnswer; split <;> rfl
@[simp] theorem takeAnswer_phase : b.takeAnswer.phase = b.phase := by unfold takeAnswer; split <;> rfl
@[simp] theorem takeAnswer_err : b.takeAnswer.err = b.err := by unfold takeAnswer; split <;> rfl
@[simp] theorem takeAnswer_rform : b.takeAnswer.rform = b.rform := by unfold takeAnswer; split <;> rfl
@[simp] theorem takeAnswer_rsign : b.takeAnswer.rsign = b.rsign := by unfold takeAnswer; split <;> rfl
@[simp] theorem takeAnswer_xdesc : b.takeAnswer.xdesc = b.xdesc := by unfold takeAnswer; split <;> rfl
@[simp] theorem takeAnswer_xsize : b.takeAnswer.xsize = b.xsize := by unfold takeAnswer; split <;> rfl
@[simp] theorem takeAnswer_xbase : b.takeAnswer.xbase = b.xbase := by unfold takeAnswer; split <;> rfl
@[simp] theorem takeAnswer_ximm : b.takeAnswer.ximm = b.ximm := by unfold takeAnswer; split <;> rfl
@[simp] theorem takeAnswer_ndesc : b.takeAnswer.ndesc = b.ndesc := by unfold takeAnswer; split <;> rfl
@[simp] theorem takeAnswer_nval : b.takeAnswer.nval = b.nval := by unfold takeAnswer; split <;> rfl
@[simp] theorem takeAnswer_rval : b.takeAnswer.rval = b.rval := by unfold takeAnswer; split <;> rfl
@[simp] theorem takeAnswer_rsize : b.takeAnswer.rsize = b.rsize := by unfold takeAnswer; split <;> rfl
@[simp] theorem takeAnswer_rsel : b.takeAnswer.rsel = b.rsel := by unfold takeAnswer; split <;> rfl
@[simp] theorem takeAnswer_pendingOp : b.takeAnswer.pendingOp = b.pendingOp := by unfold takeAnswer; split <;> rfl
@[simp] theorem takeAnswer_acqd : b.takeAnswer.acqd = b.acqd := by unfold takeAnswer; split <;> rfl
@[simp] theorem takeAnswer_wkind : b.takeAnswer.wkind = b.wkind := by unfold takeAnswer; split <;> rfl
@[simp] theorem takeAnswer_inl : b.takeAnswer.inl = b.inl := by unfold takeAnswer; split <;> rfl
@[simp] theorem takeAnswer_hbase : b.takeAnswer.hbase = b.hbase := by unfold takeAnswer; split <;> rfl
@[simp] theorem takeAnswer_wn : b.takeAnswer.wn = b.wn := by unfold takeAnswer; split <;> rfl
@[simp] theorem takeAnswer_mem : b.takeAnswer.mem = b.mem := by unfold takeAnswer; split <;> rfl
@[simp] theorem takeAnswer_live : b.takeAnswer.live = b.live := by unfold takeAnswer; split <;> rfl
@[simp] theorem takeAnswer_released : b.takeAnswer.released = b.released := by unfold takeAnswer; split <;> rfl
@[simp] theorem takeAnswer_trace : b.takeAnswer.trace = b.trace := by unfold takeAnswer; split <;> rfl
@[simp] theorem takeAnswer_portLog : b.takeAnswer.portLog = b.portLog := by unfold takeAnswer; split <;> rfl
@[simp] theorem takeAnswer_agenda : b.takeAnswer.agenda = b.agenda := by unfold takeAnswer; split <;> rfl
@[simp] theorem takeAnswer_busData : b.takeAnswer.busData = b.busData := by unfold takeAnswer; split <;> rfl
@[simp] theorem takeAnswer_guarded : b.takeAnswer.guarded = b.guarded := by unfold takeAnswer; split <;> rfl
@[simp] theorem takeAnswer_decoded : b.takeAnswer.decoded = b.decoded := by unfold takeAnswer; split <;> rfl

end Sys2Proof.Machine.Block
end

