-- ==== Sys2Proof/Laws/Port.lean ====
section
/-!
SUPPORT. What a read by the core can change, and what a view's digit is: the port's log and the count of
free values, nothing else (R65, R71).
-/
namespace Sys2Proof.Machine.Block
variable {W : Width}

/-- Only the port's log and the count of free values differ. -/
def ReadsOnly (b t : Block W) : Prop := ∃ n l, t = { b with draws := n, portLog := l }

theorem ReadsOnly.refl (b : Block W) : ReadsOnly b b := ⟨b.draws, b.portLog, rfl⟩

theorem ReadsOnly.trans {b c t : Block W} (h : ReadsOnly b c) (h' : ReadsOnly c t) : ReadsOnly b t := by
  obtain ⟨n, l, rfl⟩ := h
  obtain ⟨n', l', rfl⟩ := h'
  exact ⟨n', l', rfl⟩

theorem readsOnly_logPort (b : Block W) (x : PortAccess) : ReadsOnly b (b.logPort x) := ⟨b.draws, _, rfl⟩

theorem readsOnly_clearPortLog (b : Block W) : ReadsOnly b b.clearPortLog := ⟨b.draws, _, rfl⟩

theorem readsOnly_fetchDigit (b : Block W) (a : Nat) : ReadsOnly b (b.fetchDigit a).2 := by
  unfold fetchDigit
  split
  · exact ⟨b.draws + 1, b.portLog, rfl⟩
  · exact .refl b

theorem readsOnly_memRead (b : Block W) (a : Nat) : ReadsOnly b (b.memRead a).2 :=
  (readsOnly_fetchDigit b a).trans (readsOnly_logPort _ _)

theorem readsOnly_digit (b : Block W) (v : View) (i : Nat) : ReadsOnly b (b.digit v i).2 := by
  unfold digit
  split
  · exact .refl b
  · exact readsOnly_memRead b _

theorem readsOnly_wbufRead (b : Block W) (i : Nat) : ReadsOnly b (b.wbufRead i).2 := by
  unfold wbufRead
  split
  · exact .refl b
  · exact .refl b
  · exact readsOnly_memRead b _

/-- A read of a digit that has not been given back gives the digit there (R65). -/
theorem memRead_fst {b : Block W} {a : Nat} (h : a ∉ b.released) : (b.memRead a).1 = b.digitAt a := by
  simp [memRead, fetchDigit, h]

/-- The access is noted at the end of the log (R71). -/
@[simp] theorem memRead_portLog (b : Block W) (a : Nat) :
    (b.memRead a).2.portLog = b.portLog ++ [.read a] := by
  unfold memRead fetchDigit
  split <;> simp

/-- Where only reads happened, every field but two is as before. -/
theorem ReadsOnly.eqs {b t : Block W} (h : ReadsOnly b t) :
    t.params = b.params ∧ t.mem = b.mem ∧ t.released = b.released ∧ t.wkind = b.wkind ∧ t.inl = b.inl ∧
      t.hbase = b.hbase ∧ t.wn = b.wn ∧ t.acqd = b.acqd ∧ t.xbase = b.xbase := by
  obtain ⟨n, l, rfl⟩ := h
  simp

theorem ReadsOnly.digitAt {b t : Block W} (h : ReadsOnly b t) (a : Nat) : t.digitAt a = b.digitAt a := by
  obtain ⟨n, l, rfl⟩ := h
  rfl

theorem ReadsOnly.wbufDigit {b t : Block W} (h : ReadsOnly b t) (i : Nat) : t.wbufDigit i = b.wbufDigit i := by
  obtain ⟨n, l, rfl⟩ := h
  rfl

/-! ### A view's digits -/

/-- `Digit(V, i)` as a value (R123). -/
def viewDigit (b : Block W) (v : View) (i : Nat) : Word W :=
  match v.digits with
  | .acqd => b.acqd
  | .region base => b.digitAt (base + i)

/-- No digit of the view has been given back to the allocator. -/
def ViewSettled (b : Block W) (v : View) : Prop :=
  ∀ base, v.digits = .region base → ∀ i, i < v.size → base + i ∉ b.released

theorem ReadsOnly.viewDigit {b t : Block W} (h : ReadsOnly b t) (v : View) (i : Nat) :
    t.viewDigit v i = b.viewDigit v i := by
  obtain ⟨n, l, rfl⟩ := h
  rfl

theorem ReadsOnly.viewSettled {b t : Block W} (h : ReadsOnly b t) {v : View} (hs : b.ViewSettled v) :
    t.ViewSettled v := by
  obtain ⟨n, l, rfl⟩ := h
  exact hs

theorem digit_fst {b : Block W} {v : View} {i : Nat} (hs : b.ViewSettled v) (hi : i < v.size) :
    (b.digit v i).1 = b.viewDigit v i := by
  cases hd : v.digits with
  | acqd => simp [digit, viewDigit, hd]
  | region base => simpa [digit, viewDigit, hd] using memRead_fst (hs base hd i hi)

/-- Reading a digit keeps the canonical form of memory: it does not write it. -/
theorem ReadsOnly.memWf {b t : Block W} (h : ReadsOnly b t) (hm : b.mem.wf) : t.mem.wf := by
  obtain ⟨n, l, rfl⟩ := h
  exact hm

end Sys2Proof.Machine.Block
end

