-- ==== Sys2Proof/Laws/Operands.lean ====
section
/-!
SUPPORT. What acquisition, the index and the prologue answer (R120 to R127, R161, R170).
-/
namespace Sys2Proof.Machine

@[simp] theorem Res.andThen_ok {W : Width} {α β : Type} (a : α) (b : Block W) (f : α → Block W → Res W β) :
    (Res.ok a b).andThen f = f a b := rfl

@[simp] theorem Res.andThen_raise {W : Width} {α β : Type} (e : CmdError) (b : Block W)
    (f : α → Block W → Res W β) : (Res.raise e b : Res W α).andThen f = .raise e b := rfl

namespace Block
variable {W : Width}

/-- The view acquisition gives (R121, R122). -/
def operandView (b : Block W) : View :=
  if b.xform = 2 then { sign := b.xsign, size := b.xsize.toNat, digits := .region b.xbase.toNat }
  else { sign := b.ximm.msb, size := 1, digits := .acqd }

/-- The block after acquisition: only the COMPACT form writes ACQD (R120). -/
def afterAcquire (b : Block W) : Block W := if b.xform = 1 then b.setAcqd b.ximmAbs else b

theorem acquire_ok {b : Block W} (h : b.HasNumber) : b.acquire = .ok b.operandView b.afterAcquire := by
  rcases h with h | ⟨h, h1, h2, h3⟩
  · simp [acquire, h, acquireCompact, operandView, afterAcquire]
  · have : ¬ (b.xsize.toNat = 0 ∨ b.params.maxDigits < b.xsize.toNat ∨
        2 ^ W.bits < b.xbase.toNat + b.xsize.toNat) := by omega
    simp [acquire, h, acquireDigits, this, operandView, afterAcquire]

theorem acquire_raise {b : Block W} (h : ¬ b.HasNumber) : b.acquire = .raise .badArgument b := by
  unfold acquire
  split
  · next hx => exact absurd (.inl hx) h
  · next hx =>
    have : b.xsize.toNat = 0 ∨ b.params.maxDigits < b.xsize.toNat ∨
        2 ^ W.bits < b.xbase.toNat + b.xsize.toNat := by
      apply Classical.byContradiction
      intro hn
      exact h (.inr ⟨hx, by omega, by omega, by omega⟩)
    simp [acquireDigits, this]
  · rfl

/-- Acquisition changes nothing but ACQD. -/
theorem afterAcquire_eq (b : Block W) : ∃ v, b.afterAcquire = b.setAcqd v := by
  unfold afterAcquire
  split
  · exact ⟨_, rfl⟩
  · exact ⟨b.acqd, rfl⟩

theorem xform_lt (b : Block W) : b.xform < 4 := by
  unfold xform
  exact (b.xdesc.extractLsb' 0 2).isLt

theorem nkind_lt (b : Block W) : b.nkind < 4 := b.ndesc.isLt

theorem index_value {b : Block W} (h : b.nkind = 1) : b.index = .ok (.value b.nval.toNat) b := by
  simp [index, h]

theorem index_huge {b : Block W} (h : b.nkind = 2) : b.index = .ok .huge b := by simp [index, h]

theorem index_raise {b : Block W} (h : ¬ b.HasIndex) : b.index = .raise .badArgument b := by
  unfold index
  split
  · next hx => exact absurd (.inl hx) h
  · next hx => exact absurd (.inr hx) h
  · rfl

@[simp] theorem afterAcquire_nkind (b : Block W) : b.afterAcquire.nkind = b.nkind := by
  unfold afterAcquire; split <;> rfl

@[simp] theorem afterAcquire_nval (b : Block W) : b.afterAcquire.nval = b.nval := by
  unfold afterAcquire; split <;> rfl

theorem operandView_sign {b : Block W} (h : b.HasNumber) : b.operandView.sign = true ↔ b.Negative := by
  rcases h with h | ⟨h, -⟩ <;> simp [operandView, Negative, h]

/-- The index operand of a block whose NKIND names one (R161). -/
def indexOf (b : Block W) : Index := if b.nkind = 2 then .huge else .value b.nval.toNat

theorem prologue_ok {b : Block W} (h : b.HasNumber) (hn : b.HasIndex) (hs : ¬ b.Negative) :
    b.bitOpPrologue = .ok (b.operandView, b.indexOf) b.afterAcquire := by
  have hsign : b.operandView.sign = false := by
    rw [Bool.eq_false_iff]
    exact fun e => hs ((operandView_sign h).mp e)
  rcases hn with hn | hn
  · simp [bitOpPrologue, acquire_ok h, index_value (b := b.afterAcquire) (by simpa using hn), hsign, indexOf, hn]
  · simp [bitOpPrologue, acquire_ok h, index_huge (b := b.afterAcquire) (by simpa using hn), hsign, indexOf, hn]

theorem prologue_raise {b : Block W} (h : ¬ (b.HasNumber ∧ b.HasIndex ∧ ¬ b.Negative)) :
    ∃ t, b.bitOpPrologue = .raise .badArgument t ∧ (t = b ∨ t = b.afterAcquire) := by
  by_cases hx : b.HasNumber
  · by_cases hn : b.HasIndex
    · have hs : b.Negative := by
        apply Classical.byContradiction
        exact fun hs => h ⟨hx, hn, hs⟩
      have hsign := (operandView_sign hx).mpr hs
      refine ⟨_, ?_, .inr rfl⟩
      rcases hn with hn | hn
      · simp [bitOpPrologue, acquire_ok hx, index_value (b := b.afterAcquire) (by simpa using hn), hsign]
      · simp [bitOpPrologue, acquire_ok hx, index_huge (b := b.afterAcquire) (by simpa using hn), hsign]
    · refine ⟨_, ?_, .inr rfl⟩
      simp [bitOpPrologue, acquire_ok hx, index_raise (b := b.afterAcquire) (by simpa [HasIndex] using hn)]
  · exact ⟨b, by simp [bitOpPrologue, acquire_raise hx], .inl rfl⟩

/-! ### The view against operand X -/

@[simp] theorem operandView_size (b : Block W) : b.operandView.size = b.operandSize := by
  unfold operandView operandSize; split <;> rfl

theorem operandView_region {b : Block W} : b.operandView.region? = b.operandRegion := by
  by_cases h : b.xform = 2 <;> simp [operandView, operandRegion, View.region?, h]

theorem operandSize_pos {b : Block W} (h : b.HasNumber) : 1 ≤ b.operandSize := by
  unfold operandSize
  rcases h with h | ⟨h, h1, -⟩ <;> simp [h]
  omega

theorem afterAcquire_digitAt (b : Block W) (a : Nat) : b.afterAcquire.digitAt a = b.digitAt a := by
  unfold afterAcquire; split <;> rfl

theorem afterAcquire_viewDigit {b : Block W} (h : b.HasNumber) (i : Nat) :
    b.afterAcquire.viewDigit b.operandView i = b.operandDigit i := by
  rcases h with h | ⟨h, -⟩
  · simp [viewDigit, operandView, operandDigit, h, afterAcquire]
  · simp [viewDigit, operandView, operandDigit, h, afterAcquire_digitAt]

theorem afterAcquire_viewSettled {b : Block W} (h : b.HasNumber) (hs : b.Settled) :
    b.afterAcquire.ViewSettled b.operandView := by
  have hr : b.afterAcquire.released = b.released := by unfold afterAcquire; split <;> rfl
  intro base hb i hi
  rw [hr]
  rcases h with h | ⟨h, -⟩
  · simp [operandView, h] at hb
  · simp [operandView, h] at hb hi
    subst hb
    exact hs h i hi

end Block
end Sys2Proof.Machine
end

