-- ==== Sys2Proof/Laws/Buffer.lean ====
section
/-!
SUPPORT. The working buffer (R43, R44): a write of one digit, and what the copy loop and the zero fill of
the Resize/Copy Engine leave (R144).
-/
namespace Sys2Proof.Machine.Block
variable {W : Width}

/-- Only what a write to the working buffer can change differs. -/
def BufferOnly (b t : Block W) : Prop :=
  ∃ inl mem rel n l, t = { b with inl := inl, mem := mem, released := rel, draws := n, portLog := l }

theorem BufferOnly.refl (b : Block W) : BufferOnly b b := ⟨_, _, _, _, _, rfl⟩

theorem BufferOnly.trans {b c t : Block W} (h : BufferOnly b c) (h' : BufferOnly c t) : BufferOnly b t := by
  obtain ⟨_, _, _, _, _, rfl⟩ := h
  obtain ⟨_, _, _, _, _, rfl⟩ := h'
  exact ⟨_, _, _, _, _, rfl⟩

theorem ReadsOnly.bufferOnly {b t : Block W} (h : ReadsOnly b t) : BufferOnly b t := by
  obtain ⟨n, l, rfl⟩ := h
  exact ⟨_, _, _, _, _, rfl⟩

theorem bufferOnly_wbufWrite (b : Block W) (i : Nat) (v : Word W) : BufferOnly b (b.wbufWrite i v) := by
  unfold wbufWrite
  split <;> exact ⟨_, _, _, _, _, rfl⟩

/-- A buffer the core can write and read back: inline with at most four digits, or on the heap. -/
def WorkReady (b : Block W) : Prop :=
  b.mem.wf ∧ ((b.wkind = .inline ∧ b.wn ≤ 4) ∨ b.wkind = .heap)

theorem BufferOnly.wkind {b t : Block W} (h : BufferOnly b t) : t.wkind = b.wkind := by
  obtain ⟨_, _, _, _, _, rfl⟩ := h; rfl

theorem BufferOnly.wn {b t : Block W} (h : BufferOnly b t) : t.wn = b.wn := by
  obtain ⟨_, _, _, _, _, rfl⟩ := h; rfl

theorem BufferOnly.hbase {b t : Block W} (h : BufferOnly b t) : t.hbase = b.hbase := by
  obtain ⟨_, _, _, _, _, rfl⟩ := h; rfl

theorem BufferOnly.acqd {b t : Block W} (h : BufferOnly b t) : t.acqd = b.acqd := by
  obtain ⟨_, _, _, _, _, rfl⟩ := h; rfl

theorem BufferOnly.params {b t : Block W} (h : BufferOnly b t) : t.params = b.params := by
  obtain ⟨_, _, _, _, _, rfl⟩ := h; rfl

theorem wbufWrite_mem_wf {b : Block W} (hm : b.mem.wf) (i : Nat) (v : Word W) : (b.wbufWrite i v).mem.wf := by
  unfold wbufWrite
  split
  · exact hm
  · exact hm
  · exact writeDigit_wf hm _ _ _ _

theorem wbufWrite_released_subset {b : Block W} {i : Nat} {v : Word W} {a : Nat}
    (h : a ∈ (b.wbufWrite i v).released) : a ∈ b.released := by
  unfold wbufWrite at h
  split at h
  · exact h
  · exact h
  · simp [memWrite] at h
    exact h.1

/-- On the heap path the digit's address is no longer one whose contents are any value. -/
theorem wbufWrite_released_self {b : Block W} (hk : b.wkind = .heap) (i : Nat) (v : Word W) :
    b.hbase.toNat + i ∉ (b.wbufWrite i v).released := by
  simp [wbufWrite, hk, memWrite]

theorem wbufDigit_wbufWrite_same {b : Block W} (h : b.WorkReady) {i : Nat} (hi : i < b.wn) (v : Word W) :
    (b.wbufWrite i v).wbufDigit i = v := by
  obtain ⟨hm, ⟨hk, hn⟩ | hk⟩ := h
  · have : i < 4 := by omega
    simp [wbufWrite, hk, wbufDigit, inlCell, this]
  · simp [wbufWrite, hk, wbufDigit, memWrite, digitAt, readDigit_writeDigit_same hm]

theorem wbufDigit_wbufWrite_other (b : Block W) {i j : Nat} (hij : j ≠ i) (v : Word W) :
    (b.wbufWrite i v).wbufDigit j = b.wbufDigit j := by
  cases hk : b.wkind with
  | none => simp [wbufWrite, hk, wbufDigit]
  | inline =>
    have : i ≠ j := fun e => hij e.symm
    simp [wbufWrite, hk, wbufDigit, inlCell, this]
  | heap =>
    have : b.hbase.toNat + j ≠ b.hbase.toNat + i := by omega
    simp [wbufWrite, hk, wbufDigit, memWrite, digitAt, readDigit_writeDigit_other _ _ _ this]

/-- Every byte outside the digit written reads as before; inline, every byte does. -/
theorem wbufWrite_readByte {b : Block W} {i k : Nat} (v : Word W)
    (h : b.wkind = .heap → k / W.bytes ≠ b.hbase.toNat + i) :
    readByte (b.wbufWrite i v).mem k = readByte b.mem k := by
  cases hk : b.wkind with
  | none => simp [wbufWrite, hk]
  | inline => simp [wbufWrite, hk]
  | heap =>
    simp only [wbufWrite, hk, memWrite, logPort_mem, putDigit_mem, writeDigit]
    apply readByte_writeBytes_other
    intro j hj e
    apply h hk
    rw [e, byteKey_div _ _ hj]

theorem wbufWrite_digitAt {b : Block W} {i a : Nat} (v : Word W)
    (h : b.wkind = .heap → a ≠ b.hbase.toNat + i) : (b.wbufWrite i v).digitAt a = b.digitAt a := by
  cases hk : b.wkind with
  | none => simp [wbufWrite, hk]
  | inline => simp [wbufWrite, hk, digitAt]
  | heap => simp [wbufWrite, hk, memWrite, digitAt, readDigit_writeDigit_other _ _ _ (h hk)]

theorem WorkReady.of_bufferOnly {b t : Block W} (h : BufferOnly b t) (hm : t.mem.wf) (hb : b.WorkReady) :
    t.WorkReady := by
  refine ⟨hm, ?_⟩
  rw [h.wkind, h.wn]
  exact hb.2

/-- A part of a run that writes digits `[i, i + k)` of the working buffer: what it leaves. -/
structure Filled (b t : Block W) (i k : Nat) : Prop where
  only : BufferOnly b t
  memWf : t.mem.wf
  releasedSubset : ∀ a, a ∈ t.released → a ∈ b.released
  taken : b.wkind = .heap → ∀ j, i ≤ j → j < i + k → b.hbase.toNat + j ∉ t.released
  outside : ∀ key, (b.wkind = .heap → ∀ j, i ≤ j → j < i + k → key / W.bytes ≠ b.hbase.toNat + j) →
    readByte t.mem key = readByte b.mem key
  digitsOutside : ∀ a, (b.wkind = .heap → ∀ j, i ≤ j → j < i + k → a ≠ b.hbase.toNat + j) →
    t.digitAt a = b.digitAt a
  others : ∀ j, (j < i ∨ i + k ≤ j) → t.wbufDigit j = b.wbufDigit j

theorem Filled.nil {b : Block W} (hm : b.mem.wf) (i : Nat) : Filled b b i 0 where
  only := .refl b
  memWf := hm
  releasedSubset _ h := h
  taken _ j _ _ := by omega
  outside _ _ := rfl
  digitsOutside _ _ := rfl
  others _ _ := rfl

/-- One write, after reads, before more writes. -/
theorem Filled.cons {b c t : Block W} {i k : Nat} {v : Word W} (hr : ReadsOnly b c)
    (h : Filled (c.wbufWrite i v) t (i + 1) k) : Filled b t i (k + 1) := by
  have hw := bufferOnly_wbufWrite c i v
  have hbc := hr.bufferOnly.trans hw
  refine ⟨hbc.trans h.only, h.memWf, ?_, ?_, ?_, ?_, ?_⟩
  · intro a ha
    have := wbufWrite_released_subset (h.releasedSubset a ha)
    rwa [hr.eqs.2.2.1] at this
  · intro hk j h1 h2
    by_cases hj : j = i
    · subst hj
      intro ha
      have := h.releasedSubset _ ha
      rw [← hr.eqs.2.2.2.2.2.1] at this
      exact wbufWrite_released_self (by rw [hr.eqs.2.2.2.1]; exact hk) _ _ this
    · have := h.taken (by rw [hbc.wkind]; exact hk) j (by omega) (by omega)
      rwa [hbc.hbase] at this
  · intro key hkey
    rw [h.outside key ?_, wbufWrite_readByte v ?_, hr.eqs.2.1]
    · rw [hr.eqs.2.2.2.1, hr.eqs.2.2.2.2.2.1]
      exact fun hk => hkey hk i (by omega) (by omega)
    · rw [hbc.wkind, hbc.hbase]
      exact fun hk j h1 h2 => hkey hk j (by omega) (by omega)
  · intro a ha
    rw [h.digitsOutside a ?_, wbufWrite_digitAt v ?_, hr.digitAt]
    · rw [hr.eqs.2.2.2.1, hr.eqs.2.2.2.2.2.1]
      exact fun hk => ha hk i (by omega) (by omega)
    · rw [hbc.wkind, hbc.hbase]
      exact fun hk j h1 h2 => ha hk j (by omega) (by omega)
  · intro j hj
    rw [h.others j (by omega), wbufDigit_wbufWrite_other _ (by omega), hr.wbufDigit]

/-- Consecutive fills. -/
theorem Filled.append {b c t : Block W} {i k k' : Nat} (h : Filled b c i k) (h' : Filled c t (i + k) k') :
    Filled b t i (k + k') := by
  refine ⟨h.only.trans h'.only, h'.memWf, ?_, ?_, ?_, ?_, ?_⟩
  · exact fun a ha => h.releasedSubset a (h'.releasedSubset a ha)
  · intro hk j h1 h2
    by_cases hj : j < i + k
    · exact fun ha => h.taken hk j h1 hj (h'.releasedSubset _ ha)
    · have := h'.taken (by rw [h.only.wkind]; exact hk) j (by omega) (by omega)
      rwa [h.only.hbase] at this
  · intro key hkey
    rw [h'.outside key ?_, h.outside key ?_]
    · exact fun hk j h1 h2 => hkey hk j (by omega) (by omega)
    · rw [h.only.wkind, h.only.hbase]
      exact fun hk j h1 h2 => hkey hk j (by omega) (by omega)
  · intro a ha
    rw [h'.digitsOutside a ?_, h.digitsOutside a ?_]
    · exact fun hk j h1 h2 => ha hk j (by omega) (by omega)
    · rw [h.only.wkind, h.only.hbase]
      exact fun hk j h1 h2 => ha hk j (by omega) (by omega)
  · intro j hj
    rw [h'.others j (by omega), h.others j (by omega)]

theorem copyDigits_filled (v : View) (k i : Nat) (b : Block W) (hm : b.mem.wf) :
    Filled b (copyDigits v k i b) i k := by
  induction k generalizing i b with
  | zero => exact .nil hm i
  | succ k ih =>
    refine .cons (v := (b.digit v i).1) (readsOnly_digit b v i) ?_
    exact ih (i + 1) _ (wbufWrite_mem_wf ((readsOnly_digit b v i).memWf hm) _ _)

theorem zeroFill_filled (k i : Nat) (b : Block W) (hm : b.mem.wf) : Filled b (zeroFill k i b) i k := by
  induction k generalizing i b with
  | zero => exact .nil hm i
  | succ k ih => exact .cons (v := 0) (.refl b) (ih (i + 1) _ (wbufWrite_mem_wf hm _ _))

/-- The zero fill leaves zeros (R144). -/
theorem zeroFill_digit (k i : Nat) (b : Block W) (h : b.WorkReady) (hn : i + k ≤ b.wn) (j : Nat)
    (h1 : i ≤ j) (h2 : j < i + k) : (zeroFill k i b).wbufDigit j = 0 := by
  induction k generalizing i b with
  | zero => omega
  | succ k ih =>
    have hw := bufferOnly_wbufWrite b i (0 : Word W)
    have hm := wbufWrite_mem_wf h.1 i (0 : Word W)
    by_cases hj : j = i
    · subst hj
      show (zeroFill k (j + 1) (b.wbufWrite j 0)).wbufDigit j = 0
      rw [(zeroFill_filled k (j + 1) _ hm).others j (by omega)]
      exact wbufDigit_wbufWrite_same h (by omega) 0
    · exact ih (i + 1) _ (.of_bufferOnly hw hm h) (by rw [hw.wn]; omega) (by omega) (by omega)

/-- The operand region and the heap buffer share no digit (R64 b). -/
def ViewApart (b : Block W) (v : View) : Prop :=
  b.wkind = .heap → ∀ base, v.digits = .region base → ∀ i, i < v.size → ∀ j, j < b.wn →
    base + i ≠ b.hbase.toNat + j

theorem viewDigit_wbufWrite {b : Block W} {v : View} (ha : b.ViewApart v) {i m : Nat} (hi : i < b.wn)
    (hm : m < v.size) (x : Word W) : (b.wbufWrite i x).viewDigit v m = b.viewDigit v m := by
  cases hd : v.digits with
  | acqd => simp [viewDigit, hd, (bufferOnly_wbufWrite b i x).acqd]
  | region base =>
    simp only [viewDigit, hd]
    exact wbufWrite_digitAt x (fun hk => ha hk base hd m hm i hi)

/-- The copy loop copies the view's digits (R144). -/
theorem copyDigits_digit (v : View) (k i : Nat) (b : Block W) (h : b.WorkReady) (hs : b.ViewSettled v)
    (ha : b.ViewApart v) (hn : i + k ≤ b.wn) (hv : i + k ≤ v.size) (j : Nat) (h1 : i ≤ j) (h2 : j < i + k) :
    (copyDigits v k i b).wbufDigit j = b.viewDigit v j := by
  induction k generalizing i b with
  | zero => omega
  | succ k ih =>
    have hr := readsOnly_digit b v i
    have hw := bufferOnly_wbufWrite (b.digit v i).2 i (b.digit v i).1
    have hwn : (b.digit v i).2.wn = b.wn := hr.bufferOnly.wn
    have hm := wbufWrite_mem_wf (hr.memWf h.1) i (b.digit v i).1
    have hready : (b.digit v i).2.WorkReady := .of_bufferOnly hr.bufferOnly (hr.memWf h.1) h
    have hapart : (b.digit v i).2.ViewApart v := by
      intro hk base hb m hm' j hj
      rw [hr.bufferOnly.hbase]
      exact ha (by rwa [hr.bufferOnly.wkind] at hk) base hb m hm' j (by rwa [hwn] at hj)
    show (copyDigits v k (i + 1) _).wbufDigit j = _
    by_cases hj : j = i
    · subst hj
      rw [(copyDigits_filled v k (j + 1) _ hm).others j (by omega),
        wbufDigit_wbufWrite_same hready (by omega)]
      exact digit_fst hs (by omega)
    · rw [ih (i + 1) _ (.of_bufferOnly hw hm hready) ?_ ?_ (by rw [hw.wn]; omega) (by omega) (by omega) (by omega),
        viewDigit_wbufWrite hapart (by omega) (by omega), hr.viewDigit]
      · intro base hb m hm' hmem
        exact hr.viewSettled hs base hb m hm' (wbufWrite_released_subset hmem)
      · intro hk base hb m hm' j hj
        rw [hw.hbase]
        exact hapart (by rwa [hw.wkind] at hk) base hb m hm' j (by rwa [hw.wn] at hj)

end Sys2Proof.Machine.Block
end

