-- ==== Sys2Proof/Laws/Engine.lean ====
section
/-!
SUPPORT. The Resize/Copy Engine (R140 to R149) and normalisation (R210 to R215): everything each can do.
-/
namespace Sys2Proof.Machine.Block
variable {W : Width}

/-! ### The allocator -/

/-- The guarantees of R64 hold of every `ok` answer. -/
theorem allocAnswer_admissible {b : Block W} {o : Option Region} {n : Nat} {base : Word W}
    (h : b.allocAnswer o n = .ok base) : b.admissible o n base = true := by
  unfold allocAnswer at h
  split at h
  · cases h
  · split at h
    · next hb => cases h; exact hb
    · cases h

theorem Region.disjoint_apart {r q : Region} (h : r.disjoint q = true) {i j : Nat} (hi : i < r.len)
    (hj : j < q.len) : r.base + i ≠ q.base + j := by
  simp only [Region.disjoint, Bool.or_eq_true, decide_eq_true_eq] at h
  omega

/-- The block after `Alloc(n)` has answered. -/
def afterAlloc (b : Block W) (o : Option Region) (n : Nat) : Block W :=
  b.takeAnswer.record (.alloc n (b.allocAnswer o n))

theorem alloc_fail {b : Block W} {o : Option Region} {n : Nat} (h : b.allocAnswer o n = .fail) :
    b.alloc o n = (.fail, b.afterAlloc o n) := by
  simp [alloc, afterAlloc, h]

theorem alloc_ok {b : Block W} {o : Option Region} {n : Nat} {base : Word W} (h : b.allocAnswer o n = .ok base) :
    b.alloc o n = (.ok base, (b.afterAlloc o n).addLive ⟨base.toNat, n⟩) := by
  simp [alloc, afterAlloc, h]

/-- The block with the buffer obtained, or with the failure noted (R140 to R143, R147). -/
inductive Obtained (b : Block W) (v : View) (n : Nat) : Res W Unit → Prop where
  | tooLarge (h : b.params.maxDigits < n) : Obtained b v n (.raise .allocationFailure b)
  | inline (h : n ≤ b.params.maxDigits) (hn : n < inlineThreshold) :
    Obtained b v n (.ok () (b.setWork .inline b.hbase n))
  | refused (h : n ≤ b.params.maxDigits) (hn : inlineThreshold ≤ n) (ha : b.allocAnswer v.region? n = .fail) :
    Obtained b v n (.raise .allocationFailure (b.afterAlloc v.region? n))
  | heap (base : Word W) (h : n ≤ b.params.maxDigits) (hn : inlineThreshold ≤ n)
    (ha : b.allocAnswer v.region? n = .ok base) :
    Obtained b v n (.ok () (((b.afterAlloc v.region? n).addLive ⟨base.toNat, n⟩).setWork .heap base n))

theorem obtainBuffer_obtained (b : Block W) (v : View) (n : Nat) : Obtained b v n (b.obtainBuffer v n) := by
  unfold obtainBuffer
  split
  · next h => exact .tooLarge h
  · next h =>
    split
    · next hn => exact .inline (by omega) hn
    · next hn =>
      cases ha : b.allocAnswer v.region? n with
      | fail => rw [alloc_fail ha]; exact .refused (by omega) (by omega) ha
      | ok base => rw [alloc_ok ha]; exact .heap base (by omega) (by omega) ha

/-- The obtained buffer can be written and read back. -/
theorem obtained_ready {b c : Block W} {v : View} {n : Nat} (hm : b.mem.wf)
    (h : Obtained b v n (.ok () c)) : c.WorkReady ∧ c.wn = n := by
  cases h with
  | inline h hn => exact ⟨⟨by simpa using hm, .inl ⟨rfl, by simp; unfold inlineThreshold at hn; omega⟩⟩, rfl⟩
  | heap base h hn ha => exact ⟨⟨by simpa [afterAlloc] using hm, .inr rfl⟩, rfl⟩

/-- The obtained buffer shares no digit with the view's region (R64 b). -/
theorem obtained_apart {b c : Block W} {v : View} {n : Nat} (h : Obtained b v n (.ok () c)) :
    c.ViewApart v := by
  cases h with
  | inline h hn => intro hk; simp at hk
  | heap base h hn ha =>
    intro _ vb hvb i hi j hj
    have hadm := allocAnswer_admissible ha
    simp only [admissible, View.region?, hvb, Bool.and_eq_true] at hadm
    simp only [setWork_hbase, setWork_wn] at hj ⊢
    exact Region.disjoint_apart hadm.1.2 hi hj

/-- The copy of the view in the obtained buffer, grown to `n` digits (R144). -/
def grown (c : Block W) (v : View) (n : Nat) : Block W :=
  zeroFill (n - v.size) v.size (copyDigits v v.size 0 c)

theorem copyAndGrow_eq (b : Block W) (v : View) (m : Nat) :
    b.copyAndGrow v m = (b.obtainBuffer v (growSize v m)).andThen fun _ c => .ok () (c.grown v (growSize v m)) := rfl

theorem grown_filled {c : Block W} (hm : c.mem.wf) {v : View} {n : Nat} (hn : v.size ≤ n) :
    Filled c (c.grown v n) 0 n := by
  have h1 := copyDigits_filled v v.size 0 c hm
  have h2 := zeroFill_filled (n - v.size) v.size (copyDigits v v.size 0 c) h1.memWf
  have h := h1.append (k' := n - v.size) (by simpa using h2)
  rwa [show v.size + (n - v.size) = n by omega] at h

/-- R144: the view's digits, then zeros. -/
theorem grown_digit {c : Block W} {v : View} {n : Nat} (hr : c.WorkReady) (hwn : c.wn = n) (hs : c.ViewSettled v)
    (ha : c.ViewApart v) (hn : v.size ≤ n) (j : Nat) (hj : j < n) :
    (c.grown v n).wbufDigit j = if j < v.size then c.viewDigit v j else 0 := by
  have h1 := copyDigits_filled v v.size 0 c hr.1
  have hready : (copyDigits v v.size 0 c).WorkReady := .of_bufferOnly h1.only h1.memWf hr
  have hwn' : (copyDigits v v.size 0 c).wn = n := by rw [h1.only.wn, hwn]
  split
  · next hlt =>
    unfold grown
    rw [(zeroFill_filled _ _ _ h1.memWf).others j (.inl hlt)]
    exact copyDigits_digit v v.size 0 c hr hs ha (by omega) (by omega) j (by omega) (by omega)
  · next hge => exact zeroFill_digit _ _ _ hready (by omega) j (by omega) (by omega)

/-! ### Normalisation -/

/-- The core may read every digit of the buffer back (no address of it is the allocator's). -/
def WorkSettled (b : Block W) (k : Nat) : Prop :=
  b.wkind = .heap → ∀ i, i < k → b.hbase.toNat + i ∉ b.released

theorem wbufRead_fst {b : Block W} {k i : Nat} (h : b.WorkSettled k) (hi : i < k) :
    (b.wbufRead i).1 = b.wbufDigit i := by
  cases hk : b.wkind with
  | none => simp [wbufRead, wbufDigit, hk]
  | inline => simp [wbufRead, wbufDigit, hk]
  | heap =>
    simp only [wbufRead, wbufDigit, hk]
    exact memRead_fst (h hk i hi)

theorem ReadsOnly.workSettled {b t : Block W} (h : ReadsOnly b t) {k : Nat} (hs : b.WorkSettled k) :
    t.WorkSettled k := by
  obtain ⟨n, l, rfl⟩ := h
  exact hs

theorem trim_succ_succ (k : Nat) (b : Block W) :
    trim (k + 2) b = if (b.wbufRead (k + 1)).1 = 0 then trim (k + 1) (b.wbufRead (k + 1)).2
      else (k + 2, (b.wbufRead (k + 1)).2) := by
  rw [trim]

theorem trim_one (b : Block W) : trim 1 b = (1, b) := rfl

theorem trim_zero (b : Block W) : trim 0 b = (0, b) := rfl

theorem trim_readsOnly (k : Nat) (b : Block W) : ReadsOnly b (trim k b).2 := by
  induction k generalizing b with
  | zero => exact .refl b
  | succ k ih =>
    cases k with
    | zero => exact .refl b
    | succ k =>
      rw [trim_succ_succ]
      split
      · exact (readsOnly_wbufRead b _).trans (ih _)
      · exact readsOnly_wbufRead b _

/-- R211: what the trim leaves. -/
theorem trim_spec (k : Nat) (b : Block W) (hs : b.WorkSettled k) (hk : 1 ≤ k) :
    1 ≤ (trim k b).1 ∧ (trim k b).1 ≤ k ∧ (∀ j, (trim k b).1 ≤ j → j < k → b.wbufDigit j = 0) ∧
      ((trim k b).1 = 1 ∨ b.wbufDigit ((trim k b).1 - 1) ≠ 0) := by
  induction k generalizing b with
  | zero => omega
  | succ k ih =>
    cases k with
    | zero => rw [trim_one]; exact ⟨by omega, by omega, fun j h1 h2 => by simp at h1; omega, .inl rfl⟩
    | succ k =>
      have hv : (b.wbufRead (k + 1)).1 = b.wbufDigit (k + 1) := wbufRead_fst hs (by omega)
      have hr := readsOnly_wbufRead b (k + 1)
      rw [trim_succ_succ]
      split
      · next h0 =>
        have hs' : (b.wbufRead (k + 1)).2.WorkSettled (k + 1) := by
          intro hh i hi
          exact hr.workSettled hs hh i (by omega)
        obtain ⟨h1, h2, h3, h4⟩ := ih _ hs' (by omega)
        simp only [hr.wbufDigit] at h3 h4
        refine ⟨h1, by omega, ?_, h4⟩
        intro j hj1 hj2
        by_cases hj : j = k + 1
        · subst hj; rw [← hv]; exact h0
        · exact h3 j hj1 (by omega)
      · next h0 =>
        refine ⟨by simp, by simp, fun j h1 h2 => ?_, .inr ?_⟩
        · simp only at h1; omega
        · show b.wbufDigit (k + 2 - 1) ≠ 0
          rw [show k + 2 - 1 = k + 1 by omega, ← hv]; exact h0

/-- R210 with `sign = false`, the only call the commands make (R213): COMPACT with the one digit, or DIGITS
with the trimmed size. -/
theorem normalize_spec {b : Block W} (hs : b.WorkSettled b.wn) (hwn : 1 ≤ b.wn) :
    ∃ c k, ReadsOnly b c ∧ 1 ≤ k ∧ k ≤ b.wn ∧ (∀ j, k ≤ j → j < b.wn → b.wbufDigit j = 0) ∧
      ((k = 1 ∧ b.normalize false = c.setResult .compact false (b.wbufDigit 0) 1) ∨
        (2 ≤ k ∧ b.wbufDigit (k - 1) ≠ 0 ∧
          b.normalize false = c.setResult .digits false 0 (BitVec.ofNat W.bits k))) := by
  obtain ⟨h1, h2, h3, h4⟩ := trim_spec b.wn b hs hwn
  have hr := trim_readsOnly b.wn b
  by_cases hk : (trim b.wn b).1 = 1
  · refine ⟨((trim b.wn b).2.wbufRead 0).2, 1, hr.trans (readsOnly_wbufRead _ _), by omega, hwn, ?_, .inl ⟨rfl, ?_⟩⟩
    · exact fun j hj1 hj2 => h3 j (by omega) hj2
    · have : ((trim b.wn b).2.wbufRead 0).1 = b.wbufDigit 0 := by
        rw [wbufRead_fst (hr.workSettled hs) (by omega), hr.wbufDigit]
      simp [normalize, formResult, hk, this]
  · refine ⟨(trim b.wn b).2, (trim b.wn b).1, hr, h1, h2, h3, .inr ⟨by omega, ?_, ?_⟩⟩
    · rcases h4 with h4 | h4
      · exact absurd h4 hk
      · exact h4
    · simp [normalize, formResult, hk]

/-! ### The bit edit -/

/-- The grown copy with the digit of the bit changed. -/
def edited (c : Block W) (v : View) (n bn : Nat) (f : Word W → Nat → Word W) : Block W :=
  ((c.grown v n).wbufRead (digitIndex W bn)).2.wbufWrite (digitIndex W bn)
    (f ((c.grown v n).wbufRead (digitIndex W bn)).1 (bitOffset W bn))

theorem editBit_eq (b : Block W) (v : View) (bn : Nat) (f : Word W → Nat → Word W) :
    b.editBit v bn f =
      (b.obtainBuffer v (growSize v (digitIndex W bn + 1))).andThen fun _ c =>
        .ok () ((c.edited v (growSize v (digitIndex W bn + 1)) bn f).normalize false) := by
  unfold editBit
  rw [copyAndGrow_eq]
  cases b.obtainBuffer v (growSize v (digitIndex W bn + 1)) <;> rfl

/-- The edited copy: `n` digits written, nothing else; the bit's digit is the edit of the copy's, the others
are the copy's. -/
theorem edited_spec {c : Block W} {v : View} {n bn : Nat} (f : Word W → Nat → Word W) (hr : c.WorkReady)
    (hwn : c.wn = n) (hv : v.size ≤ n) (hd : digitIndex W bn < n) :
    Filled c (c.edited v n bn f) 0 n ∧
      (∀ j, j < n → (c.edited v n bn f).wbufDigit j =
        if j = digitIndex W bn then f ((c.grown v n).wbufDigit j) (bitOffset W bn)
        else (c.grown v n).wbufDigit j) := by
  have hg := grown_filled hr.1 hv
  have hgr : (c.grown v n).WorkReady := .of_bufferOnly hg.only hg.memWf hr
  have hset : (c.grown v n).WorkSettled n := by
    intro hk i hi
    rw [hg.only.hbase]
    exact hg.taken (by rwa [hg.only.wkind] at hk) i (by omega) (by omega)
  have hread := readsOnly_wbufRead (c.grown v n) (digitIndex W bn)
  have hfst : ((c.grown v n).wbufRead (digitIndex W bn)).1 = (c.grown v n).wbufDigit (digitIndex W bn) :=
    wbufRead_fst hset hd
  have hw := bufferOnly_wbufWrite ((c.grown v n).wbufRead (digitIndex W bn)).2 (digitIndex W bn)
    (f ((c.grown v n).wbufRead (digitIndex W bn)).1 (bitOffset W bn))
  have hbase : ((c.grown v n).wbufRead (digitIndex W bn)).2.hbase = c.hbase := by
    rw [hread.bufferOnly.hbase, hg.only.hbase]
  have hkind : ((c.grown v n).wbufRead (digitIndex W bn)).2.wkind = c.wkind := by
    rw [hread.bufferOnly.wkind, hg.only.wkind]
  have hwnr : ((c.grown v n).wbufRead (digitIndex W bn)).2.wn = n := by
    rw [hread.bufferOnly.wn, hg.only.wn, hwn]
  have hready : ((c.grown v n).wbufRead (digitIndex W bn)).2.WorkReady :=
    .of_bufferOnly hread.bufferOnly (hread.memWf hg.memWf) hgr
  refine ⟨⟨hg.only.trans (hread.bufferOnly.trans hw), ?_, ?_, ?_, ?_, ?_, ?_⟩, ?_⟩
  · exact wbufWrite_mem_wf (hread.memWf hg.memWf) _ _
  · intro a ha
    have := wbufWrite_released_subset ha
    rw [hread.eqs.2.2.1] at this
    exact hg.releasedSubset a this
  · intro hk j h1 h2 ha
    have := wbufWrite_released_subset ha
    rw [hread.eqs.2.2.1] at this
    exact hg.taken hk j h1 h2 this
  · intro key hkey
    unfold edited
    rw [wbufWrite_readByte _ ?_, hread.eqs.2.1, hg.outside key hkey]
    rw [hkind, hbase]
    exact fun hk => hkey hk _ (by omega) (by omega)
  · intro a ha
    unfold edited
    rw [wbufWrite_digitAt _ ?_, hread.digitAt, hg.digitsOutside a ha]
    rw [hkind, hbase]
    exact fun hk => ha hk _ (by omega) (by omega)
  · intro j hj
    unfold edited
    rw [wbufDigit_wbufWrite_other _ (by omega), hread.wbufDigit, hg.others j hj]
  · intro j hj
    unfold edited
    split
    · next e =>
      rw [e, wbufDigit_wbufWrite_same hready (by omega), hfst]
    · next e => rw [wbufDigit_wbufWrite_other _ e, hread.wbufDigit]

/-- What the normalised edit is (R210 to R212). -/
theorem edited_normalize {c : Block W} {v : View} {n bn : Nat} (f : Word W → Nat → Word W) (hr : c.WorkReady)
    (hwn : c.wn = n) (hv : v.size ≤ n) (hd : digitIndex W bn < n) :
    ∃ t k, ReadsOnly (c.edited v n bn f) t ∧ 1 ≤ k ∧ k ≤ n ∧
      (∀ j, k ≤ j → j < n → (c.edited v n bn f).wbufDigit j = 0) ∧
      ((k = 1 ∧ (c.edited v n bn f).normalize false =
          t.setResult .compact false ((c.edited v n bn f).wbufDigit 0) 1) ∨
        (2 ≤ k ∧ (c.edited v n bn f).wbufDigit (k - 1) ≠ 0 ∧
          (c.edited v n bn f).normalize false = t.setResult .digits false 0 (BitVec.ofNat W.bits k))) := by
  obtain ⟨hf, -⟩ := edited_spec f hr hwn hv hd
  have hset : (c.edited v n bn f).WorkSettled (c.edited v n bn f).wn := by
    intro hk i hi
    rw [hf.only.hbase]
    rw [hf.only.wn, hwn] at hi
    exact hf.taken (by rwa [hf.only.wkind] at hk) i (by omega) (by omega)
  have := normalize_spec hset (by rw [hf.only.wn, hwn]; omega)
  rwa [hf.only.wn, hwn] at this

end Sys2Proof.Machine.Block
end

