-- ==== Sys2Proof/Laws/Commands.lean ====
section
/-!
SUPPORT. The core step of each command as one equation per case (R252), and what each way of ending
leaves (R255, R256).
-/
namespace Sys2Proof.Machine.Block
variable {W : Width}

/-- How a completed command ends (R252). -/
def finish (t : Block W) : Block W := (t.setErr .none).setPhase .done

/-- How a failed command ends (R252, R256). -/
def failWith (t : Block W) (e : CmdError) : Block W := (t.errorExit e).setPhase .done

/-- The block a command's operands are acquired in: the port's log emptied, ACQD written (R120). -/
def acquired (b : Block W) : Block W := b.clearPortLog.afterAcquire

theorem acquired_eq (b : Block W) : ∃ v, b.acquired = b.clearPortLog.setAcqd v := afterAcquire_eq _

theorem acquired_viewSettled {b : Block W} (h : b.HasNumber) (hs : b.Settled) :
    b.acquired.ViewSettled b.operandView := afterAcquire_viewSettled (b := b.clearPortLog) h hs

theorem acquired_viewDigit {b : Block W} (h : b.HasNumber) (i : Nat) :
    b.acquired.viewDigit b.operandView i = b.operandDigit i := afterAcquire_viewDigit (b := b.clearPortLog) h i

/-- What the core reads as digit `i` of operand X (R123). -/
theorem acquired_digit_fst {b : Block W} (h : b.HasNumber) (hs : b.Settled) {i : Nat} (hi : i < b.operandSize) :
    (b.acquired.digit b.operandView i).1 = b.operandDigit i := by
  rw [digit_fst (acquired_viewSettled h hs) (by rwa [operandView_size]), acquired_viewDigit h]

/-! ### The equations of the six commands -/

theorem run_size {b : Block W} (h : b.HasNumber) :
    b.runCommand sizeBody =
      ((b.acquired.digit b.operandView (b.operandSize - 1)).2.scalarResult
        ((b.operandSize - 1) * W.bits +
          bitlen (b.acquired.digit b.operandView (b.operandSize - 1)).1)).finish := by
  have h0 := acquire_ok (b := b.clearPortLog) h
  have hv : b.clearPortLog.operandView = b.operandView := rfl
  simp only [runCommand, sizeBody, h0, Res.andThen_ok, hv, operandView_size]
  rfl

theorem run_size_raise {b : Block W} (h : ¬ b.HasNumber) :
    b.runCommand sizeBody = b.clearPortLog.failWith .badArgument := by
  have h0 := acquire_raise (b := b.clearPortLog) h
  simp only [runCommand, sizeBody, h0, Res.andThen_raise]
  rfl

theorem run_count {b : Block W} (h : b.HasNumber) :
    b.runCommand countBody =
      ((countDigits b.operandView b.operandSize 0 0 b.acquired).2.scalarResult
        (countDigits b.operandView b.operandSize 0 0 b.acquired).1).finish := by
  have h0 := acquire_ok (b := b.clearPortLog) h
  have hv : b.clearPortLog.operandView = b.operandView := rfl
  simp only [runCommand, countBody, h0, Res.andThen_ok, hv, operandView_size]
  rfl

theorem run_count_raise {b : Block W} (h : ¬ b.HasNumber) :
    b.runCommand countBody = b.clearPortLog.failWith .badArgument := by
  have h0 := acquire_raise (b := b.clearPortLog) h
  simp only [runCommand, countBody, h0, Res.andThen_raise]
  rfl

/-- What the four bit operations do once the prologue has passed, by the index (R171, R173, R175, R179). -/
theorem run_of_prologue {b : Block W} (h : b.HasNumber) (hn : b.HasIndex) (hs : ¬ b.Negative)
    (g : View × Index → Block W → Res W Unit) :
    b.runCommand (fun c => c.bitOpPrologue.andThen g) =
      match g (b.operandView, b.indexOf) b.acquired with
      | .ok _ t => t.finish
      | .raise e t => t.failWith e := by
  have h0 := prologue_ok (b := b.clearPortLog) h hn hs
  simp only [runCommand, h0, Res.andThen_ok]
  rfl

theorem run_of_prologue_raise {b : Block W} (h : ¬ (b.HasNumber ∧ b.HasIndex ∧ ¬ b.Negative))
    (g : View × Index → Block W → Res W Unit) :
    ∃ t, b.runCommand (fun c => c.bitOpPrologue.andThen g) = t.failWith .badArgument ∧
      (t = b.clearPortLog ∨ t = b.acquired) := by
  obtain ⟨t, ht, h'⟩ := prologue_raise (b := b.clearPortLog) h
  refine ⟨t, ?_, h'⟩
  simp only [runCommand, ht, Res.andThen_raise]
  rfl

/-! ### What each way of ending leaves -/

theorem scalar_end {b t : Block W} (hr : ReadsOnly b.acquired t) (hk : b.wkind = .none) {v : Nat}
    (hv : v < 2 ^ W.bits) :
    (t.scalarResult v).finish.ScalarDone v ∧ b.InputsKept (t.scalarResult v).finish ∧
      b.StorageKept (t.scalarResult v).finish := by
  obtain ⟨w, hw⟩ := acquired_eq b
  obtain ⟨n, l, rfl⟩ := hr
  rw [hw]
  refine ⟨⟨rfl, rfl, rfl, rfl, hk, ?_, rfl⟩, ⟨rfl, rfl, rfl, rfl, rfl, rfl, rfl, rfl, rfl, rfl, rfl, rfl, rfl⟩,
    ⟨rfl, rfl, rfl, rfl, rfl, rfl, rfl, rfl, rfl⟩⟩
  simp [scalarResult, finish, Nat.mod_eq_of_lt hv]

theorem original_end {b : Block W} :
    b.InputsKept b.acquired.originalResult.finish ∧ b.StorageKept b.acquired.originalResult.finish := by
  obtain ⟨w, hw⟩ := acquired_eq b
  rw [hw]
  exact ⟨⟨rfl, rfl, rfl, rfl, rfl, rfl, rfl, rfl, rfl, rfl, rfl, rfl, rfl⟩, ⟨rfl, rfl, rfl, rfl, rfl, rfl, rfl, rfl, rfl⟩⟩

theorem fail_end {b t : Block W} (ht : t = b.clearPortLog ∨ t = b.acquired) (hk : b.wkind = .none) (e : CmdError) :
    (t.failWith e).FailedWith (errorCode e) ∧ b.InputsKept (t.failWith e) ∧ b.StorageKept (t.failWith e) := by
  have : ∃ v, t = b.clearPortLog.setAcqd v := by
    rcases ht with rfl | rfl
    · exact ⟨b.acqd, rfl⟩
    · exact acquired_eq b
  obtain ⟨v, rfl⟩ := this
  exact ⟨⟨rfl, rfl, ⟨rfl, rfl, rfl, rfl⟩, hk⟩, ⟨rfl, rfl, rfl, rfl, rfl, rfl, rfl, rfl, rfl, rfl, rfl, rfl, rfl⟩,
    ⟨rfl, rfl, rfl, rfl, rfl, rfl, rfl, rfl, rfl⟩⟩

/-! ### The sizes of scalar results (R9, R202, R234) -/

theorem legal_bound {p : Params} (h : p.legal W = true) {n : Nat} (hn : n ≤ p.maxDigits) :
    n * W.bits < 2 ^ W.bits := by
  simp only [Params.legal, Bool.and_eq_true, decide_eq_true_eq] at h
  have h1 : n ≤ (2 ^ W.bits - 1) / W.bits := Nat.le_trans hn h.2
  have h2 : n * W.bits ≤ 2 ^ W.bits - 1 := (Nat.le_div_iff_mul_le W.bits_pos).mp h1
  have h3 : 0 < 2 ^ W.bits := Nat.two_pow_pos _
  omega

theorem bitlen_le (d : Word W) : bitlen d ≤ W.bits := by
  unfold bitlen
  split
  · exact Nat.zero_le _
  · next h => exact (Nat.log2_lt h).mpr d.isLt

theorem popcount_le (d : Word W) : popcount d ≤ W.bits := by
  unfold popcount
  exact Nat.le_trans List.countP_le_length (by simp)

theorem operandSize_le {b : Block W} (hl : b.params.legal W = true) (h : b.HasNumber) :
    b.operandSize ≤ b.params.maxDigits := by
  simp only [Params.legal, Bool.and_eq_true, decide_eq_true_eq] at hl
  unfold operandSize
  rcases h with h | ⟨h, h1, h2, -⟩ <;> simp [h]
  · exact hl.1
  · exact h2

theorem bitLength_lt {b : Block W} (hl : b.params.legal W = true) (h : b.HasNumber) (d : Word W) :
    (b.operandSize - 1) * W.bits + bitlen d < 2 ^ W.bits := by
  have h1 := legal_bound hl (operandSize_le hl h)
  have h2 := bitlen_le d
  have h3 := operandSize_pos h
  have h4 : (b.operandSize - 1) * W.bits + W.bits = b.operandSize * W.bits := by
    rw [← Nat.succ_mul, Nat.succ_eq_add_one, Nat.sub_add_cancel h3]
  omega

/-! ### COUNT's loop -/

theorem countDigits_readsOnly (v : View) (k i c : Nat) (b : Block W) :
    ReadsOnly b (countDigits v k i c b).2 := by
  induction k generalizing i c b with
  | zero => exact .refl b
  | succ k ih => exact (readsOnly_digit b v i).trans (ih _ _ _)

theorem countDigits_le (v : View) (k i c : Nat) (b : Block W) :
    (countDigits v k i c b).1 ≤ c + k * W.bits := by
  induction k generalizing i c b with
  | zero => simp [countDigits]
  | succ k ih =>
    have h1 := ih (i + 1) (c + popcount (b.digit v i).1) (b.digit v i).2
    have h2 := popcount_le (b.digit v i).1
    have h3 : (k + 1) * W.bits = k * W.bits + W.bits := Nat.succ_mul _ _
    show (countDigits v k (i + 1) _ _).1 ≤ _
    omega

/-- The loop adds the counts of the digits it reads (R230). -/
theorem countDigits_eq (v : View) (k i c : Nat) (b : Block W) (hs : b.ViewSettled v) (hk : i + k ≤ v.size) :
    (countDigits v k i c b).1 =
      c + ((List.range' i k).map (fun j => popcount (b.viewDigit v j))).sum := by
  induction k generalizing i c b with
  | zero => simp [countDigits]
  | succ k ih =>
    have hr := readsOnly_digit b v i
    show (countDigits v k (i + 1) _ _).1 = _
    rw [ih (i + 1) _ _ (hr.viewSettled hs) (by omega), digit_fst hs (by omega), List.range'_succ, List.map_cons,
      List.sum_cons]
    simp only [hr.viewDigit]
    omega

/-! ### A completed edit -/

/-- From the buffer obtained to the end of the command: what can have changed. -/
def EditEnd (c t : Block W) : Prop :=
  ∃ inl mem rel n l form val size,
    t = { c with
      inl := inl, mem := mem, released := rel, draws := n, portLog := l, rform := form, rsign := false,
      rval := val, rsize := size, err := .none, phase := .done }

/-- The end of SET, in-range CLEAR and TOGGLE: the result is normalised and denotes the edited buffer. -/
theorem edited_end {c : Block W} {v : View} {n bn : Nat} (f : Word W → Nat → Word W) (hr : c.WorkReady)
    (hwn : c.wn = n) (hv : v.size ≤ n) (hd : digitIndex W bn < n) (hn : n < 2 ^ W.bits) :
    EditEnd c ((c.edited v n bn f).normalize false).finish ∧
      ((c.edited v n bn f).normalize false).finish.ResultOk ∧
      (∀ i, ((c.edited v n bn f).normalize false).finish.wbufDigit i = (c.edited v n bn f).wbufDigit i) ∧
      ((c.edited v n bn f).normalize false).finish.mem = (c.edited v n bn f).mem ∧
      ((c.edited v n bn f).normalize false).finish.released = (c.edited v n bn f).released := by
  obtain ⟨hf, -⟩ := edited_spec f hr hwn hv hd
  obtain ⟨t, k, ht, hk1, hk2, hz, h⟩ := edited_normalize f hr hwn hv hd
  have hkind : (c.edited v n bn f).wkind ≠ .none := by
    rw [hf.only.wkind]
    rcases hr.2 with ⟨h, -⟩ | h <;> rw [h] <;> decide
  have hwn' : (c.edited v n bn f).wn = n := by rw [hf.only.wn, hwn]
  obtain ⟨inl, mem, rel, dr, l, heq⟩ := hf.only
  obtain ⟨dr', l', rfl⟩ := ht
  rcases h with ⟨rfl, h⟩ | ⟨hk, htop, h⟩
  · rw [h]
    refine ⟨⟨inl, mem, rel, dr', l', .compact, (c.edited v n bn f).wbufDigit 0, 1, ?_⟩, ?_, fun i => rfl, rfl, rfl⟩
    · rw [heq]; rfl
    · refine ⟨rfl, rfl, hkind, rfl, fun i h1 h2 => hz i h1 ?_⟩
      rw [← hwn']; exact h2
  · rw [h]
    have hsize : (BitVec.ofNat W.bits k).toNat = k := by
      rw [BitVec.toNat_ofNat]; exact Nat.mod_eq_of_lt (by omega)
    refine ⟨⟨inl, mem, rel, dr', l', .digits, 0, BitVec.ofNat W.bits k, ?_⟩, ?_, fun i => rfl, rfl, rfl⟩
    · rw [heq]; rfl
    · refine ⟨rfl, rfl, hkind, ?_, ?_, ?_, ?_⟩
      · show 2 ≤ (BitVec.ofNat W.bits k).toNat
        rw [hsize]; exact hk
      · show (BitVec.ofNat W.bits k).toNat ≤ (c.edited v n bn f).wn
        rw [hsize, hwn']; exact hk2
      · show (c.edited v n bn f).wbufDigit ((BitVec.ofNat W.bits k).toNat - 1) ≠ 0
        rw [hsize]; exact htop
      · intro i h1 h2
        change (BitVec.ofNat W.bits k).toNat ≤ i at h1
        change i < (c.edited v n bn f).wn at h2
        rw [hsize] at h1
        rw [hwn'] at h2
        exact hz i h1 h2

theorem rawAnswer_congr {b c : Block W} (h1 : c.answers = b.answers) (h2 : c.draws = b.draws) :
    c.rawAnswer = b.rawAnswer := by
  unfold rawAnswer
  rw [h1, h2]

theorem acquired_allocAnswer (b : Block W) (o : Option Region) (n : Nat) :
    b.acquired.allocAnswer o n = b.allocAnswer o n := by
  obtain ⟨v, hv⟩ := acquired_eq b
  have h1 : b.acquired.rawAnswer = b.rawAnswer := by rw [hv]; exact rawAnswer_congr rfl rfl
  have h2 : b.acquired.admissible o n = b.admissible o n := by rw [hv]; rfl
  simp only [allocAnswer, h1, h2]

@[simp] theorem acquired_params (b : Block W) : b.acquired.params = b.params := by
  obtain ⟨v, hv⟩ := acquired_eq b
  rw [hv]; rfl

/-- The four ways of obtaining a buffer, from the block before the command (R140 to R143). -/
theorem acquired_obtained (b : Block W) (n : Nat) :
    Obtained b.acquired b.operandView n (b.acquired.obtainBuffer b.operandView n) :=
  obtainBuffer_obtained _ _ _

theorem legal_lt {p : Params} (h : p.legal W = true) {n : Nat} (hn : n ≤ p.maxDigits) : n < 2 ^ W.bits := by
  have h1 := legal_bound h hn
  have h2 := W.bits_pos
  have h3 : n ≤ n * W.bits := Nat.le_mul_of_pos_right _ h2
  omega

theorem growSize_needed (b : Block W) :
    growSize b.operandView (digitIndex W b.nval.toNat + 1) = b.neededDigits := by
  simp [growSize, neededDigits, digitIndex]

/-- The end of a command that comes to edit a bit. -/
def editRun (b : Block W) (f : Word W → Nat → Word W) : Block W :=
  match b.acquired.editBit b.operandView b.nval.toNat f with
  | .ok _ t => t.finish
  | .raise e t => t.failWith e

/-- The three ways it ends: no buffer of that size, none granted, or the edit done (R173, R175, R179). -/
inductive EditOutcome (b : Block W) (f : Word W → Nat → Word W) : Block W → Prop where
  | tooLarge (h : b.params.maxDigits < b.neededDigits) :
    EditOutcome b f (b.acquired.failWith .allocationFailure)
  | refused (h : b.neededDigits ≤ b.params.maxDigits) (hn : inlineThreshold ≤ b.neededDigits)
    (ha : b.allocAnswer b.operandRegion b.neededDigits = .fail) :
    EditOutcome b f ((b.acquired.afterAlloc b.operandRegion b.neededDigits).failWith .allocationFailure)
  | inline (h : b.neededDigits ≤ b.params.maxDigits) (hn : b.neededDigits < inlineThreshold) :
    EditOutcome b f (((b.acquired.setWork .inline b.hbase b.neededDigits).edited b.operandView b.neededDigits
      b.nval.toNat f).normalize false).finish
  | heap (base : Word W) (h : b.neededDigits ≤ b.params.maxDigits) (hn : inlineThreshold ≤ b.neededDigits)
    (ha : b.allocAnswer b.operandRegion b.neededDigits = .ok base) :
    EditOutcome b f (((((b.acquired.afterAlloc b.operandRegion b.neededDigits).addLive
      ⟨base.toNat, b.neededDigits⟩).setWork .heap base b.neededDigits).edited b.operandView b.neededDigits
      b.nval.toNat f).normalize false).finish

theorem editRun_outcome (b : Block W) (f : Word W → Nat → Word W) : EditOutcome b f (b.editRun f) := by
  have h := acquired_obtained b b.neededDigits
  unfold editRun
  rw [editBit_eq, growSize_needed]
  have hb : b.acquired.hbase = b.hbase := by
    obtain ⟨v, hv⟩ := acquired_eq b
    rw [hv]; rfl
  revert h
  generalize b.acquired.obtainBuffer b.operandView b.neededDigits = r
  intro h
  cases h with
  | tooLarge h => exact .tooLarge (by simpa using h)
  | inline h hn => rw [hb]; exact .inline (by simpa using h) hn
  | refused h hn ha =>
    rw [operandView_region, acquired_allocAnswer] at ha
    rw [operandView_region]
    exact .refused (by simpa using h) hn ha
  | heap base h hn ha =>
    rw [operandView_region, acquired_allocAnswer] at ha
    rw [operandView_region]
    exact .heap base (by simpa using h) hn ha

/-- What a completed edit leaves of the buffer it was made in, `c`. -/
structure EditedFrom (b c t : Block W) (f : Word W → Nat → Word W) : Prop where
  fin : EditEnd c t
  result : t.ResultOk
  memWf : t.mem.wf
  releasedSubset : ∀ a, a ∈ t.released → a ∈ c.released
  taken : c.wkind = .heap → ∀ j, j < b.neededDigits → c.hbase.toNat + j ∉ t.released
  outside : ∀ key, (c.wkind = .heap → ∀ j, j < b.neededDigits → key / W.bytes ≠ c.hbase.toNat + j) →
    readByte t.mem key = readByte c.mem key
  digitsOutside : ∀ a, (c.wkind = .heap → ∀ j, j < b.neededDigits → a ≠ c.hbase.toNat + j) →
    t.digitAt a = c.digitAt a
  inlineMem : c.wkind = .inline → t.mem = c.mem ∧ t.released = c.released
  digits : b.Settled → ∀ i, i < b.neededDigits → t.wbufDigit i =
    if i = b.nval.toNat / W.bits then f (b.grownDigit i) (b.nval.toNat % W.bits) else b.grownDigit i

theorem digit_mem (b : Block W) (v : View) (i : Nat) :
    (b.digit v i).2.mem = b.mem ∧ (b.digit v i).2.released = b.released ∧ (b.digit v i).2.wkind = b.wkind :=
  ⟨(readsOnly_digit b v i).eqs.2.1, (readsOnly_digit b v i).eqs.2.2.1, (readsOnly_digit b v i).eqs.2.2.2.1⟩

theorem copyDigits_inline (v : View) (k i : Nat) (c : Block W) (hk : c.wkind = .inline) :
    (copyDigits v k i c).mem = c.mem ∧ (copyDigits v k i c).released = c.released := by
  induction k generalizing i c with
  | zero => exact ⟨rfl, rfl⟩
  | succ k ih =>
    obtain ⟨h1, h2, h3⟩ := digit_mem c v i
    have h4 : (c.digit v i).2.wkind = .inline := by rw [h3, hk]
    have h5 : ((c.digit v i).2.wbufWrite i (c.digit v i).1).wkind = .inline := by
      rw [(bufferOnly_wbufWrite _ _ _).wkind, h4]
    obtain ⟨h6, h7⟩ := ih (i + 1) _ h5
    have h8 : ((c.digit v i).2.wbufWrite i (c.digit v i).1).mem = (c.digit v i).2.mem := by simp [wbufWrite, h4]
    have h9 : ((c.digit v i).2.wbufWrite i (c.digit v i).1).released = (c.digit v i).2.released := by
      simp [wbufWrite, h4]
    exact ⟨h6.trans (h8.trans h1), h7.trans (h9.trans h2)⟩

theorem zeroFill_inline (k i : Nat) (c : Block W) (hk : c.wkind = .inline) :
    (zeroFill k i c).mem = c.mem ∧ (zeroFill k i c).released = c.released := by
  induction k generalizing i c with
  | zero => exact ⟨rfl, rfl⟩
  | succ k ih =>
    have h5 : (c.wbufWrite i 0).wkind = .inline := by rw [(bufferOnly_wbufWrite _ _ _).wkind, hk]
    obtain ⟨h6, h7⟩ := ih (i + 1) _ h5
    have h8 : (c.wbufWrite i 0).mem = c.mem := by simp [wbufWrite, hk]
    have h9 : (c.wbufWrite i 0).released = c.released := by simp [wbufWrite, hk]
    exact ⟨h6.trans h8, h7.trans h9⟩

theorem edited_inline {c : Block W} (hk : c.wkind = .inline) (v : View) (n bn : Nat) (f : Word W → Nat → Word W) :
    (c.edited v n bn f).mem = c.mem ∧ (c.edited v n bn f).released = c.released := by
  have h1 := copyDigits_inline v v.size 0 c hk
  have hk1 : (copyDigits v v.size 0 c).wkind = .inline := by
    have : ∀ (k i : Nat) (c : Block W), c.wkind = .inline → (copyDigits v k i c).wkind = .inline := by
      intro k
      induction k with
      | zero => exact fun _ _ h => h
      | succ k ih =>
        intro i c h
        refine ih (i + 1) _ ?_
        rw [(bufferOnly_wbufWrite _ _ _).wkind, (digit_mem c v i).2.2, h]
    exact this _ _ _ hk
  have h2 := zeroFill_inline (n - v.size) v.size _ hk1
  have hk2 : (c.grown v n).wkind = .inline := by
    have : ∀ (k i : Nat) (c : Block W), c.wkind = .inline → (zeroFill k i c).wkind = .inline := by
      intro k
      induction k with
      | zero => exact fun _ _ h => h
      | succ k ih =>
        intro i c h
        refine ih (i + 1) _ ?_
        rw [(bufferOnly_wbufWrite _ _ _).wkind, h]
    exact this _ _ _ hk1
  have hr := readsOnly_wbufRead (c.grown v n) (digitIndex W bn)
  have hk3 : ((c.grown v n).wbufRead (digitIndex W bn)).2.wkind = .inline := by rw [hr.eqs.2.2.2.1, hk2]
  refine ⟨?_, ?_⟩
  · have : (c.edited v n bn f).mem = ((c.grown v n).wbufRead (digitIndex W bn)).2.mem := by
      simp [edited, wbufWrite, hk3]
    rw [this, hr.eqs.2.1]
    exact h2.1.trans h1.1
  · have : (c.edited v n bn f).released = ((c.grown v n).wbufRead (digitIndex W bn)).2.released := by
      simp [edited, wbufWrite, hk3]
    rw [this, hr.eqs.2.2.1]
    exact h2.2.trans h1.2

/-- The buffer a command edits in: the block after the operands are acquired, with a buffer of the needed size
that shares no digit with the operand region. -/
structure BufferFor (b c : Block W) : Prop where
  ready : c.WorkReady
  wn : c.wn = b.neededDigits
  apart : c.ViewApart b.operandView
  mem : c.mem = b.mem
  params : c.params = b.params
  released : c.released = b.released
  acqd : c.acqd = b.acquired.acqd

theorem editedFrom {b c : Block W} (hx : b.HasNumber) (hn : b.neededDigits < 2 ^ W.bits) (h : BufferFor b c)
    (f : Word W → Nat → Word W) :
    EditedFrom b c ((c.edited b.operandView b.neededDigits b.nval.toNat f).normalize false).finish f := by
  have hv : b.operandView.size ≤ b.neededDigits := by
    rw [operandView_size]; exact Nat.le_max_right _ _
  have hd : digitIndex W b.nval.toNat < b.neededDigits := Nat.lt_of_lt_of_le (Nat.lt_succ_self _) (Nat.le_max_left _ _)
  obtain ⟨hf, hdig⟩ := edited_spec f h.ready h.wn hv hd
  obtain ⟨e1, e2, e3, e4, e5⟩ := edited_end f h.ready h.wn hv hd hn
  have hpar : ∀ t : Block W, EditEnd c t → t.params = c.params := by
    rintro t ⟨_, _, _, _, _, _, _, _, rfl⟩; rfl
  have hdigAt : ∀ (s t : Block W), t.mem = s.mem → t.params = s.params → ∀ a, t.digitAt a = s.digitAt a := by
    intro s t h1 h2 a
    unfold digitAt
    rw [h1, h2]
  refine ⟨e1, e2, ?_, ?_, ?_, ?_, ?_, ?_, ?_⟩
  · rw [e4]; exact hf.memWf
  · intro a ha
    rw [e5] at ha
    exact hf.releasedSubset a ha
  · intro hk j hj
    rw [e5]
    exact hf.taken hk j (by omega) (by omega)
  · intro key hkey
    rw [e4]
    exact hf.outside key (fun hk j _ h2 => hkey hk j (by omega))
  · intro a ha
    rw [hdigAt _ _ e4 ((hpar _ e1).trans hf.only.params.symm)]
    exact hf.digitsOutside a (fun hk j _ h2 => ha hk j (by omega))
  · intro hk
    rw [e4, e5]
    exact edited_inline hk _ _ _ _
  · intro hs i hi
    have hvs : c.ViewSettled b.operandView := by
      intro base hb j hj
      rw [h.released]
      have := acquired_viewSettled hx hs base hb j hj
      obtain ⟨w, hw⟩ := acquired_eq b
      rw [hw] at this
      exact this
    have hvd : ∀ j, c.viewDigit b.operandView j = b.operandDigit j := by
      intro j
      rw [← acquired_viewDigit hx j]
      obtain ⟨w, hw⟩ := acquired_eq b
      unfold viewDigit
      split
      · exact h.acqd
      · apply hdigAt
        · rw [h.mem, hw]; rfl
        · rw [h.params, hw]; rfl
    rw [e3, hdig i hi]
    have hg := grown_digit h.ready h.wn hvs h.apart hv i hi
    rw [hg, hvd, operandView_size]
    rfl

theorem bufferFor_inline {b : Block W} (hi : b.mem.wf) (hn : b.neededDigits < inlineThreshold) :
    BufferFor b (b.acquired.setWork .inline b.hbase b.neededDigits) := by
  obtain ⟨w, hw⟩ := acquired_eq b
  refine ⟨⟨?_, .inl ⟨rfl, ?_⟩⟩, rfl, ?_, ?_, ?_, ?_, rfl⟩
  · rw [hw]; exact hi
  · show b.neededDigits ≤ 4
    unfold inlineThreshold at hn; omega
  · intro hk; simp at hk
  · rw [hw]; rfl
  · rw [hw]; rfl
  · rw [hw]; rfl

theorem bufferFor_heap {b : Block W} (hi : b.mem.wf) {base : Word W}
    (ha : b.allocAnswer b.operandRegion b.neededDigits = .ok base) :
    BufferFor b (((b.acquired.afterAlloc b.operandRegion b.neededDigits).addLive
      ⟨base.toNat, b.neededDigits⟩).setWork .heap base b.neededDigits) := by
  obtain ⟨w, hw⟩ := acquired_eq b
  have hadm := allocAnswer_admissible ha
  refine ⟨⟨?_, .inr rfl⟩, rfl, ?_, ?_, ?_, ?_, ?_⟩
  · rw [hw]; simpa [afterAlloc] using hi
  · intro _ vb hvb i hi' j hj
    have hr : b.operandRegion = some ⟨vb, b.operandView.size⟩ := by
      rw [← operandView_region]; simp [View.region?, hvb]
    rw [hr] at hadm
    simp only [admissible, Bool.and_eq_true] at hadm
    exact Region.disjoint_apart hadm.1.2 hi' hj
  · rw [hw]; simp [afterAlloc]
  · rw [hw]; simp [afterAlloc]
  · rw [hw]; simp [afterAlloc]
  · simp [afterAlloc]

/-- SET on accepted operands and a VALUE index is the edit (R173). -/
theorem run_set {b : Block W} (h : b.BitOpReady) : b.runCommand setBody = b.editRun setBit := by
  have h2 : b.nkind ≠ 2 := by rw [h.2.2]; decide
  refine (run_of_prologue h.1 (.inl h.2.2) h.2.1 _).trans ?_
  simp only [indexOf, h2, if_false]
  rfl

theorem run_toggle {b : Block W} (h : b.BitOpReady) : b.runCommand toggleBody = b.editRun toggleBit := by
  have h2 : b.nkind ≠ 2 := by rw [h.2.2]; decide
  refine (run_of_prologue h.1 (.inl h.2.2) h.2.1 _).trans ?_
  simp only [indexOf, h2, if_false]
  rfl

theorem run_clear {b : Block W} (h : b.BitOpReady) (hr : b.nval.toNat / W.bits < b.operandSize) :
    b.runCommand clearBody = b.editRun clearBit := by
  have h2 : b.nkind ≠ 2 := by rw [h.2.2]; decide
  refine (run_of_prologue h.1 (.inl h.2.2) h.2.1 _).trans ?_
  have : ¬ b.operandView.size < digitIndex W b.nval.toNat + 1 := by
    rw [operandView_size]; unfold digitIndex; omega
  simp only [indexOf, h2, if_false, this]
  rfl

/-- Out of range, or HUGE, CLEAR is the operand itself (R176). -/
theorem run_clear_original {b : Block W} (h : b.HasNumber) (hn : b.HasIndex) (hs : ¬ b.Negative)
    (hr : b.nkind = 2 ∨ b.operandSize < b.nval.toNat / W.bits + 1) :
    b.runCommand clearBody = b.acquired.originalResult.finish := by
  refine (run_of_prologue h hn hs _).trans ?_
  by_cases h2 : b.nkind = 2
  · simp only [indexOf, h2, if_true]
  · have : b.operandView.size < digitIndex W b.nval.toNat + 1 := by
      rw [operandView_size]; unfold digitIndex; omega
    simp only [indexOf, h2, if_false, this, if_true]

/-- A HUGE index makes SET and TOGGLE fail with no call of the allocator (R162). -/
theorem run_set_huge {b : Block W} (h : b.HasNumber) (hn : b.nkind = 2) (hs : ¬ b.Negative) :
    b.runCommand setBody = b.acquired.failWith .allocationFailure := by
  refine (run_of_prologue h (.inr hn) hs _).trans ?_
  simp only [indexOf, hn, if_true]

theorem run_toggle_huge {b : Block W} (h : b.HasNumber) (hn : b.nkind = 2) (hs : ¬ b.Negative) :
    b.runCommand toggleBody = b.acquired.failWith .allocationFailure := by
  refine (run_of_prologue h (.inr hn) hs _).trans ?_
  simp only [indexOf, hn, if_true]

/-- A bit operation whose operands the prologue rejects (R170). -/
theorem run_rejected {b : Block W} (h : ¬ (b.HasNumber ∧ b.HasIndex ∧ ¬ b.Negative)) (op : PendingOp)
    (ho : op = .test ∨ op = .set ∨ op = .clear ∨ op = .toggle) :
    ∃ t, exec op.instr ⟨W, b⟩ = .next ⟨W, t.failWith .badArgument⟩ ∧ (t = b.clearPortLog ∨ t = b.acquired) := by
  rcases ho with rfl | rfl | rfl | rfl <;>
    (obtain ⟨t, ht, h'⟩ := run_of_prologue_raise h _
     exact ⟨t, congrArg (fun x => Host.Outcome.next (⟨W, x⟩ : State)) ht, h'⟩)

/-! ### Everything a core step can do -/

/-- The operations with an index operand (R91). -/
def bitOp : PendingOp → Bool
  | .size => false
  | .test => true
  | .set => true
  | .clear => true
  | .toggle => true
  | .count => false

/-- The operands are accepted: no cause of BadArgument holds (R281). -/
def Accepted (b : Block W) (op : PendingOp) : Prop :=
  b.HasNumber ∧ (bitOp op = true → b.HasIndex ∧ ¬ b.Negative)

/-- How a command that edits a bit does it. -/
def editOf : PendingOp → Option (Word W → Nat → Word W)
  | .size => none
  | .test => none
  | .set => some setBit
  | .clear => some clearBit
  | .toggle => some toggleBit
  | .count => none

/-- The core step of a command, by cases (R252). -/
inductive Ended (b : Block W) (op : PendingOp) : Block W → Prop where
  | rejected (c : Block W) (h : ¬ b.Accepted op) (hc : c = b.clearPortLog ∨ c = b.acquired) :
    Ended b op (c.failWith .badArgument)
  | scalar (c : Block W) (v : Nat) (h : b.Accepted op) (ho : op = .size ∨ op = .test ∨ op = .count)
    (hc : ReadsOnly b.acquired c) (hv : v < 2 ^ W.bits) : Ended b op (c.scalarResult v).finish
  | original (h : b.Accepted op) (ho : op = .clear)
    (hr : b.nkind = 2 ∨ b.operandSize < b.nval.toNat / W.bits + 1) : Ended b op b.acquired.originalResult.finish
  | huge (h : b.Accepted op) (ho : op = .set ∨ op = .toggle) (hn : b.nkind = 2) :
    Ended b op (b.acquired.failWith .allocationFailure)
  | edit (f : Word W → Nat → Word W) (t : Block W) (h : b.BitOpReady) (ho : editOf op = some f)
    (hr : op = .clear → b.nval.toNat / W.bits < b.operandSize) (ht : EditOutcome b f t) : Ended b op t

theorem exec_ended {b : Block W} (hl : b.params.legal W = true) (op : PendingOp) :
    ∃ t, exec op.instr ⟨W, b⟩ = .next ⟨W, t⟩ ∧ Ended b op t := by
  have nx : ∀ {a c : Block W}, a = c →
      (Host.Outcome.next (⟨W, a⟩ : State) : Host.Outcome State Fault Refusal) = .next ⟨W, c⟩ := by
    rintro a _ rfl; rfl
  have h1 : (1 : Nat) < 2 ^ W.bits := by cases W <;> decide
  have hbit : ∀ x : Bool, x.toNat < 2 ^ W.bits := by
    intro x; cases x <;> first | exact h1 | exact Nat.lt_trans Nat.one_pos h1
  by_cases ha : b.Accepted op
  · have hx := ha.1
    by_cases hsz : op = .size
    · subst hsz
      exact ⟨_, nx (run_size hx), .scalar _ _ ha (.inl rfl) (readsOnly_digit _ _ _) (bitLength_lt hl hx _)⟩
    by_cases hco : op = .count
    · subst hco
      refine ⟨_, nx (run_count hx), .scalar _ _ ha (.inr (.inr rfl)) (countDigits_readsOnly _ _ _ _ _) ?_⟩
      exact Nat.lt_of_le_of_lt (by simpa using countDigits_le b.operandView b.operandSize 0 0 b.acquired)
        (legal_bound hl (operandSize_le hl hx))
    have hbo : bitOp op = true := by cases op <;> simp_all [bitOp]
    obtain ⟨hn, hs⟩ := ha.2 hbo
    have hready : b.nkind ≠ 2 → b.BitOpReady := fun h2 => ⟨hx, hs, hn.resolve_right h2⟩
    cases op with
    | size => exact absurd rfl hsz
    | count => exact absurd rfl hco
    | test =>
      have hr := run_of_prologue hx hn hs (fun o b1 => match o.2 with
        | .huge => .ok () (b1.scalarResult 0)
        | .value bn =>
          if o.1.size ≤ digitIndex W bn then .ok () (b1.scalarResult 0)
          else
            let r := b1.digit o.1 (digitIndex W bn)
            .ok () (r.2.scalarResult (r.1.getLsbD (bitOffset W bn)).toNat))
      refine ⟨_, nx hr, ?_⟩
      by_cases h2 : b.nkind = 2
      · simp only [indexOf, h2, if_true]
        exact .scalar _ _ ha (.inr (.inl rfl)) (.refl _) (by omega)
      · simp only [indexOf, h2, if_false]
        by_cases hz : b.operandView.size ≤ digitIndex W b.nval.toNat
        · simp only [hz, if_true]
          exact .scalar _ _ ha (.inr (.inl rfl)) (.refl _) (by omega)
        · simp only [hz, if_false]
          exact .scalar _ _ ha (.inr (.inl rfl)) (readsOnly_digit _ _ _) (hbit _)
    | set =>
      by_cases h2 : b.nkind = 2
      · exact ⟨_, nx (run_set_huge hx h2 hs), .huge ha (.inl rfl) h2⟩
      · exact ⟨_, nx (run_set (hready h2)), .edit _ _ (hready h2) rfl (by simp) (editRun_outcome _ _)⟩
    | toggle =>
      by_cases h2 : b.nkind = 2
      · exact ⟨_, nx (run_toggle_huge hx h2 hs), .huge ha (.inr rfl) h2⟩
      · exact ⟨_, nx (run_toggle (hready h2)), .edit _ _ (hready h2) rfl (by simp) (editRun_outcome _ _)⟩
    | clear =>
      by_cases hr : b.nkind = 2 ∨ b.operandSize < b.nval.toNat / W.bits + 1
      · exact ⟨_, nx (run_clear_original hx hn hs hr), .original ha rfl hr⟩
      · rw [not_or] at hr
        have hlt : b.nval.toNat / W.bits < b.operandSize := by
          have := hr.2
          generalize b.nval.toNat / W.bits = q at this ⊢
          omega
        exact ⟨_, nx (run_clear (hready hr.1) hlt), .edit _ _ (hready hr.1) rfl (fun _ => hlt) (editRun_outcome _ _)⟩
  · by_cases hbo : bitOp op = true
    · have hno : ¬ (b.HasNumber ∧ b.HasIndex ∧ ¬ b.Negative) := fun h => ha ⟨h.1, fun _ => h.2⟩
      obtain ⟨t, ht, h'⟩ := run_rejected hno op (by cases op <;> simp_all [bitOp])
      exact ⟨_, ht, .rejected t ha h'⟩
    · have hx : ¬ b.HasNumber := fun h => ha ⟨h, fun h' => absurd h' hbo⟩
      cases op with
      | size => exact ⟨_, nx (run_size_raise hx), .rejected _ ha (.inl rfl)⟩
      | count => exact ⟨_, nx (run_count_raise hx), .rejected _ ha (.inl rfl)⟩
      | test => exact absurd rfl hbo
      | set => exact absurd rfl hbo
      | clear => exact absurd rfl hbo
      | toggle => exact absurd rfl hbo

end Sys2Proof.Machine.Block
end

