-- ==== Sys2Proof/Laws/Encoder.lean ====
section
/-!
SUPPORT. What the host value behind the operand registers depends on, and that an accepted command keeps it (R261).
-/
namespace Sys2Proof.Machine

/-- A magnitude depends on its digits alone. -/
theorem mag_congr {W : Width} {d e : Nat → Nat} {k : Nat} (h : ∀ i, i < k → d i = e i) : mag W d k = mag W e k := by
  induction k with
  | zero => rfl
  | succ k ih => simp only [mag, h k (Nat.lt_succ_self k), ih fun i hi => h i (Nat.lt_succ_of_lt hi)]

namespace Block
variable {W : Width} {b c : Block W}

/-- The host value depends on the operand registers, `MAX_DIGITS` and the digits of the operand region alone. -/
theorem hostValue_congr (hp : b.params.maxDigits = c.params.maxDigits) (hx : b.xdesc = c.xdesc)
    (hs : b.xsize = c.xsize) (ha : b.xbase = c.xbase) (hi : b.ximm = c.ximm)
    (hd : b.xform = 2 → ∀ i, i < b.xsize.toNat → b.digitAt (b.xbase.toNat + i) = c.digitAt (b.xbase.toNat + i)) :
    b.hostValue = c.hostValue := by
  have hf : b.xform = c.xform := by simp only [xform, hx]
  have hv : b.operandValue = c.operandValue := by
    unfold operandValue
    by_cases h2 : b.xform = 2
    · rw [if_pos h2, if_pos (hf ▸ h2), ← hs, ← ha]
      simp only [xsign, hx]
      rw [mag_congr fun i hi => congrArg BitVec.toNat (hd h2 i hi)]
    · rw [if_neg h2, if_neg (hf ▸ h2), hi]
  simp only [hostValue, HasNumber, hf, hs, ha, hp, hv]

/-- A digit written outside the operand region does not change the host value. -/
theorem hostValue_putDigit {a : Nat} {d : Word W} (h : ∀ r, b.operandRegion = some r → r.has a = false) :
    (b.putDigit a d).hostValue = b.hostValue := by
  refine hostValue_congr rfl rfl rfl rfl rfl fun h2 i hi => ?_
  have hr := h ⟨b.xbase.toNat, b.xsize.toNat⟩ (if_pos h2)
  simp only [Region.has, Bool.and_eq_false_iff, decide_eq_false_iff_not] at hr
  exact readDigit_writeDigit_other W _ _ (by simp only [putDigit_xsize, putDigit_xbase] at hi ⊢; omega) _

/-- The release of a result leaves the host value as it was. -/
theorem hostValue_releaseResult : b.releaseResult.hostValue = b.hostValue := by
  cases hk : b.wkind <;> refine hostValue_congr ?_ ?_ ?_ ?_ ?_ fun _ _ _ => ?_ <;>
    simp [releaseResult, releaseBuffer, noResult, free, digitAt, hk]

/-- An accepted command's operand, and the value the host keeps, are those of its CMD write. -/
theorem hostValue_acceptCommand (op : PendingOp) :
    (b.acceptCommand op).hostValue = b.hostValue ∧ (b.acceptCommand op).decoded = b.hostValue :=
  ⟨hostValue_releaseResult, rfl⟩

end Block
end Sys2Proof.Machine
end

