-- ==== Sys2Proof/Laws/Interface.lean ====
section
/-!
SUPPORT. The register block on the bus (R20) and the steps of the host's register accesses (R97).
-/
namespace Sys2Proof.Machine
open Block

/-- R20: exactly the whole aligned words of the block are registers. -/
theorem busTarget_iff (W : Width) (p : Params) (addr size : Nat) (r : Reg) :
    busTarget W p addr size = .reg r ↔ (size = W.bytes ∧ addr = regAddr W p r) := by
  have hp := W.bytes_pos
  unfold busTarget regAddr
  constructor
  · intro h
    split at h
    · cases h
    · split at h
      · cases h
      · next h1 h2 =>
        simp only [not_or, Nat.not_lt, not_not, ne_eq] at h1 h2
        refine ⟨h2.2.1, ?_⟩
        split at h
        · next r' hr =>
          cases h
          have hk : (addr - p.blockBase) / W.bytes = r.num := by
            generalize (addr - p.blockBase) / W.bytes = k at hr
            revert hr; unfold Reg.ofNum; split <;> intro hr <;> cases hr <;> rfl
          have := Nat.div_add_mod (addr - p.blockBase) W.bytes
          rw [hk, h2.2.2] at this
          rw [Nat.mul_comm]
          omega
        · cases h
  · rintro ⟨rfl, rfl⟩
    have h16 : r.num < 16 := by cases r <;> decide
    have hm : r.num * W.bytes + W.bytes ≤ 16 * W.bytes := by
      rw [← Nat.succ_mul]; exact Nat.mul_le_mul_right _ h16
    rw [if_neg (by omega), if_neg]
    · rw [show p.blockBase + r.num * W.bytes - p.blockBase = r.num * W.bytes by omega, Nat.mul_div_cancel _ hp]
      cases r <;> rfl
    · rw [show p.blockBase + r.num * W.bytes - p.blockBase = r.num * W.bytes by omega, Nat.mul_mod_left]
      omega

theorem busTarget_reg (W : Width) (p : Params) (r : Reg) : busTarget W p (regAddr W p r) W.bytes = .reg r :=
  (busTarget_iff W p _ _ r).mpr ⟨rfl, rfl⟩

/-- A step on `WR` (R97) is the register write. -/
theorem step_wr {W : Width} {b : Block W} {r : Reg} {v : Word W} {rest : List (Move W)}
    (h : b.agenda = .host (.wr b.params r v) :: rest) :
    step ⟨W, b⟩ = hostWriteReg (b.setAgenda rest) r v := by
  simp only [step, h, HostMove.wr, hostTurn, setAgenda_params, busTarget_reg]

/-- A step on `RD` (R97) is the register read. -/
theorem step_rd {W : Width} {b : Block W} {r : Reg} {rest : List (Move W)}
    (h : b.agenda = .host (.rd W b.params r) :: rest) :
    step ⟨W, b⟩ = .next ⟨W, (b.setAgenda rest).afterRead r⟩ := by
  simp only [step, h, HostMove.rd, hostTurn, setAgenda_params, busTarget_reg]

end Sys2Proof.Machine
end

