-- ==== Sys2Proof/Laws/PerInstr.lean ====
section
/-!
SUPPORT. What holds of every command as syntax, one lemma per constructor (R90 to R92).
-/
namespace Sys2Proof.Laws.Encoding

/-- A command is well-formed; at both widths its word holds the OP in bits [3:0] and zeros above. -/
def Statement (i : Instr) : Prop :=
  i.wf = true ∧ opcode i < 16 ∧
    ∀ W : Width, (encode W i).toNat = opcode i ∧ (encode W i).extractLsb' 0 4 = BitVec.ofNat 4 (opcode i) ∧
      encode W i >>> 4 = 0

theorem size : Statement .size := ⟨rfl, by decide, fun W => by cases W <;> decide⟩

theorem test : Statement .test := ⟨rfl, by decide, fun W => by cases W <;> decide⟩

theorem set : Statement .set := ⟨rfl, by decide, fun W => by cases W <;> decide⟩

theorem clear : Statement .clear := ⟨rfl, by decide, fun W => by cases W <;> decide⟩

theorem toggle : Statement .toggle := ⟨rfl, by decide, fun W => by cases W <;> decide⟩

theorem count : Statement .count := ⟨rfl, by decide, fun W => by cases W <;> decide⟩

theorem release : Statement .release := ⟨rfl, by decide, fun W => by cases W <;> decide⟩

end Sys2Proof.Laws.Encoding
end

