-- ==== Sys2Proof/Tests/Slice0.lean ====
section
/-!
SUPPORT. The model's own tests: the smoke test of WellFormed, command words written out bit by bit from
30_encoding.md, one or two steps of each command with the results of 95_test_vectors.md, and for every statement
that has hypotheses a state that meets them. A witness is named after the statement it is for.
-/
namespace Sys2Proof.Tests
open Sys2Proof.Machine Sys2Proof.Machine.Block

/-! ### States -/

/-- A block in BUSY with the given operands, host memory, allocator answers, given-back addresses and agenda. -/
def busy (W : Width) (xdesc : BitVec 3) (xsize xbase ximm : Word W) (ndesc : BitVec 2) (nval : Word W)
    (mem : Memory) (answers : List (AllocAnswer W)) (released : List Nat) (agenda : List (Move W)) : Block W :=
  let b : Block W := { Block.resetWith W Params.standard mem with
    phase := .busy
    xdesc := xdesc
    xsize := xsize
    xbase := xbase
    ximm := ximm
    ndesc := ndesc
    nval := nval
    answers := answers
    released := released
    agenda := agenda }
  (b.setGuarded b.operandRegion).setDecoded b.hostValue

theorem busy_inv {W : Width} {xdesc : BitVec 3} {xsize xbase ximm : Word W} {ndesc : BitVec 2} {nval : Word W}
    {mem : Memory} {answers : List (AllocAnswer W)} {released : List Nat} {agenda : List (Move W)} (hm : mem.wf) :
    (busy W xdesc xsize xbase ximm ndesc nval mem answers released agenda).Inv where
  legal := (show Params.legal W Params.standard = true by cases W <;> decide)
  mem := hm
  liveDisjoint := List.Pairwise.nil
  liveBounds r hr := by cases hr
  work := ⟨rfl, rfl⟩
  quiet _ := ⟨rfl, ⟨rfl, rfl, rfl, rfl⟩, rfl⟩
  failed h := absurd rfl h
  result h := by cases h
  guard _ := rfl
  hostValue _ := rfl
  original h := by cases h

/-- No digit has been given back: such a block is settled. -/
theorem busy_settled {W : Width} {xdesc : BitVec 3} {xsize xbase ximm : Word W} {ndesc : BitVec 2} {nval : Word W}
    {mem : Memory} {answers : List (AllocAnswer W)} {agenda : List (Move W)} :
    (busy W xdesc xsize xbase ximm ndesc nval mem answers [] agenda).Settled :=
  fun _ _ _ => List.not_mem_nil

theorem empty_wf : Memory.wf [] := by decide

/-- `W = 64`, a COMPACT operand `x` and a VALUE index `n`; the allocator answers `ok(0x1000)`. -/
def compact (x n : Word .w64) : Block .w64 := busy .w64 1 0 0 x 1 n [] [.ok 0x1000] [] []

theorem compact_inv (x n : Word .w64) : (compact x n).Inv := busy_inv empty_wf

theorem compact_settled (x n : Word .w64) : (compact x n).Settled := busy_settled

/-- Host memory with the digits `ds` from digit address `a` up (`W = 64`, little-endian). -/
def digits : List (Word .w64) → Nat → Memory
  | [], _ => []
  | d :: ds, a => writeDigit .w64 .little (digits ds (a + 1)) a d

theorem digits_wf (ds : List (Word .w64)) (a : Nat) : (digits ds a).wf := by
  induction ds generalizing a with
  | nil => exact empty_wf
  | cons d ds ih => exact writeDigit_wf (ih (a + 1)) _ _ _ _

/-- `W = 64`, a DIGITS operand with digits `ds` at `0x100`, a VALUE index `n`; the answer `ok(0x1000)`. -/
def array (ds : List (Word .w64)) (n : Word .w64) : Block .w64 :=
  busy .w64 2 (BitVec.ofNat 64 ds.length) 0x100 0 1 n (digits ds 0x100) [.ok 0x1000] [] []

theorem array_inv (ds : List (Word .w64)) (n : Word .w64) : (array ds n).Inv := busy_inv (digits_wf ds _)

theorem array_settled (ds : List (Word .w64)) (n : Word .w64) : (array ds n).Settled := busy_settled

/-- The block after `SET #0, #192`: a heap result of four digits at `0x1000`. -/
def heldHeap : Block .w64 := { Block.resetWith .w64 Params.standard (digits [1] 0x1003) with
  phase := .done
  rform := .digits
  rsize := 4
  wkind := .heap
  hbase := 0x1000
  wn := 4
  live := [⟨0x1000, 4⟩]
  trace := [.alloc 4 (.ok 0x1000)] }

theorem heldHeap_inv : heldHeap.Inv where
  legal := by decide
  mem := digits_wf _ _
  liveDisjoint := List.pairwise_singleton _ _
  liveBounds r hr := by
    obtain rfl := List.mem_singleton.mp hr
    decide
  work := ⟨by decide, by decide, by decide, by decide, fun _ _ => List.not_mem_nil⟩
  quiet h := absurd rfl h
  failed h := absurd rfl h
  result _ _ := by
    refine ⟨rfl, rfl, by decide, by decide, by decide, by decide, ?_⟩
    intro i h1 h2
    exact absurd h2 (Nat.not_lt.mpr h1)
  guard h := by cases h
  hostValue h := by cases h
  original h := by cases h

theorem heldHeap_agenda_inv (l : List (Move .w64)) : (heldHeap.setAgenda l).Inv where
  legal := heldHeap_inv.legal
  mem := heldHeap_inv.mem
  liveDisjoint := heldHeap_inv.liveDisjoint
  liveBounds := heldHeap_inv.liveBounds
  work := heldHeap_inv.work
  quiet h := absurd rfl h
  failed h := absurd rfl h
  result := heldHeap_inv.result
  guard h := by cases h
  hostValue h := by cases h
  original h := by cases h

/-- STATUS and RVAL as the host reads them after a step that answers a next state. -/
def seen (o : Host.Outcome State Fault Refusal) : Option (Nat × Nat) :=
  match o with
  | .next s => some ((s.block.readReg .status).toNat, (s.block.readReg .rval).toNat)
  | .fault _ => none
  | .refused _ => none

/-- The result digits as the host reads them through RSEL and RDIG (R37). -/
def window (o : Host.Outcome State Fault Refusal) : Option (List Nat) :=
  match o with
  | .next s => some ((List.range s.block.rsize.toNat).map fun i =>
      (({ s.block with rsel := BitVec.ofNat _ i } : Block s.width).readReg .rdig).toNat)
  | .fault _ => none
  | .refused _ => none

/-- RBASE and how many events the allocator trace holds. -/
def traced (o : Host.Outcome State Fault Refusal) : Option (Nat × Nat) :=
  match o with
  | .next s => some ((s.block.readReg .rbase).toNat, s.block.trace.length)
  | .fault _ => none
  | .refused _ => none

/-! ### WellFormed: what each check refuses -/

/-- R9: MAX_DIGITS is at least 1. -/
theorem test_params_none : Params.legal .w64 { Params.standard with maxDigits := 0 } = false := by decide

/-- R9: MAX_DIGITS is at most `floor((2^W - 1) / W)`; `(2^32 - 1) / 32 = 134217727`. -/
theorem test_params_bound : Params.legal .w32 { Params.standard with maxDigits := 134217727 } = true ∧
    Params.legal .w32 { Params.standard with maxDigits := 134217728 } = false := by decide

/-- R96: a COMPACT operand's bounds. -/
theorem test_imm_bounds : (Asm.XOperand.imm (2 ^ 63)).wf .w64 = false ∧
    (Asm.XOperand.imm (-(2 ^ 63) - 1)).wf .w64 = false ∧ (Asm.XOperand.imm (2 ^ 63 - 1)).wf .w64 = true ∧
    (Asm.XOperand.imm (-(2 ^ 63))).wf .w64 = true := by decide

/-- R28, R29, R96: a DIGITS operand's base and size are `W`-bit. -/
theorem test_digits_bounds : (Asm.XOperand.digits false (2 ^ 32) 1).wf .w32 = false ∧
    (Asm.XOperand.digits true 0 (2 ^ 32)).wf .w32 = false ∧
    (Asm.XOperand.digits true (2 ^ 32 - 1) (2 ^ 32 - 1)).wf .w32 = true := by decide

/-- R96: a VALUE index is below `2^W`. -/
theorem test_val_bounds : (Asm.NOperand.val (2 ^ 64)).wf .w64 = false ∧
    (Asm.NOperand.val (2 ^ 64 - 1)).wf .w64 = true := by decide

/-- A line with one ill-formed operand is refused. -/
theorem test_line_refused : (Asm.Line.size (.imm (2 ^ 63))).wf .w64 = false ∧
    (Asm.Line.test .nan (.val (2 ^ 64))).wf .w64 = false ∧ (Asm.Line.set (.imm (2 ^ 63)) .huge).wf .w64 = false ∧
    (Asm.Line.clear .nan (.val (2 ^ 64))).wf .w64 = false ∧
    (Asm.Line.toggle (.imm (2 ^ 63)) .huge).wf .w64 = false ∧
    (Asm.Line.count (.digits false (2 ^ 64) 1)).wf .w64 = false := by decide

/-! ### Command words, written out from R90 and R92 -/

theorem test_decode_size : decode (W := .w32) 0b00000000000000000000000000000001#32 = .command .size := by decide

theorem test_decode_test : decode (W := .w32) 0b00000000000000000000000000000010#32 = .command .test := by decide

theorem test_decode_set : decode (W := .w32) 0b00000000000000000000000000000011#32 = .command .set := by decide

theorem test_decode_clear : decode (W := .w32) 0b00000000000000000000000000000100#32 = .command .clear := by decide

theorem test_decode_toggle : decode (W := .w32) 0b00000000000000000000000000000101#32 = .command .toggle := by decide

theorem test_decode_count : decode (W := .w32) 0b00000000000000000000000000000110#32 = .command .count := by decide

theorem test_decode_release : decode (W := .w32) 0b00000000000000000000000000001111#32 = .command .release := by
  decide

/-- R93: at `W = 64` the same words with zeros above. -/
theorem test_decode_wide : decode (W := .w64) 0x0000000000000003#64 = .command .set ∧
    decode (W := .w64) 0x000000000000000F#64 = .command .release := by decide

/-- R94, R260: the illegal words of the corner cases. -/
theorem test_decode_illegal : decode (W := .w32) 0x0#32 = .illegal (.reservedOp 0) ∧
    decode (W := .w32) 0x7#32 = .illegal (.reservedOp 7) ∧ decode (W := .w32) 0xE#32 = .illegal (.reservedOp 14) ∧
    decode (W := .w32) 0x13#32 = .illegal .reservedBits ∧
    decode (W := .w64) 0x100000003#64 = .illegal .reservedBits := by decide

/-! ### Assembler text (R96) -/

theorem test_parse_lines :
    Asm.parseLine "SET #0, #192".toList = some (.set (.imm 0) (.val 192)) ∧
    Asm.parseLine "CLEAR -@0x100:4, huge".toList = some (.clear (.digits true 256 4) .huge) ∧
    Asm.parseLine "TEST #-5,invalid".toList = some (.test (.imm (-5)) .invalid) ∧
    Asm.parseLine "COUNT @0xFf:2".toList = some (.count (.digits false 255 2)) ∧
    Asm.parseLine "SIZE nan".toList = some (.size .nan) ∧ Asm.parseLine "RELEASE".toList = some .release := by decide

theorem test_parse_refuses :
    Asm.parseLine "SIZE 5".toList = none ∧ Asm.parseLine "SET #0".toList = none ∧
    Asm.parseLine "SET #0 #1".toList = none ∧ Asm.parseLine "SIZE #0x".toList = none ∧
    Asm.parseLine "RELEASE #1".toList = none ∧ Asm.parseLine "TEST #1, #-1".toList = none ∧
    Asm.parseLine "ADD #1".toList = none ∧ Asm.assemble .w32 Params.standard "SIZE #0x80000000".toList = none := by
  decide

/-- R98: `SIZE #-5` at `W = 64`. -/
theorem test_assemble : Asm.assemble .w64 Params.standard "SIZE #-5".toList =
    some [.wr Params.standard .xdesc 1, .wr Params.standard .ximm 0xFFFFFFFFFFFFFFFB,
      .wr Params.standard .cmd 1, .wait] := by decide

/-! ### One step of each command (95_test_vectors.md) -/

/-- §2.1: `SIZE #-5`. -/
theorem test_size_negative : seen (exec .size ⟨.w64, compact 0xFFFFFFFFFFFFFFFB 0⟩) = some (0x012, 3) := by
  decide

/-- §1.1: `SIZE @[0, 0, 0, 0x100]`. -/
theorem test_size_array : seen (exec .size ⟨.w64, array [0, 0, 0, 0x100] 0⟩) = some (0x012, 201) := by
  decide

/-- R172: `TEST @[0, 1], #64`. -/
theorem test_test_boundary : seen (exec .test ⟨.w64, array [0, 1] 64⟩) = some (0x012, 1) := by decide

/-- §1.3: `TEST #-5, #0`. -/
theorem test_test_negative : seen (exec .test ⟨.w64, compact 0xFFFFFFFFFFFFFFFB 0⟩) = some (0x006, 0) := by
  decide

/-- R174: `SET #0, #63`. -/
theorem test_set_top_bit : seen (exec .set ⟨.w64, compact 0 63⟩) = some (0x122, 0x8000000000000000) := by
  decide

/-- §1.9: `SET #0, #192`. -/
theorem test_set_heap : seen (exec .set ⟨.w64, compact 0 192⟩) = some (0x232, 0) ∧
    window (exec .set ⟨.w64, compact 0 192⟩) = some [0, 0, 0, 1] ∧
    traced (exec .set ⟨.w64, compact 0 192⟩) = some (0x1000, 1) := by decide

/-- §1.2: `CLEAR #5, #1000`. -/
theorem test_clear_original : seen (exec .clear ⟨.w64, compact 5 1000⟩) = some (0x042, 0) := by decide

/-- R178: CLEAR of `[0, 1]` at 64 trims. -/
theorem test_clear_trims : seen (exec .clear ⟨.w64, array [0, 1] 64⟩) = some (0x122, 0) := by decide

/-- R179: `TOGGLE #5, #0`. -/
theorem test_toggle_low : seen (exec .toggle ⟨.w64, compact 5 0⟩) = some (0x122, 4) := by decide

/-- §1.8: `TOGGLE #1, #128`. -/
theorem test_toggle_grows : seen (exec .toggle ⟨.w64, compact 1 128⟩) = some (0x132, 0) ∧
    window (exec .toggle ⟨.w64, compact 1 128⟩) = some [1, 0, 1] := by decide

/-- R234: `COUNT #-2^63`. -/
theorem test_count_least : seen (exec .count ⟨.w64, compact 0x8000000000000000 0⟩) = some (0x012, 1) := by
  decide

/-- R234: COUNT of `[2^64 - 1, 2^64 - 1, 1]`. -/
theorem test_count_array :
    seen (exec .count ⟨.w64, array [0xFFFFFFFFFFFFFFFF, 0xFFFFFFFFFFFFFFFF, 1] 0⟩) = some (0x012, 129) := by
  decide

/-- R254: RELEASE of the heap buffer of `SET #0, #192`. -/
theorem test_release_heap : seen (exec .release ⟨.w64, heldHeap⟩) = some (0, 0) ∧
    traced (exec .release ⟨.w64, heldHeap⟩) = some (0, 2) := by decide

/-- R260: `WR CMD, 0x7` from reset. -/
theorem test_illegal_word : seen (step (State.reset.withFetchWord 32 7)) = some (0x00E, 0) := by decide

/-- R263: `WR CMD, 0x2` from reset, and the core's step. -/
theorem test_first_command : seen (step (State.reset.withFetchWord 32 2)) = some (0x006, 0) := by decide

/-- The block after `CLEAR #5, #64` (R176): an ORIGINAL result, the value 5 kept by the host. -/
def heldOriginal : Block .w64 := { Block.resetWith .w64 Params.standard [] with
  phase := .done
  rform := .original
  xdesc := 1
  ximm := 5
  ndesc := 1
  nval := 64
  decoded := some 5 }

/-- What the host's encoder builds (R261). -/
def encoded (o : Host.Outcome State Fault Refusal) : Option Int :=
  match o with
  | .next s => s.block.resultValue
  | .fault _ => none
  | .refused _ => none

/-- R261, R324: the ORIGINAL result of `CLEAR #5, #64` is still 5 when the host then writes 9 to XIMM. -/
theorem test_original_after_write :
    encoded (step ⟨.w64, heldOriginal.setAgenda [.host (.wr Params.standard .ximm 9)]⟩) = some 5 := by decide

/-! ### Witnesses: states that meet the hypotheses of the statements, clause by clause -/

/-- A block in BUSY whose next move is `m`. -/
def busyWith (m : Move .w64) : Block .w64 := busy .w64 1 0 0 5 1 1 [] [] [] [m]

/-- A block in IDLE, with a DIGITS operand of two digits at `0x100`, whose next move is `m`. -/
def idleWith (m : Move .w64) : Block .w64 :=
  { Block.resetWith .w64 Params.standard [] with xdesc := 2, xsize := 2, xbase := 0x100, agenda := [m] }

/-- The write of `v` to a register at the standard parameters (`W = 64`). -/
def wr (r : Reg) (v : Word .w64) : Move .w64 := .host (.wr Params.standard r v)

theorem idleWith_inv (m : Move .w64) : (idleWith m).Inv where
  legal := (show Params.legal .w64 Params.standard = true by decide)
  mem := empty_wf
  liveDisjoint := List.Pairwise.nil
  liveBounds r hr := by cases hr
  work := ⟨rfl, rfl⟩
  quiet _ := ⟨rfl, ⟨rfl, rfl, rfl, rfl⟩, rfl⟩
  failed h := absurd rfl h
  result h := by cases h
  guard h := by cases h
  hostValue h := by cases h
  original h := by cases h

theorem witness_CoreTurnRunsThePendingCommand :
    (busyWith .core).phase = .busy ∧ (busyWith .core).agenda = .core :: [] ∧ (compact 5 1).phase = .busy ∧
      (compact 5 1).agenda = [] ∧ (busyWith (.host .wait)).phase = .busy ∧
      (busyWith (.host .wait)).agenda = .host .wait :: [] := ⟨rfl, rfl, rfl, rfl, rfl, rfl⟩

theorem witness_PlacedCommandRuns : (Block.resetWith .w32 Params.standard []).phase ≠ .busy ∧ heldHeap.phase ≠ .busy :=
  ⟨nofun, nofun⟩

/-- An ignored write, two illegal words (OP 0, and bit 4 set), RELEASE, and the first and last operation. -/
theorem witness_CmdWriteDispatches :
    ((busyWith (wr .cmd 1)).agenda = .host (.wr (busyWith (wr .cmd 1)).params .cmd 1) :: [] ∧
      (busyWith (wr .cmd 1)).phase = .busy) ∧
    (∀ v : Word .w64, (idleWith (wr .cmd v)).agenda = .host (.wr (idleWith (wr .cmd v)).params .cmd v) :: [] ∧
      (idleWith (wr .cmd v)).phase ≠ .busy) ∧
    decode (W := .w64) 0 = .illegal (.reservedOp 0) ∧ decode (W := .w64) 0x11 = .illegal .reservedBits ∧
    decode (W := .w64) 0xF = .command .release ∧ decode (W := .w64) 1 = .command PendingOp.size.instr ∧
    decode (W := .w64) 6 = .command PendingOp.count.instr :=
  ⟨⟨rfl, rfl⟩, fun _ => ⟨rfl, nofun⟩, by decide, by decide, by decide, by decide, by decide⟩

/-- With a heap result held, and with none. -/
theorem witness_CmdWriteReleasesTheResult :
    ((heldHeap.setAgenda [wr .cmd 2]).agenda = .host (.wr heldHeap.params .cmd 2) :: [] ∧ heldHeap.phase ≠ .busy ∧
      heldHeap.wkind = .heap) ∧
    ((idleWith (wr .cmd 0)).agenda = .host (.wr (idleWith (wr .cmd 0)).params .cmd 0) :: [] ∧
      (idleWith (wr .cmd 0)).phase ≠ .busy) := ⟨⟨rfl, nofun, rfl⟩, rfl, nofun⟩

theorem witness_RegistersWhileBusy : (busyWith (wr .nval 7)).Inv ∧ (busyWith (wr .nval 7)).phase = .busy ∧
    (busyWith (wr .nval 7)).agenda = .host (.wr (busyWith (wr .nval 7)).params .nval 7) :: [] :=
  ⟨busy_inv empty_wf, rfl, rfl⟩

theorem witness_CoreWaitsOutsideBusy : heldHeap.phase ≠ .busy ∧ heldHeap.agenda = [] ∧
    (idleWith .core).phase ≠ .busy ∧ (idleWith .core).agenda = .core :: [] := ⟨nofun, rfl, nofun, rfl⟩

/-- A BUSY block whose host writes a register, reads STATUS and waits. -/
theorem witness_BusyEnds :
    let b := busy .w64 1 0 0 5 1 1 [] [] [] [wr .nval 3, .host (.rd .w64 Params.standard .status), .host .wait]
    b.phase = .busy ∧ ∀ m ∈ b.agenda, m.polite b.params = true := by decide

/-- Clause by clause: a COMPACT operand, a DIGITS operand of `MAX_DIGITS` digits, one that ends at the last digit
address; then XFORM 0 and 3, XSIZE 0, XSIZE beyond `MAX_DIGITS`, and a region that would wrap. -/
def sizeAndCountOperands : Prop :=
  ((compact 5 0).Inv ∧ (compact 5 0).phase = .busy ∧ (compact 5 0).HasNumber ∧ (compact 5 0).Settled) ∧
  (let b := busy .w64 2 1024 0x100 0 0 0 [] [] [] [];
    b.Inv ∧ b.phase = .busy ∧ b.HasNumber ∧ b.Settled) ∧
  (let b := busy .w64 6 1 0xFFFFFFFFFFFFFFFF 0 0 0 [] [] [] [];
    b.Inv ∧ b.phase = .busy ∧ b.HasNumber ∧ b.Settled) ∧
  ¬ (busy .w64 0 1 0x100 0 0 0 [] [] [] []).HasNumber ∧ ¬ (busy .w64 3 1 0x100 0 0 0 [] [] [] []).HasNumber ∧
  ¬ (busy .w64 2 0 0x100 0 0 0 [] [] [] []).HasNumber ∧ ¬ (busy .w64 2 1025 0x100 0 0 0 [] [] [] []).HasNumber ∧
  ¬ (busy .w64 2 2 0xFFFFFFFFFFFFFFFF 0 0 0 [] [] [] []).HasNumber

theorem witness_SizeResult : sizeAndCountOperands :=
  ⟨⟨compact_inv _ _, rfl, by decide, compact_settled _ _⟩, ⟨busy_inv empty_wf, rfl, by decide, busy_settled⟩,
    ⟨busy_inv empty_wf, rfl, by decide, busy_settled⟩, by decide, by decide, by decide, by decide, by decide⟩

theorem witness_CountResult : sizeAndCountOperands := witness_SizeResult

/-- A VALUE index in range, the first digit out of range, a HUGE index; NKIND 0 and 3, and both ways to be
negative. -/
theorem witness_TestResult :
    ((array [0, 1] 127).Inv ∧ (array [0, 1] 127).phase = .busy ∧ (array [0, 1] 127).HasNumber ∧
      (array [0, 1] 127).HasIndex ∧ ¬ (array [0, 1] 127).Negative ∧ (array [0, 1] 127).Settled) ∧
    ((array [0, 1] 128).HasNumber ∧ (array [0, 1] 128).HasIndex ∧ ¬ (array [0, 1] 128).Negative) ∧
    (let b := busy .w64 1 0 0 5 2 0 [] [] [] [];
      b.Inv ∧ b.phase = .busy ∧ b.HasNumber ∧ b.HasIndex ∧ ¬ b.Negative ∧ b.Settled) ∧
    ¬ (busy .w64 1 0 0 5 0 0 [] [] [] []).HasIndex ∧ ¬ (busy .w64 1 0 0 5 3 0 [] [] [] []).HasIndex ∧
    (compact 0x8000000000000000 0).Negative ∧ (busy .w64 6 1 0x100 0 1 0 [] [] [] []).Negative :=
  ⟨⟨array_inv _ _, rfl, by decide, by decide, by decide, array_settled _ _⟩, by decide,
    ⟨busy_inv empty_wf, rfl, by decide, by decide, by decide, busy_settled⟩, by decide, by decide, by decide,
    by decide⟩

/-- One digit that is 0, and a top digit that is not. -/
theorem witness_SizeIsTheLeastBound :
    ((compact 0 0).Inv ∧ (compact 0 0).phase = .busy ∧ (compact 0 0).HasNumber ∧ (compact 0 0).Settled ∧
      (compact 0 0).operandSize = 1) ∧
    ((array [0, 1] 0).Inv ∧ (array [0, 1] 0).phase = .busy ∧ (array [0, 1] 0).HasNumber ∧ (array [0, 1] 0).Settled ∧
      (array [0, 1] 0).operandDigit ((array [0, 1] 0).operandSize - 1) ≠ 0) :=
  ⟨⟨compact_inv _ _, rfl, by decide, compact_settled _ _, rfl⟩,
    ⟨array_inv _ _, rfl, by decide, array_settled _ _, by decide⟩⟩

theorem witness_CountIsTheNumberOfTestedOnes : (array [6, 1] 0).Inv ∧ (array [6, 1] 0).phase = .busy ∧
    (array [6, 1] 0).HasNumber ∧ (array [6, 1] 0).Settled ∧ ¬ (array [6, 1] 0).Negative :=
  ⟨array_inv _ _, rfl, by decide, array_settled _ _, by decide⟩

/-- Inline up to three digits, on the heap from four, the buffer granted. -/
def editOperands : Prop :=
  ((compact 5 191).Inv ∧ (compact 5 191).phase = .busy ∧ (compact 5 191).BitOpReady ∧ (compact 5 191).Settled ∧
    (compact 5 191).neededDigits = 3 ∧ (compact 5 191).BufferGranted (compact 5 191).neededDigits) ∧
  ((array [1, 0, 0, 1] 255).Inv ∧ (array [1, 0, 0, 1] 255).phase = .busy ∧ (array [1, 0, 0, 1] 255).BitOpReady ∧
    (array [1, 0, 0, 1] 255).Settled ∧ (array [1, 0, 0, 1] 255).neededDigits = 4 ∧
    (array [1, 0, 0, 1] 255).BufferGranted (array [1, 0, 0, 1] 255).neededDigits)

theorem witness_SetResult : editOperands :=
  ⟨⟨compact_inv _ _, rfl, by decide, compact_settled _ _, by decide, by decide⟩,
    ⟨array_inv _ _, rfl, by decide, array_settled _ _, by decide, by decide⟩⟩

theorem witness_ToggleResult : editOperands := witness_SetResult

/-- In the last digit in range, inline and on the heap. -/
theorem witness_ClearResult :
    ((compact 5 63).Inv ∧ (compact 5 63).phase = .busy ∧ (compact 5 63).BitOpReady ∧ (compact 5 63).Settled ∧
      (compact 5 63).nval.toNat / Width.w64.bits < (compact 5 63).operandSize ∧
      (compact 5 63).BufferGranted (compact 5 63).operandSize) ∧
    ((array [1, 0, 0, 1] 255).Inv ∧ (array [1, 0, 0, 1] 255).phase = .busy ∧ (array [1, 0, 0, 1] 255).BitOpReady ∧
      (array [1, 0, 0, 1] 255).Settled ∧
      (array [1, 0, 0, 1] 255).nval.toNat / Width.w64.bits < (array [1, 0, 0, 1] 255).operandSize ∧
      (array [1, 0, 0, 1] 255).BufferGranted (array [1, 0, 0, 1] 255).operandSize) :=
  ⟨⟨compact_inv _ _, rfl, by decide, compact_settled _ _, by decide, by decide⟩,
    ⟨array_inv _ _, rfl, by decide, array_settled _ _, by decide, by decide⟩⟩

/-- The first digit out of range, and a HUGE index. -/
theorem witness_ClearOutOfRangeIsOriginal :
    ((compact 5 64).Inv ∧ (compact 5 64).phase = .busy ∧ (compact 5 64).HasNumber ∧ (compact 5 64).HasIndex ∧
      ¬ (compact 5 64).Negative ∧ (compact 5 64).operandSize < (compact 5 64).nval.toNat / Width.w64.bits + 1) ∧
    (let b := busy .w64 1 0 0 5 2 0 [] [] [] [];
      b.Inv ∧ b.phase = .busy ∧ b.HasNumber ∧ b.HasIndex ∧ ¬ b.Negative ∧ b.nkind = 2) :=
  ⟨⟨compact_inv _ _, rfl, by decide, by decide, by decide, by decide⟩,
    ⟨busy_inv empty_wf, rfl, by decide, by decide, by decide, by decide⟩⟩

/-- Each of the four operations completes from such a state. -/
theorem witness_BitOperationValueLaws :
    (array [0, 1] 64).Inv ∧ (array [0, 1] 64).phase = .busy ∧ (array [0, 1] 64).BitOpReady ∧
    (array [0, 1] 64).Settled ∧
    ∀ i : Instr, i = .test ∨ i = .set ∨ i = .clear ∨ i = .toggle →
      ∃ t, exec i ⟨.w64, array [0, 1] 64⟩ = .next ⟨.w64, t⟩ ∧ t.err = .none := by
  refine ⟨array_inv _ _, rfl, by decide, array_settled _ _, ?_⟩
  rintro i (rfl | rfl | rfl | rfl)
  · exact ⟨_, rfl, by decide⟩
  · exact ⟨_, rfl, by decide⟩
  · exact ⟨_, rfl, by decide⟩
  · exact ⟨_, rfl, by decide⟩

/-- A HUGE index, and the least VALUE index whose digit is beyond `MAX_DIGITS = 1024`. -/
theorem witness_HugeIndexOutcomes :
    (let b := busy .w64 1 0 0 5 2 0 [] [] [] [];
      b.Inv ∧ b.phase = .busy ∧ b.HasNumber ∧ ¬ b.Negative ∧ b.nkind = 2) ∧
    ((compact 5 65536).Inv ∧ (compact 5 65536).phase = .busy ∧ (compact 5 65536).HasNumber ∧
      ¬ (compact 5 65536).Negative ∧ (compact 5 65536).nkind = 1 ∧
      (compact 5 65536).params.maxDigits < (compact 5 65536).nval.toNat / Width.w64.bits + 1) :=
  ⟨⟨busy_inv empty_wf, rfl, by decide, by decide, by decide⟩,
    ⟨compact_inv _ _, rfl, by decide, by decide, by decide, by decide⟩⟩

/-- A form that stores to a granted region, an inline one that stores nothing, and one that copies nothing. -/
theorem witness_EditCommandsFrame :
    ((array [1, 0, 0, 1] 0).Inv ∧ (array [1, 0, 0, 1] 0).phase = .busy ∧
      (array [1, 0, 0, 1] 0).storedRegion .clear = some ⟨0x1000, 4⟩) ∧
    ((compact 5 0).Inv ∧ (compact 5 0).phase = .busy ∧ (compact 5 0).storedRegion .set = none ∧
      (compact 5 0).copyLength .set = some 1) ∧
    ((compact 5 64).copyLength .clear = none) :=
  ⟨⟨array_inv _ _, rfl, by decide⟩, ⟨compact_inv _ _, rfl, by decide, by decide⟩, by decide⟩

theorem witness_AcquisitionWritesTheSynthesisedDigit :
    ((compact 5 0).Inv ∧ (compact 5 0).phase = .busy ∧ (compact 5 0).xform = 1) ∧
      (array [5] 0).Inv ∧ (array [5] 0).phase = .busy ∧ (array [5] 0).xform ≠ 1 :=
  ⟨⟨compact_inv _ _, rfl, by decide⟩, array_inv _ _, rfl, by decide⟩

/-- A command on a DIGITS operand, and RELEASE of a held buffer with such operand registers. -/
theorem witness_OperandRegionIsNeverWritten :
    ((array [1, 0, 0, 1] 0).Inv ∧ (array [1, 0, 0, 1] 0).phase = .busy ∧ (array [1, 0, 0, 1] 0).HasNumber ∧
      (array [1, 0, 0, 1] 0).operandRegion = some ⟨0x100, 4⟩) := ⟨array_inv _ _, rfl, by decide, by decide⟩

theorem witness_OnlyTheHostWritesOperandRegisters :
    (∃ s', step ⟨.w64, compact 5 1⟩ = .next s') ∧
    (∀ addr size v rest, (compact 5 1).agenda ≠ .host (.busWrite addr size v) :: rest) ∧
    (∀ rest, (compact 5 1).agenda ≠ .host .reset :: rest) := ⟨⟨_, rfl⟩, nofun, nofun⟩

/-- The same digits in either byte order, among different other digits. -/
theorem witness_ResultDependsOnlyOnOperandsAndAnswers :
    let b := busy .w64 2 1 0x100 0 1 1 [(0x800, 5), (0x808, 9)] [.ok 0x1000] [] []
    let c : Block .w64 := { busy .w64 2 1 0x100 0 1 1 [(0x807, 5)] [.ok 0x1000] [] [] with
      params := { Params.standard with byteOrder := .big }
      decoded := some 5 }
    b.Inv ∧ c.Inv ∧ b.phase = .busy ∧ c.phase = .busy ∧ b.params.maxDigits = c.params.maxDigits ∧
      b.xdesc = c.xdesc ∧ b.xsize = c.xsize ∧ b.xbase = c.xbase ∧ b.ximm = c.ximm ∧ b.ndesc = c.ndesc ∧
      b.nval = c.nval ∧ b.Settled ∧ c.Settled ∧ (∀ i, i < b.operandSize → b.operandDigit i = c.operandDigit i) ∧
      ∀ n, b.allocAnswer b.operandRegion n = c.allocAnswer c.operandRegion n := by
  intro b c
  have hb : b.Inv := busy_inv (by decide)
  have hc : (busy .w64 2 1 0x100 0 1 1 [(0x807, 5)] [.ok 0x1000] [] []).Inv := busy_inv (by decide)
  refine ⟨hb, ⟨by decide, hc.mem, hc.liveDisjoint, hc.liveBounds, ⟨rfl, rfl⟩, ?_, fun h => absurd rfl h, nofun,
    fun _ => rfl, fun _ => by decide, nofun⟩, rfl, rfl, rfl, rfl, rfl, rfl, rfl, rfl, rfl, busy_settled, fun _ _ _ => List.not_mem_nil, ?_,
    fun _ => rfl⟩
  · exact fun _ => ⟨rfl, ⟨rfl, rfl, rfl, rfl⟩, rfl⟩
  · decide

theorem witness_ReadingCommandsAccessOrder : (array [0, 1] 64).Inv ∧ (array [0, 1] 64).phase = .busy ∧
    (array [0, 1] 64).HasNumber ∧ (array [0, 1] 64).xform = 2 ∧ ¬ (array [0, 1] 64).Negative ∧
    (array [0, 1] 64).nkind = 1 ∧ (array [0, 1] 64).nval.toNat / Width.w64.bits < (array [0, 1] 64).operandSize ∧
    (array [0, 1] 128).copyLength .clear = none :=
  ⟨array_inv _ _, rfl, by decide, by decide, by decide, by decide, by decide, by decide⟩

/-- A copy that grows by two digits, and one of a COMPACT operand (`SET #0, #192`). -/
theorem witness_CopyingCommandsAccessOrder :
    ((array [1, 2] 255).Inv ∧ (array [1, 2] 255).phase = .busy ∧ (array [1, 2] 255).xform = 2 ∧
      (array [1, 2] 255).storedRegion .toggle = some ⟨0x1000, 4⟩) ∧
    ((compact 0 192).Inv ∧ (compact 0 192).phase = .busy ∧ (compact 0 192).xform = 1 ∧
      (compact 0 192).storedRegion .set = some ⟨0x1000, 4⟩) :=
  ⟨⟨array_inv _ _, rfl, by decide, by decide⟩, compact_inv _ _, rfl, by decide, by decide⟩

theorem witness_CopyAndGrowKeepsTheMagnitude :
    let v : View := { sign := false, size := 2, digits := .region 0x100 }
    (array [1, 2] 0).mem.wf ∧ 1 ≤ v.size ∧
      (∀ r a, v.region? = some r → r.has a = true → a ∉ (array [1, 2] 0).released) ∧
      ∃ t, (array [1, 2] 0).copyAndGrow v 3 = .ok () t :=
  ⟨digits_wf _ _, by decide, fun _ _ _ _ => List.not_mem_nil, ⟨_, rfl⟩⟩

/-- The digit counts on either side of the limit and of the threshold; both answers. -/
theorem witness_BufferPathByDigitCount :
    let v : View := { sign := false, size := 1, digits := .acqd }
    let b := compact 5 0
    b.params.maxDigits < max 1025 v.size ∧ (max 3 v.size ≤ b.params.maxDigits ∧ max 3 v.size ≤ 3) ∧
      (max 4 v.size ≤ b.params.maxDigits ∧ 4 ≤ max 4 v.size ∧ b.allocAnswer v.region? (max 4 v.size) = .ok 0x1000) ∧
      (max 1024 v.size ≤ b.params.maxDigits ∧
        (busy .w64 1 0 0 5 1 0 [] [.fail] [] []).allocAnswer v.region? (max 1024 v.size) = .fail) := by decide

/-- An inline buffer with the digits `d` (`W = 64`), in a command that completes. -/
def inlineBuffer (d : Vector (Word .w64) 4) (n : Nat) : Block .w64 :=
  { Block.resetWith .w64 Params.standard [] with phase := .done, wkind := .inline, inl := d, wn := n }

/-- The four cases of R212: the top digit trimmed or not, both signs, the digit's top bit 0 and 1. -/
theorem witness_NormalizeTrimsAndForms :
    (1 ≤ (inlineBuffer #v[5, 0, 0, 0] 3).wn ∧ (inlineBuffer #v[5, 0, 0, 0] 3).wn < 2 ^ Width.w64.bits ∧
      ((inlineBuffer #v[5, 0, 0, 0] 3).normalize false).rsize.toNat = 1) ∧
    (((inlineBuffer #v[5, 0, 0, 0] 1).normalize true).rsize.toNat = 1 ∧
      ((inlineBuffer #v[5, 0, 0, 0] 1).wbufDigit 0).msb = false) ∧
    (((inlineBuffer #v[0x8000000000000000, 0, 0, 0] 1).normalize true).rsize.toNat = 1 ∧
      ((inlineBuffer #v[0x8000000000000000, 0, 0, 0] 1).wbufDigit 0).msb = true) ∧
    ((inlineBuffer #v[0, 1, 0, 0] 3).normalize true).rsize.toNat ≠ 1 ∧
    (1 ≤ heldHeap.wn ∧ heldHeap.wn < 2 ^ Width.w64.bits ∧ heldHeap.wkind = .heap ∧
      ∀ i, i < heldHeap.wn → heldHeap.hbase.toNat + i ∉ heldHeap.released) := by
  refine ⟨by decide, by decide, by decide, by decide, by decide, by decide, rfl, fun _ _ => List.not_mem_nil⟩

theorem witness_NormalizePreservesTheValue : heldHeap.phase = .done ∧ heldHeap.err = .none ∧ 1 ≤ heldHeap.wn ∧
    heldHeap.wn < 2 ^ Width.w64.bits ∧ heldHeap.wkind = .heap ∧
    ∀ i, i < heldHeap.wn → heldHeap.hbase.toNat + i ∉ heldHeap.released :=
  ⟨rfl, rfl, by decide, by decide, rfl, fun _ _ => List.not_mem_nil⟩

/-- A COMPACT operand at its least value, and a DIGITS operand. -/
theorem witness_AcquiredViewHasTheOperandsValue :
    ((compact 0x8000000000000000 0).Settled ∧ ∃ v t, (compact 0x8000000000000000 0).acquire = .ok v t) ∧
    ((array [1, 2] 0).Settled ∧ ∃ v t, (array [1, 2] 0).acquire = .ok v t) :=
  ⟨⟨compact_settled _ _, _, _, rfl⟩, array_settled _ _, _, _, rfl⟩

theorem witness_BadArgumentCauses : (compact 5 0).Inv ∧ (compact 5 0).phase = .busy ∧ (array [5] 0).Inv ∧
    (array [5] 0).phase = .busy := ⟨compact_inv _ _, rfl, array_inv _ _, rfl⟩

/-- Too large at the first digit beyond `MAX_DIGITS`, HUGE, and refused by the allocator at the threshold. -/
theorem witness_AllocationFailureCauses :
    ((compact 5 65536).Inv ∧ (compact 5 65536).phase = .busy ∧ (compact 5 65536).HasNumber ∧
      ¬ (compact 5 65536).Negative ∧ (compact 5 65536).nkind = 1 ∧
      (compact 5 65536).params.maxDigits < (compact 5 65536).neededDigits) ∧
    (let b := busy .w64 1 0 0 5 2 0 [] [] [] [];
      b.Inv ∧ b.phase = .busy ∧ b.HasNumber ∧ ¬ b.Negative ∧ b.nkind = 2) ∧
    (let b := busy .w64 1 0 0 5 1 192 [] [.fail] [] [];
      b.Inv ∧ b.phase = .busy ∧ b.copyLength .set = some 4 ∧ b.allocAnswer b.operandRegion 4 = .fail) :=
  ⟨⟨compact_inv _ _, rfl, by decide, by decide, by decide, by decide⟩,
    ⟨busy_inv empty_wf, rfl, by decide, by decide, by decide⟩, ⟨busy_inv empty_wf, rfl, by decide, by decide⟩⟩

/-- An allocation refused, an operand rejected, and an illegal word while a heap buffer is held. -/
theorem witness_ErrorsLeaveNoTrace :
    (let b := busy .w64 1 0 0 5 1 192 [] [.fail] [] [];
      b.Inv ∧ b.phase = .busy ∧ ∃ t, exec PendingOp.set.instr ⟨.w64, b⟩ = .next ⟨.w64, t⟩ ∧ t.err ≠ .none) ∧
    (let b := busy .w64 0 0 0 5 1 192 [] [.fail] [] [];
      b.Inv ∧ b.phase = .busy ∧ ∃ t, exec PendingOp.size.instr ⟨.w64, b⟩ = .next ⟨.w64, t⟩ ∧ t.err ≠ .none) ∧
    ((heldHeap.setAgenda [wr .cmd 0]).phase ≠ .busy ∧
      (heldHeap.setAgenda [wr .cmd 0]).agenda = .host (.wr heldHeap.params .cmd 0) :: [] ∧
      decode (W := .w64) 0 = .illegal (.reservedOp 0)) :=
  ⟨⟨busy_inv empty_wf, rfl, _, rfl, by decide⟩, ⟨busy_inv empty_wf, rfl, _, rfl, by decide⟩,
    ⟨nofun, rfl, by decide⟩⟩

theorem witness_AtMostOneAllocation :
    ((compact 5 192).Inv ∧ (compact 5 192).phase = .busy ∧ (compact 5 192).copyLength .set = some 4) ∧
    (compact 5 64).copyLength .clear = none ∧ heldHeap.Inv :=
  ⟨⟨compact_inv _ _, rfl, by decide⟩, by decide, heldHeap_inv⟩

/-- DONE with a heap buffer held, IDLE, and BUSY with a RELEASE write to come. -/
theorem witness_ReleaseResult : (heldHeap.Inv ∧ heldHeap.phase ≠ .busy ∧ heldHeap.wkind = .heap) ∧
    ((idleWith .core).Inv ∧ (idleWith .core).phase = .idle) ∧
    ((busyWith (wr .cmd (encode .w64 .release))).Inv ∧ (busyWith (wr .cmd (encode .w64 .release))).phase = .busy ∧
      (busyWith (wr .cmd (encode .w64 .release))).agenda =
        .host (.wr (busyWith (wr .cmd 0)).params .cmd (encode .w64 .release)) :: []) :=
  ⟨⟨heldHeap_inv, nofun, rfl⟩, ⟨idleWith_inv _, rfl⟩, busy_inv empty_wf, rfl, rfl⟩

theorem witness_RegisterReadHasNoSideEffect :
    (busyWith (.host (.rd .w64 Params.standard .status))).agenda =
      .host (.rd .w64 (busyWith .core).params .status) :: [] := rfl

/-- A held DIGITS result, read in and beyond the result, and no result held. -/
theorem witness_ComputedRegistersRead : heldHeap.params.legal .w64 = true ∧
    (heldHeap.rform = .compact ∨ heldHeap.rform = .digits) ∧ heldHeap.rsel.toNat < heldHeap.rsize.toNat ∧
    ({ heldHeap with rsel := 4 } : Block .w64).rsize.toNat ≤ ({ heldHeap with rsel := 4 } : Block .w64).rsel.toNat ∧
    (compact 5 0).rform ≠ .compact ∧ (compact 5 0).rform ≠ .digits := by decide

/-- A register that takes the value, the two with reserved bits, and one that ignores it. -/
theorem witness_RegisterWritesReadBack :
    ∀ r : Reg, r ∈ [Reg.xsize, .xdesc, .ndesc, .status] →
      (idleWith (wr r 0xFFFFFFFFFFFFFFFF)).phase ≠ .busy ∧ r ≠ .cmd ∧
      (idleWith (wr r 0xFFFFFFFFFFFFFFFF)).agenda =
        .host (.wr (idleWith (wr r 0xFFFFFFFFFFFFFFFF)).params r 0xFFFFFFFFFFFFFFFF) :: [] := by
  intro r hr
  refine ⟨nofun, ?_, rfl⟩
  rintro rfl
  exact absurd hr (by decide)

/-- A half register, and one byte off. -/
theorem witness_OnlyWholeRegistersAreAccessed :
    ((idleWith (.host (.busWrite 8 4 1))).agenda = .host (.busWrite 8 4 1) :: [] ∧
      (∃ a, 0 ≤ a ∧ a < 0 + 16 * Width.w64.bytes ∧ 8 ≤ a ∧ a < 8 + 4)) ∧
    ((idleWith (.host (.busRead 127 8))).agenda = .host (.busRead 127 8) :: [] ∧
      (∃ a, 0 ≤ a ∧ a < 0 + 16 * Width.w64.bytes ∧ 127 ≤ a ∧ a < 127 + 8) ∧
      ¬ ∃ r, 8 = Width.w64.bytes ∧ 127 = regAddr .w64 Params.standard r) := by
  refine ⟨⟨rfl, 8, by decide⟩, rfl, ⟨127, by decide⟩, ?_⟩
  rintro ⟨r, -, h⟩
  cases r <;> exact absurd h (by decide)

/-- The last digit of the result. -/
theorem witness_WindowAndMemoryAgree :
    let b := heldHeap.setAgenda [.host (.memRead 0x1003)]
    b.Inv ∧ b.wkind = .heap ∧ (b.rform = .compact ∨ b.rform = .digits) ∧ 3 < b.rsize.toNat ∧
      b.agenda = .host (.memRead ((b.readReg .rbase).toNat + 3)) :: [] := by
  exact ⟨heldHeap_agenda_inv _, rfl, .inr rfl, by decide, rfl⟩

/-- The last digit of a guarded operand region, the last of a held heap buffer, and the digits just outside. -/
theorem witness_HostWritesRespectOwnership :
    (let b := busy .w64 2 2 0x100 0 0 0 [] [] [] [.host (.memWrite 0x101 7)];
      b.Inv ∧ b.agenda = .host (.memWrite 0x101 7) :: [] ∧ ∃ r, b.guarded = some r ∧ r.has 0x101 = true) ∧
    (let b := heldHeap.setAgenda [.host (.memWrite 0x1003 7)];
      b.Inv ∧ b.agenda = .host (.memWrite 0x1003 7) :: [] ∧ b.wkind = .heap ∧ b.hbase.toNat ≤ 0x1003 ∧
        0x1003 < b.hbase.toNat + b.wn) ∧
    (let b := busy .w64 2 2 0x100 0 0 0 [] [] [] [.host (.memWrite 0x102 7)];
      b.Inv ∧ b.agenda = .host (.memWrite 0x102 7) :: [] ∧ (∀ r, b.guarded = some r → r.has 0x102 = false) ∧
        b.wkind ≠ .heap) :=
  ⟨⟨busy_inv empty_wf, rfl, ⟨0x100, 2⟩, rfl, by decide⟩, ⟨heldHeap_agenda_inv _, rfl, rfl, by decide, by decide⟩,
    ⟨busy_inv empty_wf, rfl, by rintro _ ⟨⟩; decide, nofun⟩⟩

/-- Operands at the ends of their ranges. -/
theorem witness_ExpansionsWriteTheOperands :
    (Asm.XOperand.imm (-(2 ^ 63))).wf .w64 = true ∧ (Asm.XOperand.imm (2 ^ 63 - 1)).wf .w64 = true ∧
    (Asm.XOperand.digits true (2 ^ 64 - 1) (2 ^ 64 - 1)).wf .w64 = true ∧ Asm.XOperand.nan.wf .w64 = true ∧
    (Asm.NOperand.val (2 ^ 64 - 1)).wf .w64 = true ∧ Asm.NOperand.huge.wf .w64 = true ∧
    (∀ (x : Asm.XOperand) (n : Asm.NOperand),
      (heldHeap.setAgenda ((x.expand .w64 Params.standard ++ n.expand .w64 Params.standard).map .host)).phase ≠ .busy ∧
      (heldHeap.setAgenda ((x.expand .w64 Params.standard ++ n.expand .w64 Params.standard).map .host)).agenda =
        (x.expand .w64 heldHeap.params ++ n.expand .w64 heldHeap.params).map .host) :=
  ⟨by decide, by decide, by decide, rfl, by decide, rfl, fun _ _ => ⟨nofun, rfl⟩⟩

/-- A reset while a heap buffer is held. -/
theorem witness_ResetAbandonsTheBuffer : (heldHeap.setAgenda [.host .reset]).agenda = .host .reset :: [] ∧
    (heldHeap.setAgenda [.host .reset]).wkind = .heap := ⟨rfl, rfl⟩

/-- The least and the largest legal `MAX_DIGITS` at `W = 32`. -/
theorem witness_ResetMeetsTheInvariant : Params.legal .w32 { Params.standard with maxDigits := 1 } = true ∧
    Params.legal .w32 { Params.standard with maxDigits := 134217727 } = true := by decide

theorem witness_EveryStepKeepsTheInvariant :
    (⟨.w64, compact 5 1⟩ : State).Inv ∧ ∃ s', step ⟨.w64, compact 5 1⟩ = .next s' := ⟨compact_inv 5 1, _, rfl⟩

theorem witness_TestOfReturnedStorageIsFree :
    let b := busy .w64 2 2 0x100 0 1 64 [] [] [0x101] []
    b.Inv ∧ b.phase = .busy ∧ b.BitOpReady ∧ b.xform = 2 ∧ b.nval.toNat / Width.w64.bits < b.operandSize ∧
      b.xbase.toNat + b.nval.toNat / Width.w64.bits ∈ b.released :=
  ⟨busy_inv empty_wf, rfl, by decide, by decide, by decide, by decide⟩

theorem heldOriginal_inv (m : Move .w64) : (heldOriginal.setAgenda [m]).Inv where
  legal := (show Params.legal .w64 Params.standard = true by decide)
  mem := empty_wf
  liveDisjoint := List.Pairwise.nil
  liveBounds r hr := by cases hr
  work := ⟨rfl, rfl⟩
  quiet h := absurd rfl h
  failed h := absurd rfl h
  result _ _ := ⟨rfl, rfl, rfl, rfl⟩
  guard h := by cases h
  hostValue h := by cases h
  original _ := nofun

/-- An ORIGINAL result when XIMM is written, and a heap result when the digit after it is. -/
theorem witness_ResultStaysUntilTheNextCommand :
    (let b := heldOriginal.setAgenda [wr .ximm 9];
      b.Inv ∧ b.phase = .done ∧ (∀ v rest, b.agenda ≠ .host (.wr b.params .cmd v) :: rest) ∧
        (∀ rest, b.agenda ≠ .host .reset :: rest) ∧ ∃ s', step ⟨.w64, b⟩ = .next s') ∧
    (let b := heldHeap.setAgenda [.host (.memWrite 0x1004 7)];
      b.Inv ∧ b.phase = .done ∧ (∀ v rest, b.agenda ≠ .host (.wr b.params .cmd v) :: rest) ∧
        (∀ rest, b.agenda ≠ .host .reset :: rest) ∧ ∃ s', step ⟨.w64, b⟩ = .next s') := by
  refine ⟨⟨heldOriginal_inv _, rfl, ?_, nofun, _, rfl⟩, heldHeap_agenda_inv _, rfl, nofun, nofun, _, rfl⟩
  rintro v rest h
  injection h with h _
  injection h with h
  injection h with h _
  exact absurd h (by decide)

/-- An ORIGINAL result and a DIGITS one. -/
theorem witness_EveryResultDenotesAValue :
    ((heldOriginal.setAgenda [.core]).Inv ∧ (heldOriginal.setAgenda [.core]).phase = .done ∧
      (heldOriginal.setAgenda [.core]).err = .none) ∧ heldHeap.Inv ∧ heldHeap.phase = .done :=
  ⟨⟨heldOriginal_inv _, rfl, rfl⟩, heldHeap_inv, rfl⟩

end Sys2Proof.Tests
end

section
/-!
SUPPORT. Everything one step can do: the move it takes, and what that move leaves (R250 to R252, R310, R311).
-/
namespace Sys2Proof.Machine

/-- The body of a pending command's core step (R252). -/
def PendingOp.body {W : Width} : PendingOp → Block W → Res W Unit
  | .size => sizeBody
  | .test => testBody
  | .set => setBody
  | .clear => clearBody
  | .toggle => toggleBody
  | .count => countBody

/-- `exec` of a pending command always answers: its body, run as a command (R252, R285). -/
theorem exec_pending {W : Width} (op : PendingOp) (b : Block W) :
    exec op.instr ⟨W, b⟩ = .next ⟨W, b.runCommand op.body⟩ := by
  cases op <;> rfl

theorem pendingOf_eq_some {i : Instr} {op : PendingOp} (h : pendingOf i = some op) : i = op.instr := by
  cases i <;> cases h <;> rfl

theorem pendingOf_eq_none {i : Instr} (h : pendingOf i = none) : i = .release := by
  cases i <;> cases h
  rfl

/-- A block that a move leads to: `Turn b m t` when the move `m`, taken from the agenda of `b`, ends in `t`. One
constructor per case of the two agents' turns. -/
inductive Turn {W : Width} (b : Block W) : Move W → Block W → Prop where
  | coreRuns (h : b.phase = .busy) : Turn b .core (b.runCommand b.pendingOp.body)
  | coreWaits (h : b.phase ≠ .busy) : Turn b .core b
  | writeIgnored {addr size : Nat} {v : Word W} (h : b.phase = .busy) : Turn b (.host (.busWrite addr size v)) b
  | writeReg {addr size : Nat} {v : Word W} (r : Reg) (ht : busTarget W b.params addr size = .reg r) (hr : r ≠ .cmd)
    (h : b.phase ≠ .busy) : Turn b (.host (.busWrite addr size v)) (b.writeReg r v)
  | illegalWord {addr size : Nat} {v : Word W} (ht : busTarget W b.params addr size = .reg .cmd)
    (h : b.phase ≠ .busy) : Turn b (.host (.busWrite addr size v)) b.illegalCommand
  | release {addr size : Nat} {v : Word W} (ht : busTarget W b.params addr size = .reg .cmd)
    (h : b.phase ≠ .busy) : Turn b (.host (.busWrite addr size v)) (b.releaseResult.setPhase .idle)
  | accept {addr size : Nat} {v : Word W} (op : PendingOp) (ht : busTarget W b.params addr size = .reg .cmd)
    (h : b.phase ≠ .busy) : Turn b (.host (.busWrite addr size v)) (b.acceptCommand op)
  | readReg {addr size : Nat} (r : Reg) : Turn b (.host (.busRead addr size)) (b.afterRead r)
  | memWrite {a : Nat} {d : Word W} (h : b.hostMayNotWrite a = false) : Turn b (.host (.memWrite a d)) (b.putDigit a d)
  | memRead {a : Nat} : Turn b (.host (.memRead a)) ((b.fetchDigit a).2.setBusData (b.fetchDigit a).1)
  | waitRuns (h : b.phase = .busy) :
    Turn b (.host .wait) ((b.setAgenda (.host .wait :: b.agenda)).runCommand b.pendingOp.body)
  | waitEnds (h : b.phase ≠ .busy) : Turn b (.host .wait) (b.afterRead .status)
  | reset : Turn b (.host .reset) b.hostReset
  | reclaimNothing {base : Nat} : Turn b (.host (.reclaim base)) b
  | reclaim {base : Nat} (r : Region) (h : r ∈ b.live) (hh : b.heldRegion ≠ some r) :
    Turn b (.host (.reclaim base)) (b.giveBack r)

variable {W : Width} {b : Block W}

theorem coreTurn_busy (h : b.phase = .busy) :
    coreTurn b = .next ⟨W, b.runCommand b.pendingOp.body⟩ := by
  rw [coreTurn, if_pos h, exec_pending]

theorem coreTurn_notBusy (h : b.phase ≠ .busy) : coreTurn b = .next ⟨W, b⟩ := if_neg h

/-- Every register write while BUSY is ignored (R48). -/
theorem hostWriteReg_busy (h : b.phase = .busy) (r : Reg) (v : Word W) : hostWriteReg b r v = .next ⟨W, b⟩ := by
  cases r <;> exact if_pos h

/-- Outside BUSY a write of any register but CMD stores to the block (R22). -/
theorem hostWriteReg_notBusy (h : b.phase ≠ .busy) {r : Reg} (hr : r ≠ .cmd) (v : Word W) :
    hostWriteReg b r v = .next ⟨W, b.writeReg r v⟩ := by
  cases r with
  | cmd => exact absurd rfl hr
  | _ => exact if_neg h

/-- Outside BUSY a CMD write reports an illegal word, makes the command pending, or runs RELEASE (R250). -/
theorem hostWriteReg_cmd (h : b.phase ≠ .busy) (v : Word W) :
    hostWriteReg b .cmd v = .next ⟨W, b.illegalCommand⟩ ∨
      hostWriteReg b .cmd v = .next ⟨W, b.releaseResult.setPhase .idle⟩ ∨
      ∃ op, hostWriteReg b .cmd v = .next ⟨W, b.acceptCommand op⟩ := by
  simp only [hostWriteReg, hostWriteCmd, if_neg h]
  cases decode v with
  | illegal r => exact .inl rfl
  | command i =>
    cases hp : pendingOf i with
    | none =>
      rw [pendingOf_eq_none hp]
      exact .inr (.inl rfl)
    | some op => exact .inr (.inr ⟨op, by simp [hp]⟩)

theorem turn_hostWriteReg {addr size : Nat} {v : Word W} {r : Reg} {s' : State}
    (ht : busTarget W b.params addr size = .reg r) (hs : hostWriteReg b r v = .next s') :
    ∃ t, s' = ⟨W, t⟩ ∧ Turn b (.host (.busWrite addr size v)) t := by
  by_cases hb : b.phase = .busy
  · rw [hostWriteReg_busy hb] at hs
    cases hs
    exact ⟨b, rfl, .writeIgnored hb⟩
  · by_cases hr : r = .cmd
    · subst hr
      obtain h | h | ⟨op, h⟩ := hostWriteReg_cmd hb v
      all_goals rw [h] at hs; cases hs
      · exact ⟨_, rfl, .illegalWord ht hb⟩
      · exact ⟨_, rfl, .release ht hb⟩
      · exact ⟨_, rfl, .accept op ht hb⟩
    · rw [hostWriteReg_notBusy hb hr] at hs
      cases hs
      exact ⟨_, rfl, .writeReg r ht hr hb⟩

theorem turn_core {s' : State} (hs : coreTurn b = .next s') : ∃ t, s' = ⟨W, t⟩ ∧ Turn b .core t := by
  by_cases hb : b.phase = .busy
  · rw [coreTurn_busy hb] at hs
    cases hs
    exact ⟨_, rfl, .coreRuns hb⟩
  · rw [coreTurn_notBusy hb] at hs
    cases hs
    exact ⟨_, rfl, .coreWaits hb⟩

theorem turn_host {m : HostMove W} {s' : State} (hs : hostTurn m b = .next s') :
    ∃ t, s' = ⟨W, t⟩ ∧ Turn b (.host m) t := by
  cases m with
  | busWrite addr size v =>
    simp only [hostTurn] at hs
    split at hs
    · next r ht => exact turn_hostWriteReg ht hs
    · cases hs
    · cases hs
  | busRead addr size =>
    simp only [hostTurn] at hs
    split at hs
    · next r _ => cases hs; exact ⟨_, rfl, .readReg r⟩
    · cases hs
    · cases hs
  | memWrite a d =>
    simp only [hostTurn] at hs
    split at hs
    · cases hs
    · split at hs
      · cases hs
      · next h => cases hs; exact ⟨_, rfl, .memWrite (Bool.eq_false_iff.mpr h)⟩
  | memRead a =>
    simp only [hostTurn] at hs
    split at hs
    · cases hs
    · split at hs
      · cases hs
      · cases hs; exact ⟨_, rfl, .memRead⟩
  | wait =>
    simp only [hostTurn] at hs
    split at hs
    · next hb =>
      rw [coreTurn_busy (by exact hb)] at hs
      cases hs
      exact ⟨_, rfl, .waitRuns hb⟩
    · next hb => cases hs; exact ⟨_, rfl, .waitEnds hb⟩
  | reset => cases hs; exact ⟨_, rfl, .reset⟩
  | reclaim base =>
    simp only [hostTurn] at hs
    split at hs
    · cases hs; exact ⟨b, rfl, .reclaimNothing⟩
    · next r hr =>
      split at hs
      · cases hs
      · next hh => cases hs; exact ⟨_, rfl, .reclaim r (List.mem_of_find?_eq_some hr) hh⟩

/-- A step that answers takes the next move of the agenda, the core's when none is left (A7). -/
theorem step_turn {s' : State} (hs : step ⟨W, b⟩ = .next s') :
    ∃ t, s' = ⟨W, t⟩ ∧ Turn (b.setAgenda b.agenda.tail) (b.agenda.headD .core) t := by
  cases ha : b.agenda with
  | nil =>
    have hb : b.setAgenda [] = b := by rw [← ha]; rfl
    simp only [step, ha] at hs
    simpa [hb] using turn_core hs
  | cons m rest =>
    cases m with
    | core => simp only [step, ha] at hs; exact turn_core hs
    | host m => simp only [step, ha] at hs; exact turn_host hs

end Sys2Proof.Machine
end

section
/-!
SUPPORT. The invariant kept by every operation a step is made of, and so by every turn.
-/
namespace Sys2Proof.Machine

theorem Region.disjoint_comm (r q : Region) : r.disjoint q = q.disjoint r := Bool.or_comm _ _

namespace Block
variable {W : Width} {b t : Block W}

/-! ### Memory and the live buffers -/

/-- Legal parameters, canonical memory, and live buffers that neither wrap nor overlap (R9, R64). -/
structure StorageOk (b : Block W) : Prop where
  legal : b.params.legal W = true
  mem : b.mem.wf
  liveDisjoint : b.live.Pairwise (fun r q => r.disjoint q = true)
  liveBounds : ∀ r ∈ b.live, inlineThreshold ≤ r.len ∧ r.base + r.len ≤ 2 ^ W.bits

theorem Inv.storageOk (h : b.Inv) : b.StorageOk := ⟨h.legal, h.mem, h.liveDisjoint, h.liveBounds⟩

/-- Fewer live buffers do no harm. -/
theorem StorageOk.of_sublist (h : b.StorageOk) (hp : t.params = b.params) (hm : t.mem.wf)
    (hl : t.live.Sublist b.live) : t.StorageOk where
  legal := hp ▸ h.legal
  mem := hm
  liveDisjoint := h.liveDisjoint.sublist hl
  liveBounds r hr := h.liveBounds r (hl.subset hr)

/-- A buffer the allocator grants may join the live ones (R64). -/
theorem StorageOk.cons (h : b.StorageOk) {o : Option Region} {n : Nat} {base : Word W}
    (ha : b.allocAnswer o n = .ok base) (hn : inlineThreshold ≤ n) (hp : t.params = b.params) (hm : t.mem.wf)
    (hl : t.live = ⟨base.toNat, n⟩ :: b.live) : t.StorageOk := by
  have hadm := allocAnswer_admissible ha
  simp only [admissible, Bool.and_eq_true, decide_eq_true_eq, List.all_eq_true] at hadm
  obtain ⟨⟨hwrap, -⟩, hlive⟩ := hadm
  refine ⟨hp ▸ h.legal, hm, ?_, ?_⟩
  · rw [hl, List.pairwise_cons]
    exact ⟨fun r hr => Region.disjoint_comm _ _ ▸ hlive r hr, h.liveDisjoint⟩
  · rw [hl, List.forall_mem_cons]
    exact ⟨⟨hn, hwrap⟩, h.liveBounds⟩

/-! ### Blocks that hold no buffer and no result -/

/-- No buffer is held: WKIND, HBASE and WN are at their reset values (R50, R146). -/
structure NoBuffer (b : Block W) : Prop where
  wkind : b.wkind = .none
  hbase : b.hbase = 0
  wn : b.wn = 0

theorem noBuffer_iff : b.NoBuffer ↔ b.WorkOk ∧ b.wkind = .none := by
  constructor
  · rintro ⟨hk, hb, hn⟩
    exact ⟨by simp only [WorkOk, hk]; exact ⟨hb, hn⟩, hk⟩
  · rintro ⟨hw, hk⟩
    simp only [WorkOk, hk] at hw
    exact ⟨hk, hw.1, hw.2⟩

theorem Inv.noBuffer (h : b.Inv) (hp : b.phase ≠ .done) : b.NoBuffer :=
  noBuffer_iff.mpr ⟨h.work, (h.quiet hp).2.2⟩

/-- With no buffer and no result the invariant asks that ERR tells DONE from the other states, and, while BUSY,
that the operand region is guarded and its value kept. -/
theorem inv_of_noBuffer (hs : t.StorageOk) (hn : t.NoBuffer) (hc : t.ResultCleared)
    (he : t.phase = .done ↔ t.err ≠ .none)
    (hb : t.phase = .busy → t.guarded = t.operandRegion ∧ t.decoded = t.hostValue) : t.Inv where
  legal := hs.legal
  mem := hs.mem
  liveDisjoint := hs.liveDisjoint
  liveBounds := hs.liveBounds
  work := (noBuffer_iff.mp hn).1
  quiet hp := ⟨not_not.mp (mt he.mpr hp), hc, hn.wkind⟩
  failed _ := ⟨hc, hn.wkind⟩
  result hp h := absurd h (he.mp hp)
  guard hp := (hb hp).1
  hostValue hp := (hb hp).2
  original h := by rw [hc.rform] at h; cases h

theorem inv_resetWith (p : Params) (hp : p.legal W = true) (m : Memory) (hm : m.wf) :
    (Block.resetWith W p m).Inv :=
  inv_of_noBuffer ⟨hp, hm, .nil, nofun⟩ ⟨rfl, rfl, rfl⟩ ⟨rfl, rfl, rfl, rfl⟩ ⟨nofun, fun h => absurd rfl h⟩ nofun

theorem Inv.hostReset (h : b.Inv) : b.hostReset.Inv :=
  inv_of_noBuffer ⟨h.legal, h.mem, h.liveDisjoint, h.liveBounds⟩ ⟨rfl, rfl, rfl⟩ ⟨rfl, rfl, rfl, rfl⟩
    ⟨nofun, fun h => absurd rfl h⟩ nofun

/-- What ReleaseResult leaves (R146, R253): no buffer, no result, no error, perhaps one live buffer less. -/
theorem releaseResult_eq (b : Block W) : ∃ live released trace, live.Sublist b.live ∧
    b.releaseResult = { b with
      live := live, released := released, trace := trace, wkind := .none, hbase := 0, wn := 0, err := .none
      rform := .none, rsign := false, rval := 0, rsize := 0 } := by
  cases hk : b.wkind with
  | heap =>
    exact ⟨_, _, _, List.filter_sublist, by simp only [releaseResult, releaseBuffer, hk]; rfl⟩
  | _ => exact ⟨b.live, b.released, b.trace, .refl _, by simp only [releaseResult, releaseBuffer, hk]; rfl⟩

theorem Inv.illegalCommand (h : b.Inv) : b.illegalCommand.Inv := by
  obtain ⟨live, released, trace, hl, he⟩ := releaseResult_eq b
  rw [Block.illegalCommand, he]
  exact inv_of_noBuffer (h.storageOk.of_sublist rfl h.mem hl) ⟨rfl, rfl, rfl⟩ ⟨rfl, rfl, rfl, rfl⟩
    ⟨nofun, fun _ => rfl⟩ nofun

theorem Inv.release (h : b.Inv) : (b.releaseResult.setPhase .idle).Inv := by
  obtain ⟨live, released, trace, hl, he⟩ := releaseResult_eq b
  rw [he]
  exact inv_of_noBuffer (h.storageOk.of_sublist rfl h.mem hl) ⟨rfl, rfl, rfl⟩ ⟨rfl, rfl, rfl, rfl⟩
    ⟨nofun, fun h => absurd rfl h⟩ nofun

theorem Inv.acceptCommand (h : b.Inv) (op : PendingOp) : (b.acceptCommand op).Inv := by
  obtain ⟨hv, hd⟩ := hostValue_acceptCommand (b := b) op
  rw [← hv] at hd
  revert hd
  obtain ⟨live, released, trace, hl, he⟩ := releaseResult_eq b
  rw [Block.acceptCommand, he]
  intro hd
  exact inv_of_noBuffer (h.storageOk.of_sublist rfl h.mem hl) ⟨rfl, rfl, rfl⟩ ⟨rfl, rfl, rfl, rfl⟩
    ⟨nofun, fun h => absurd rfl h⟩ fun _ => ⟨rfl, hd⟩

/-! ### Updates that leave the held result alone -/

/-- The state of the command, its result, the working buffer with its digits, and the host value behind it are as
they were. -/
structure HeldKept (b t : Block W) : Prop where
  params : t.params = b.params
  phase : t.phase = b.phase
  err : t.err = b.err
  rform : t.rform = b.rform
  rsign : t.rsign = b.rsign
  rval : t.rval = b.rval
  rsize : t.rsize = b.rsize
  wkind : t.wkind = b.wkind
  hbase : t.hbase = b.hbase
  wn : t.wn = b.wn
  decoded : t.decoded = b.decoded
  digits : ∀ i, i < b.wn → t.wbufDigit i = b.wbufDigit i

/-- A held buffer has a digit (R42). -/
theorem WorkOk.wn_pos (h : b.WorkOk) (hk : b.wkind ≠ .none) : 1 ≤ b.wn := by
  cases hw : b.wkind <;> simp only [WorkOk, hw] at h
  · exact absurd hw hk
  · exact h.2.1
  · exact Nat.le_trans (by decide) h.1

/-- The held buffer is still the core's if its region is still live and none of its digits has been given back. -/
theorem HeldKept.workOk (h : HeldKept b t) (hw : b.WorkOk)
    (hheap : b.wkind = .heap → (⟨b.hbase.toNat, b.wn⟩ : Region) ∈ b.live →
      (∀ i, i < b.wn → b.hbase.toNat + i ∉ b.released) →
      (⟨b.hbase.toNat, b.wn⟩ : Region) ∈ t.live ∧ ∀ i, i < b.wn → b.hbase.toNat + i ∉ t.released) : t.WorkOk := by
  cases hk : b.wkind <;> simp only [WorkOk, h.wkind, h.hbase, h.wn, h.params, hk] at hw ⊢
  case none => exact hw
  case inline => exact hw
  case heap =>
    obtain ⟨h1, h2, h3, h4, h5⟩ := hw
    exact ⟨h1, h2, h3, hheap hk h4 h5⟩

theorem HeldKept.resultOk (h : HeldKept b t) (hw : b.WorkOk) (hr : b.ResultOk) : t.ResultOk := by
  cases hf : b.rform <;>
    simp only [ResultOk, h.rform, h.rsign, h.rval, h.rsize, h.wkind, h.wn, hf] at hr ⊢
  case scalar => exact hr
  case original => exact hr
  case compact =>
    obtain ⟨h1, h2, h3, h4, h5⟩ := hr
    refine ⟨h1, h2, h3, h4.trans (h.digits 0 (hw.wn_pos h3)).symm, fun i hi hn => ?_⟩
    rw [h.digits i hn, h5 i hi hn]
  case digits =>
    obtain ⟨h1, h2, h3, h4, h5, h6, h7⟩ := hr
    refine ⟨h1, h2, h3, h4, h5, ?_, fun i hi hn => ?_⟩
    · rwa [h.digits _ (by omega)]
    · rw [h.digits i hn, h7 i hi hn]

theorem HeldKept.resultCleared (h : HeldKept b t) (hc : b.ResultCleared) : t.ResultCleared :=
  ⟨h.rform.trans hc.rform, h.rsign.trans hc.rsign, h.rval.trans hc.rval, h.rsize.trans hc.rsize⟩

/-- The invariant is kept with the held result, if storage is sound and, while BUSY, the operand region still guarded
and its value kept. -/
theorem Inv.of_heldKept (h : b.Inv) (hk : HeldKept b t) (hs : t.StorageOk) (hw : t.WorkOk)
    (hg : b.phase = .busy → t.guarded = t.operandRegion) (hv : b.phase = .busy → t.hostValue = b.hostValue) :
    t.Inv where
  legal := hs.legal
  mem := hs.mem
  liveDisjoint := hs.liveDisjoint
  liveBounds := hs.liveBounds
  work := hw
  quiet hp := by
    obtain ⟨he, hc, hn⟩ := h.quiet (hk.phase ▸ hp)
    exact ⟨hk.err.trans he, hk.resultCleared hc, hk.wkind.trans hn⟩
  failed he := by
    obtain ⟨hc, hn⟩ := h.failed (hk.err ▸ he)
    exact ⟨hk.resultCleared hc, hk.wkind.trans hn⟩
  result hp he := hk.resultOk h.work (h.result (hk.phase ▸ hp) (hk.err ▸ he))
  guard hp := hg (hk.phase ▸ hp)
  hostValue hp := by
    have hb : b.phase = .busy := hk.phase ▸ hp
    rw [hk.decoded, hv hb, h.hostValue hb]
  original hf := hk.decoded ▸ h.original (hk.rform ▸ hf)

/-- The invariant does not speak of ACQD, the allocator's trace and answers, and what the model keeps for itself; of
the guard it speaks while BUSY only. -/
theorem Inv.update_bookkeeping (h : b.Inv) {acqd : Word W} {trace : List (AllocEvent W)} {log : List PortAccess}
    {agenda : List (Move W)} {answers : List (AllocAnswer W)} {n : Nat} {v : Word W} {g : Option Region}
    (hg : b.phase = .busy → g = b.guarded) :
    ({ b with
      acqd := acqd, trace := trace, portLog := log, agenda := agenda, answers := answers, draws := n, busData := v
      guarded := g } : Block W).Inv :=
  h.of_heldKept ⟨rfl, rfl, rfl, rfl, rfl, rfl, rfl, rfl, rfl, rfl, rfl, fun _ _ => rfl⟩
    ⟨h.legal, h.mem, h.liveDisjoint, h.liveBounds⟩ h.work (fun hp => (hg hp).trans (h.guard hp)) fun _ => rfl

theorem Inv.setAgenda (h : b.Inv) (l : List (Move W)) : (b.setAgenda l).Inv := h.update_bookkeeping fun _ => rfl

theorem Inv.setBusData (h : b.Inv) (v : Word W) : (b.setBusData v).Inv := h.update_bookkeeping fun _ => rfl

theorem Inv.afterRead (h : b.Inv) (r : Reg) : (b.afterRead r).Inv := h.update_bookkeeping fun hp => by simp [hp]

theorem Inv.of_readsOnly (h : b.Inv) (hr : ReadsOnly b t) : t.Inv := by
  obtain ⟨n, l, rfl⟩ := hr
  exact h.update_bookkeeping fun _ => rfl

theorem Inv.acquired (h : b.Inv) : b.acquired.Inv := by
  obtain ⟨v, hv⟩ := acquired_eq b
  rw [hv]
  exact h.update_bookkeeping fun _ => rfl

theorem Inv.afterAlloc (h : b.Inv) (o : Option Region) (n : Nat) : (b.afterAlloc o n).Inv := by
  unfold Block.afterAlloc takeAnswer
  split <;> exact h.update_bookkeeping fun _ => rfl

/-- Outside BUSY the operand registers and RSEL may be anything. -/
theorem Inv.update_operands (h : b.Inv) (hp : b.phase ≠ .busy) (xdesc : BitVec 3) (xsize xbase ximm : Word W)
    (ndesc : BitVec 2) (nval rsel : Word W) :
    ({ b with
      xdesc := xdesc, xsize := xsize, xbase := xbase, ximm := ximm, ndesc := ndesc, nval := nval
      rsel := rsel } : Block W).Inv :=
  h.of_heldKept ⟨rfl, rfl, rfl, rfl, rfl, rfl, rfl, rfl, rfl, rfl, rfl, fun _ _ => rfl⟩
    ⟨h.legal, h.mem, h.liveDisjoint, h.liveBounds⟩ h.work (fun h => absurd h hp) fun h => absurd h hp

theorem Inv.writeReg (h : b.Inv) (hp : b.phase ≠ .busy) (r : Reg) (v : Word W) : (b.writeReg r v).Inv := by
  cases r <;> exact h.update_operands hp _ _ _ _ _ _ _

/-! ### The host's moves on storage -/

theorem hostMayNotWrite_eq_false {a : Nat} (h : b.hostMayNotWrite a = false) :
    (∀ r, b.guarded = some r → r.has a = false) ∧ ∀ r, b.heldRegion = some r → r.has a = false := by
  obtain ⟨hguard, hheld⟩ := Bool.or_eq_false_iff.mp h
  exact ⟨fun r hr => by simpa [hr] using hguard, fun r hr => by simpa [hr] using hheld⟩

/-- An address outside the held region is none of the buffer's digits. -/
theorem ne_of_heldRegion {a : Nat} (h : ∀ r, b.heldRegion = some r → r.has a = false) (hk : b.wkind = .heap) {i : Nat}
    (hi : i < b.wn) : b.hbase.toNat + i ≠ a := by
  have := h ⟨b.hbase.toNat, b.wn⟩ (if_pos hk)
  simp only [Region.has, Bool.and_eq_false_iff, decide_eq_false_iff_not] at this
  omega

/-- A write outside the held buffer leaves its digits. -/
theorem heldKept_putDigit {a : Nat} (h : ∀ r, b.heldRegion = some r → r.has a = false) (d : Word W) :
    HeldKept b (b.putDigit a d) := by
  refine ⟨rfl, rfl, rfl, rfl, rfl, rfl, rfl, rfl, rfl, rfl, rfl, fun i hi => ?_⟩
  cases hk : b.wkind <;> simp only [wbufDigit, putDigit_wkind, hk]
  case inline => rfl
  case heap => exact readDigit_writeDigit_other W _ _ (ne_of_heldRegion h hk hi) d

/-- A host write keeps the invariant: it may touch neither the guarded operand region nor a held buffer (R320). -/
theorem Inv.putDigit (h : b.Inv) {a : Nat} (ha : b.hostMayNotWrite a = false) (d : Word W) : (b.putDigit a d).Inv := by
  obtain ⟨hguard, hheld⟩ := hostMayNotWrite_eq_false ha
  have hk := heldKept_putDigit hheld d
  refine h.of_heldKept hk (h.storageOk.of_sublist rfl (writeDigit_wf h.mem _ _ _ _) (.refl _)) ?_ h.guard
    fun hp => hostValue_putDigit fun r hr => hguard r ((h.guard hp).trans hr)
  exact hk.workOk h.work fun _ hl hr => ⟨hl, fun i hi hm => hr i hi (List.mem_filter.mp hm).1⟩

/-- Two live buffers share no digit (R64 b). -/
theorem StorageOk.apart (h : b.StorageOk) {r q : Region} (hr : r ∈ b.live) (hq : q ∈ b.live) (hne : r ≠ q) :
    r.disjoint q = true := by
  have : Std.Symm fun r q : Region => r.disjoint q = true := ⟨fun r q => Region.disjoint_comm r q ▸ id⟩
  exact h.liveDisjoint.forall hr hq hne

/-- Reclaiming a live buffer the core does not hold keeps the invariant (R311). -/
theorem Inv.giveBack (h : b.Inv) {r : Region} (hr : r ∈ b.live) (hh : b.heldRegion ≠ some r) : (b.giveBack r).Inv := by
  have hk : HeldKept b (b.giveBack r) :=
    ⟨rfl, rfl, rfl, rfl, rfl, rfl, rfl, rfl, rfl, rfl, rfl, fun _ _ => rfl⟩
  refine h.of_heldKept hk (h.storageOk.of_sublist rfl h.mem List.filter_sublist) ?_ h.guard fun _ => rfl
  refine hk.workOk h.work fun hheap hl hrel => ?_
  have hne : (⟨b.hbase.toNat, b.wn⟩ : Region) ≠ r := fun e => hh (e ▸ if_pos hheap)
  refine ⟨List.mem_filter.mpr ⟨hl, by simpa using hne⟩, fun i hi hm => ?_⟩
  rw [giveBack_released, List.mem_append, List.mem_range'_1] at hm
  obtain ⟨h1, h2⟩ | hm := hm
  · have := Region.disjoint_apart (h.storageOk.apart hl hr hne) hi (j := b.hbase.toNat + i - r.base) (by omega)
    simp only at this
    omega
  · exact hrel i hi (List.mem_filter.mp hm).1

/-! ### The core's step -/

theorem acquired_phase (b : Block W) : b.acquired.phase = b.phase := by
  obtain ⟨v, hv⟩ := acquired_eq b
  rw [hv]
  rfl

theorem acquired_decoded (b : Block W) : b.acquired.decoded = b.decoded := by
  obtain ⟨v, hv⟩ := acquired_eq b
  rw [hv]
  rfl

theorem afterAlloc_phase (b : Block W) (o : Option Region) (n : Nat) : (b.afterAlloc o n).phase = b.phase :=
  takeAnswer_phase b

/-- A raise ends a command that holds no buffer yet (R256, R283). -/
theorem Inv.failWith (h : b.Inv) (hp : b.phase = .busy) (e : CmdError) : (b.failWith e).Inv := by
  obtain ⟨hk, hb, hn⟩ := h.noBuffer (by simp [hp])
  exact inv_of_noBuffer ⟨h.legal, h.mem, h.liveDisjoint, h.liveBounds⟩ ⟨hk, hb, hn⟩ ⟨rfl, rfl, rfl, rfl⟩
    ⟨fun _ => by cases e <;> exact nofun, fun _ => rfl⟩ nofun

/-- A completed command: the invariant is what its storage, its working buffer and its result ask. -/
theorem inv_of_completed (hp : t.phase = .done) (he : t.err = .none) (hs : t.StorageOk) (hw : t.WorkOk)
    (hr : t.ResultOk) (ho : t.rform = .original → t.decoded ≠ none) : t.Inv where
  legal := hs.legal
  mem := hs.mem
  liveDisjoint := hs.liveDisjoint
  liveBounds := hs.liveBounds
  work := hw
  quiet h := absurd hp h
  failed h := absurd he h
  result _ _ := hr
  guard h := by rw [hp] at h; cases h
  hostValue h := by rw [hp] at h; cases h
  original := ho

theorem neededDigits_pos (b : Block W) : 1 ≤ b.neededDigits :=
  Nat.le_trans (Nat.succ_le_succ (Nat.zero_le _)) (Nat.le_max_left _ _)

/-- With a working buffer held, the result is not the operand itself. -/
theorem ResultOk.rform_ne_original (h : b.ResultOk) (hk : b.wkind ≠ .none) : b.rform ≠ .original := by
  intro hf
  simp only [ResultOk, hf] at h
  exact hk h.2.2.2

theorem Inv.scalarResult (h : b.Inv) (hp : b.phase = .busy) (v : Nat) : (b.scalarResult v).finish.Inv :=
  inv_of_completed rfl rfl ⟨h.legal, h.mem, h.liveDisjoint, h.liveBounds⟩ h.work
    ⟨rfl, rfl, (h.noBuffer (by simp [hp])).wkind⟩ nofun

/-- The host value of an accepted operand is kept from the CMD write on (R324). -/
theorem Inv.decoded_ne_none (h : b.Inv) (hp : b.phase = .busy) (hx : b.HasNumber) : b.decoded ≠ none := by
  rw [h.hostValue hp, Block.hostValue, if_pos hx]
  exact nofun

theorem Inv.originalResult (h : b.Inv) (hp : b.phase = .busy) (hd : b.decoded ≠ none) :
    b.originalResult.finish.Inv :=
  inv_of_completed rfl rfl ⟨h.legal, h.mem, h.liveDisjoint, h.liveBounds⟩ h.work
    ⟨rfl, rfl, rfl, (h.noBuffer (by simp [hp])).wkind⟩ fun _ => hd

/-- An edit of an obtained buffer ends in the invariant, if the working buffer is then in order: on the heap, given
that no digit of it is the allocator's any more (R142, R144). -/
theorem inv_of_edited {c : Block W} {f : Word W → Nat → Word W} (he : EditedFrom b c t f) (hk : c.wkind ≠ .none)
    (hwn : c.wn = b.neededDigits) (hs : c.StorageOk)
    (hw : ∀ released, (c.wkind = .heap → ∀ j, j < c.wn → c.hbase.toNat + j ∉ released) →
      ({ c with released := released } : Block W).WorkOk) : t.Inv := by
  obtain ⟨fin, hres, hmem, -, htaken, -⟩ := he
  rw [← hwn] at htaken
  obtain ⟨inl, mem, released, n, l, form, val, size, rfl⟩ := fin
  exact inv_of_completed rfl rfl (hs.of_sublist rfl hmem (.refl _)) (hw released htaken) hres
    fun h => absurd h (hres.rform_ne_original hk)

/-- The buffer the allocator grants for an edit, before the edit (R143). -/
theorem Inv.storageOk_granted (h : b.Inv) {n : Nat} {base : Word W} (hn : inlineThreshold ≤ n)
    (ha : b.allocAnswer b.operandRegion n = .ok base) :
    (((b.acquired.afterAlloc b.operandRegion n).addLive ⟨base.toNat, n⟩).setWork .heap base n).StorageOk := by
  obtain ⟨v, hv⟩ := acquired_eq b
  rw [hv]
  refine h.storageOk.cons ha hn ?_ ?_ ?_ <;> simp only [Block.afterAlloc]
  · exact takeAnswer_params _
  · exact (takeAnswer_mem _).symm ▸ h.mem
  · exact congrArg _ (takeAnswer_live _)

theorem Inv.of_editOutcome (h : b.Inv) (hp : b.phase = .busy) (hx : b.HasNumber) {f : Word W → Nat → Word W}
    (ht : EditOutcome b f t) : t.Inv := by
  have hac := h.acquired
  have hpac : b.acquired.phase = .busy := (acquired_phase b).trans hp
  have hfrom {c : Block W} (hle : b.neededDigits ≤ b.params.maxDigits) (hc : BufferFor b c) :=
    editedFrom hx (legal_lt h.legal hle) hc f
  cases ht with
  | tooLarge _ => exact hac.failWith hpac _
  | refused _ _ _ => exact (hac.afterAlloc _ _).failWith ((afterAlloc_phase _ _ _).trans hpac) _
  | inline hle hlt =>
    refine inv_of_edited (hfrom hle (bufferFor_inline h.mem hlt)) nofun rfl
      (hac.storageOk.of_sublist rfl hac.mem (.refl _)) fun _ _ => ?_
    exact ⟨(h.noBuffer (by simp [hp])).hbase, neededDigits_pos b, hlt, by simpa using hle⟩
  | heap base hle hge ha =>
    have hc := bufferFor_heap h.mem ha
    have hs := h.storageOk_granted hge ha
    refine inv_of_edited (hfrom hle hc) nofun rfl hs fun _ hrel => ?_
    exact ⟨hge, hc.params ▸ hle, (hs.liveBounds _ (List.mem_cons_self ..)).2, List.mem_cons_self .., hrel rfl⟩

/-- However a command ends, the invariant holds of the block it leaves. -/
theorem Inv.of_ended (h : b.Inv) (hp : b.phase = .busy) {op : PendingOp} (ht : Ended b op t) : t.Inv := by
  have hac := h.acquired
  have hpac : b.acquired.phase = .busy := (acquired_phase b).trans hp
  cases ht with
  | rejected c _ hc =>
    obtain rfl | rfl := hc
    · exact (h.of_readsOnly (readsOnly_clearPortLog b)).failWith hp _
    · exact hac.failWith hpac _
  | scalar c v _ _ hc _ =>
    refine (hac.of_readsOnly hc).scalarResult ?_ v
    obtain ⟨n, l, rfl⟩ := hc
    exact hpac
  | original ha _ _ => exact hac.originalResult hpac (acquired_decoded b ▸ h.decoded_ne_none hp ha.1)
  | huge _ _ _ => exact hac.failWith hpac _
  | edit f _ hb _ _ ht => exact h.of_editOutcome hp hb.1 ht

/-- The core's step keeps the invariant (R252). -/
theorem Inv.runCommand (h : b.Inv) (hp : b.phase = .busy) : (b.runCommand b.pendingOp.body).Inv := by
  obtain ⟨t, he, ht⟩ := exec_ended h.legal b.pendingOp
  rw [exec_pending] at he
  cases he
  exact h.of_ended hp ht

end Block

/-- Every turn keeps the invariant. -/
theorem Turn.inv {W : Width} {b t : Block W} {m : Move W} (ht : Turn b m t) (h : b.Inv) : t.Inv := by
  cases ht with
  | coreRuns hp => exact h.runCommand hp
  | coreWaits _ => exact h
  | writeIgnored _ => exact h
  | writeReg r _ _ hp => exact h.writeReg hp r _
  | illegalWord _ _ => exact h.illegalCommand
  | release _ _ => exact h.release
  | accept op _ _ => exact h.acceptCommand op
  | readReg r => exact h.afterRead r
  | memWrite ha => exact h.putDigit ha _
  | memRead => exact (h.of_readsOnly (Block.readsOnly_fetchDigit b _)).setBusData _
  | waitRuns hp => exact (h.setAgenda _).runCommand hp
  | waitEnds _ => exact h.afterRead _
  | reset => exact h.hostReset
  | reclaimNothing => exact h
  | reclaim r hr hh => exact h.giveBack hr hh

/-- Settles O54: a step that answers is a turn of one of the agents, and every turn keeps the invariant. -/
theorem everyStepKeepsTheInvariant : Obligations.EveryStepKeepsTheInvariant := by
  rintro ⟨W, b⟩ s' h hs
  obtain ⟨t, rfl, ht⟩ := step_turn hs
  exact ht.inv (h.setAgenda _)

end Sys2Proof.Machine
end

section
/-!
SUPPORT. A command keeps its inputs, whatever the parameters and memory: the operand registers, RSEL, the parameters
and the host's side (R33, R36). Each part of a command is shown to keep them, then each command.
-/
namespace Sys2Proof.Machine
namespace Block
variable {W : Width} {b c t : Block W}

theorem InputsKept.refl (b : Block W) : b.InputsKept b :=
  ⟨rfl, rfl, rfl, rfl, rfl, rfl, rfl, rfl, rfl, rfl, rfl, rfl, rfl⟩

theorem InputsKept.trans (h : b.InputsKept c) (h' : c.InputsKept t) : b.InputsKept t :=
  ⟨h'.params.trans h.params, h'.xdesc.trans h.xdesc, h'.xsize.trans h.xsize, h'.xbase.trans h.xbase,
    h'.ximm.trans h.ximm, h'.ndesc.trans h.ndesc, h'.nval.trans h.nval, h'.rsel.trans h.rsel,
    h'.pendingOp.trans h.pendingOp, h'.agenda.trans h.agenda, h'.busData.trans h.busData,
    h'.guarded.trans h.guarded, h'.decoded.trans h.decoded⟩

/-- The working buffer, memory, the allocator's side and the result may change. -/
theorem InputsKept.update (h : b.InputsKept c) {phase : Phase} {err : ErrCode} {form : RForm} {sign : Bool}
    {val size acqd base : Word W} {kind : WKind} {inl : Vector (Word W) 4} {n : Nat} {mem : Memory}
    {live : List Region} {released : List Nat} {trace : List (AllocEvent W)} {log : List PortAccess}
    {answers : List (AllocAnswer W)} {draws : Nat} :
    b.InputsKept { c with
      phase := phase, err := err, rform := form, rsign := sign, rval := val, rsize := size, acqd := acqd
      wkind := kind, inl := inl, hbase := base, wn := n, mem := mem, live := live, released := released
      trace := trace, portLog := log, answers := answers, draws := draws } :=
  ⟨h.params, h.xdesc, h.xsize, h.xbase, h.ximm, h.ndesc, h.nval, h.rsel, h.pendingOp, h.agenda, h.busData,
    h.guarded, h.decoded⟩

theorem InputsKept.bufferOnly (h : b.InputsKept c) (h' : BufferOnly c t) : b.InputsKept t := by
  obtain ⟨_, _, _, _, _, rfl⟩ := h'
  exact h.update

theorem InputsKept.readsOnly (h : b.InputsKept c) (h' : ReadsOnly c t) : b.InputsKept t := h.bufferOnly h'.bufferOnly

theorem InputsKept.afterAlloc (h : b.InputsKept c) (o : Option Region) (n : Nat) : b.InputsKept (c.afterAlloc o n) := by
  unfold Block.afterAlloc takeAnswer
  split <;> exact h.update

theorem InputsKept.releaseResult (h : b.InputsKept c) : b.InputsKept c.releaseResult := by
  obtain ⟨_, _, _, -, he⟩ := releaseResult_eq c
  rw [he]
  exact h.update

/-! ### The loops of the Resize/Copy Engine, and normalisation -/

theorem bufferOnly_copyDigits (v : View) (k i : Nat) (b : Block W) : BufferOnly b (copyDigits v k i b) := by
  induction k generalizing i b with
  | zero => exact .refl b
  | succ k ih => exact ((readsOnly_digit b v i).bufferOnly.trans (bufferOnly_wbufWrite _ i _)).trans (ih (i + 1) _)

theorem bufferOnly_zeroFill (k i : Nat) (b : Block W) : BufferOnly b (zeroFill k i b) := by
  induction k generalizing i b with
  | zero => exact .refl b
  | succ k ih => exact (bufferOnly_wbufWrite b i 0).trans (ih (i + 1) _)

theorem bufferOnly_edited (c : Block W) (v : View) (n bn : Nat) (f : Word W → Nat → Word W) :
    BufferOnly c (c.edited v n bn f) :=
  (((bufferOnly_copyDigits v _ _ c).trans (bufferOnly_zeroFill _ _ _)).trans
    (readsOnly_wbufRead _ _).bufferOnly).trans (bufferOnly_wbufWrite _ _ _)

theorem InputsKept.formResult (h : b.InputsKept c) (sign : Bool) (k : Nat) : b.InputsKept (c.formResult sign k) := by
  have hr := h.readsOnly (readsOnly_wbufRead c 0)
  unfold Block.formResult
  split
  · dsimp only
    split
    · exact hr.update
    · split <;> exact hr.update
  · exact h.update

theorem InputsKept.normalize (h : b.InputsKept c) (sign : Bool) : b.InputsKept (c.normalize sign) :=
  (h.readsOnly (trim_readsOnly c.wn c)).formResult sign _

end Block

/-! ### The parts of a command -/

/-- Whether it answers or raises, the inputs of `b` are kept. -/
def Res.KeepsInputs {W : Width} {α : Type} (b : Block W) : Res W α → Prop
  | .ok _ t => b.InputsKept t
  | .raise _ t => b.InputsKept t

namespace Block
variable {W : Width} {b c : Block W}

theorem keepsInputs_andThen {α β : Type} {r : Res W α} {f : α → Block W → Res W β} (h : r.KeepsInputs b)
    (hf : ∀ a t, b.InputsKept t → (f a t).KeepsInputs b) : (r.andThen f).KeepsInputs b := by
  cases r with
  | ok a t => exact hf a t h
  | raise e t => exact h

theorem keepsInputs_acquire (h : b.InputsKept c) : c.acquire.KeepsInputs b := by
  by_cases hx : c.HasNumber
  · obtain ⟨v, hv⟩ := afterAcquire_eq c
    rw [acquire_ok hx, hv]
    exact h.update
  · rw [acquire_raise hx]
    exact h

theorem keepsInputs_index (h : b.InputsKept c) : c.index.KeepsInputs b := by
  unfold index
  split <;> exact h

theorem keepsInputs_prologue (h : b.InputsKept c) : c.bitOpPrologue.KeepsInputs b :=
  keepsInputs_andThen (keepsInputs_acquire h) fun v _ ht => keepsInputs_andThen (keepsInputs_index ht) fun _ _ hu => by
    cases v.sign <;> exact hu

theorem keepsInputs_obtainBuffer (h : b.InputsKept c) (v : View) (n : Nat) : (c.obtainBuffer v n).KeepsInputs b := by
  have hc := obtainBuffer_obtained c v n
  revert hc
  generalize c.obtainBuffer v n = r
  intro hc
  cases hc with
  | tooLarge _ => exact h
  | inline _ _ => exact h.update
  | refused _ _ _ => exact h.afterAlloc _ _
  | heap base _ _ _ => exact (h.afterAlloc v.region? n).update

theorem keepsInputs_editBit (h : b.InputsKept c) (v : View) (bn : Nat) (f : Word W → Nat → Word W) :
    (c.editBit v bn f).KeepsInputs b := by
  rw [editBit_eq]
  exact keepsInputs_andThen (keepsInputs_obtainBuffer h v _) fun _ t ht =>
    (ht.bufferOnly (bufferOnly_edited t v _ bn f)).normalize false

/-- The body of each command keeps the inputs. -/
theorem keepsInputs_body (h : b.InputsKept c) (op : PendingOp) : (op.body c).KeepsInputs b := by
  cases op with
  | size =>
    exact keepsInputs_andThen (keepsInputs_acquire h) fun v t ht => (ht.readsOnly (readsOnly_digit t v _)).update
  | count =>
    exact keepsInputs_andThen (keepsInputs_acquire h) fun v t ht =>
      (ht.readsOnly (countDigits_readsOnly v v.size 0 0 t)).update
  | test =>
    refine keepsInputs_andThen (keepsInputs_prologue h) fun ⟨v, n⟩ t ht => ?_
    cases n with
    | huge => exact ht.update
    | value bn =>
      dsimp only
      split
      · exact ht.update
      · exact (ht.readsOnly (readsOnly_digit t v _)).update
  | set =>
    refine keepsInputs_andThen (keepsInputs_prologue h) fun ⟨v, n⟩ t ht => ?_
    cases n with
    | huge => exact ht
    | value bn => exact keepsInputs_editBit ht v bn setBit
  | clear =>
    refine keepsInputs_andThen (keepsInputs_prologue h) fun ⟨v, n⟩ t ht => ?_
    cases n with
    | huge => exact ht.update
    | value bn =>
      dsimp only
      split
      · exact ht.update
      · exact keepsInputs_editBit ht v bn clearBit
  | toggle =>
    refine keepsInputs_andThen (keepsInputs_prologue h) fun ⟨v, n⟩ t ht => ?_
    cases n with
    | huge => exact ht
    | value bn => exact keepsInputs_editBit ht v bn toggleBit

/-- The core's step keeps the inputs of its command (R33, R36). -/
theorem inputsKept_runCommand (b : Block W) (op : PendingOp) : b.InputsKept (b.runCommand op.body) := by
  have h := keepsInputs_body (InputsKept.refl b |>.readsOnly (readsOnly_clearPortLog b)) op
  unfold runCommand
  split
  · next t he => rw [he] at h; exact InputsKept.update h
  · next e t he => rw [he] at h; exact InputsKept.update h

/-- The operand registers and RSEL are as they were. -/
def OperandsKept (b t : Block W) : Prop :=
  t.xdesc = b.xdesc ∧ t.xsize = b.xsize ∧ t.xbase = b.xbase ∧ t.ximm = b.ximm ∧ t.ndesc = b.ndesc ∧
    t.nval = b.nval ∧ t.rsel = b.rsel

theorem InputsKept.operandsKept {t : Block W} (h : b.InputsKept t) : b.OperandsKept t :=
  ⟨h.xdesc, h.xsize, h.xbase, h.ximm, h.ndesc, h.nval, h.rsel⟩

theorem OperandsKept.refl (b : Block W) : b.OperandsKept b := ⟨rfl, rfl, rfl, rfl, rfl, rfl, rfl⟩

end Block

section
open Block
variable {W : Width} {b t : Block W} {m : Move W}

/-- No turn changes the parameters (R9). -/
theorem Turn.params (ht : Turn b m t) : t.params = b.params := by
  cases ht with
  | coreRuns _ => exact (inputsKept_runCommand b _).params
  | waitRuns _ => exact (inputsKept_runCommand (b.setAgenda _) _).params
  | writeReg r _ _ _ => cases r <;> rfl
  | illegalWord _ _ => exact (InputsKept.refl b).releaseResult.params
  | release _ _ => exact (InputsKept.refl b).releaseResult.params
  | accept _ _ _ => exact (InputsKept.refl b).releaseResult.params
  | memRead => exact (readsOnly_fetchDigit b _).eqs.1
  | _ => rfl

/-- Only a bus write and a reset can change an operand register or RSEL (R33, R36). -/
theorem Turn.operandsKept (ht : Turn b m t) (hw : ∀ addr size v, m ≠ .host (.busWrite addr size v))
    (hr : m ≠ .host .reset) : b.OperandsKept t := by
  cases ht with
  | coreRuns _ => exact (inputsKept_runCommand b _).operandsKept
  | waitRuns _ => exact (inputsKept_runCommand (b.setAgenda _) _).operandsKept
  | writeIgnored _ => exact absurd rfl (hw _ _ _)
  | writeReg _ _ _ _ => exact absurd rfl (hw _ _ _)
  | illegalWord _ _ => exact absurd rfl (hw _ _ _)
  | release _ _ => exact absurd rfl (hw _ _ _)
  | accept _ _ _ => exact absurd rfl (hw _ _ _)
  | reset => exact absurd rfl hr
  | memRead => exact (InputsKept.refl b |>.readsOnly (readsOnly_fetchDigit b _)).operandsKept
  | _ => exact .refl b

end

end Sys2Proof.Machine
end

section
/-!
SUPPORT. Reading and writing the register block: the fields of STATUS, the read/write registers, and what a bus
access reaches (R20 to R39, R48, R50).
-/
namespace Sys2Proof.Machine

/-! ### STATUS -/

theorem Phase.code_lt (p : Phase) : p.code < 4 := by cases p <;> decide

theorem ErrCode.code_lt (e : ErrCode) : e.code < 4 := by cases e <;> decide

theorem RForm.code_lt (f : RForm) : f.code < 8 := by cases f <;> decide

theorem WKind.code_lt (k : WKind) : k.code < 4 := by cases k <;> decide

/-- A field of a word, from the word as a number. -/
theorem extractLsb'_eq_ofNat {w : Nat} {x : BitVec w} {start len c : Nat} (h : x.toNat / 2 ^ start % 2 ^ len = c) :
    x.extractLsb' start len = BitVec.ofNat len c := by
  apply BitVec.eq_of_toNat_eq
  rw [BitVec.extractLsb'_toNat, BitVec.toNat_ofNat, Nat.shiftRight_eq_div_pow, ← h, Nat.mod_mod]

/-- A register of `n` defined bits reads back a value with the bits above them dropped (R27, R31). -/
theorem setWidth_setWidth_eq_and {W : Width} {n : Nat} (h : n ≤ W.bits) (v : Word W) :
    (v.setWidth n).setWidth W.bits = v &&& BitVec.ofNat W.bits (2 ^ n - 1) := by
  have hn : 2 ^ n ≤ 2 ^ W.bits := Nat.pow_le_pow_right (by decide) h
  have hpos : 0 < 2 ^ n := Nat.two_pow_pos n
  apply BitVec.eq_of_toNat_eq
  rw [BitVec.toNat_setWidth, BitVec.toNat_setWidth, BitVec.toNat_and, BitVec.toNat_ofNat,
    Nat.mod_eq_of_lt (show 2 ^ n - 1 < 2 ^ W.bits by omega), Nat.and_two_pow_sub_one_eq_mod]
  exact Nat.mod_eq_of_lt (Nat.lt_of_lt_of_le (Nat.mod_lt _ hpos) hn)

namespace Block
variable {W : Width} (b : Block W)

/-- STATUS as a number: the word is wide enough for every field (R24). -/
theorem statusWord_toNat : b.statusWord.toNat =
    b.phase.code + b.err.code * 2 ^ 2 + b.rform.code * 2 ^ 4 + b.rsign.toNat * 2 ^ 7 + b.wkind.code * 2 ^ 8 := by
  have h1 := b.phase.code_lt
  have h2 := b.err.code_lt
  have h3 := b.rform.code_lt
  have h4 := b.rsign.toNat_lt
  have h5 := b.wkind.code_lt
  have hW : 1024 ≤ 2 ^ W.bits := by cases W <;> decide
  exact Nat.mod_eq_of_lt (by omega)

/-- Each field of STATUS holds its code, and no bit is set above them (R24). -/
theorem statusWord_fields :
    b.statusWord.toNat / 2 ^ 0 % 2 ^ 2 = b.phase.code ∧ b.statusWord.toNat / 2 ^ 2 % 2 ^ 2 = b.err.code ∧
      b.statusWord.toNat / 2 ^ 4 % 2 ^ 3 = b.rform.code ∧ b.statusWord.toNat / 2 ^ 7 % 2 = b.rsign.toNat ∧
      b.statusWord.toNat / 2 ^ 8 % 2 ^ 2 = b.wkind.code ∧ b.statusWord.toNat / 2 ^ 10 = 0 := by
  have h1 := b.phase.code_lt
  have h2 := b.err.code_lt
  have h3 := b.rform.code_lt
  have h4 := b.rsign.toNat_lt
  have h5 := b.wkind.code_lt
  rw [statusWord_toNat]
  omega

/-- With no result, no error and no buffer STATUS is STATE alone. -/
theorem statusWord_of_quiet (he : b.err = .none) (hc : b.ResultCleared) (hk : b.wkind = .none) :
    b.statusWord = BitVec.ofNat W.bits b.phase.code := by
  simp [statusWord, he, hc.rform, hc.rsign, hk, ErrCode.code, RForm.code, WKind.code]

/-! ### The registers that are computed -/

theorem rdigWord_of_form (h : ¬ (b.rform = .compact ∨ b.rform = .digits)) : b.rdigWord = 0 := if_neg fun hr => h hr.1

theorem rdigWord_of_rsel (h : b.rsize.toNat ≤ b.rsel.toNat) : b.rdigWord = 0 :=
  if_neg fun hr => Nat.not_lt.mpr h hr.2

theorem rbaseWord_of_not_heap (h : b.wkind ≠ .heap) : b.rbaseWord = 0 := if_neg h

/-! ### Register writes -/

@[simp] theorem writeReg_mem (r : Reg) (v : Word W) : (b.writeReg r v).mem = b.mem := by cases r <;> rfl

@[simp] theorem writeReg_trace (r : Reg) (v : Word W) : (b.writeReg r v).trace = b.trace := by cases r <;> rfl

/-- The full-width read/write registers (R22). -/
theorem readReg_writeReg_same {r : Reg} (h : r ∈ [Reg.xsize, .xbase, .ximm, .nval, .rsel]) (v : Word W) :
    (b.writeReg r v).readReg r = v := by
  simp only [List.mem_cons, List.not_mem_nil, or_false] at h
  obtain rfl | rfl | rfl | rfl | rfl := h <;> rfl

/-- A read-only or reserved register ignores the write (R22). -/
theorem writeReg_readOnly {r : Reg} (h : r ∈ [Reg.status, .rval, .rsize, .rdig, .config, .maxdig, .rbase, .reserved])
    (v : Word W) : b.writeReg r v = b := by
  simp only [List.mem_cons, List.not_mem_nil, or_false] at h
  obtain rfl | rfl | rfl | rfl | rfl | rfl | rfl | rfl := h <;> rfl

/-- A write changes what no other register reads, but for the window RDIG that RSEL moves (R36, R37). -/
theorem readReg_writeReg_other {r r' : Reg} (h : r' ≠ r) (hw : ¬ (r = .rsel ∧ r' = .rdig)) (v : Word W) :
    (b.writeReg r v).readReg r' = b.readReg r' := by
  cases r with
  | xdesc => cases r' with | xdesc => exact absurd rfl h | _ => rfl
  | xsize => cases r' with | xsize => exact absurd rfl h | _ => rfl
  | xbase => cases r' with | xbase => exact absurd rfl h | _ => rfl
  | ximm => cases r' with | ximm => exact absurd rfl h | _ => rfl
  | ndesc => cases r' with | ndesc => exact absurd rfl h | _ => rfl
  | nval => cases r' with | nval => exact absurd rfl h | _ => rfl
  | rsel => cases r' with | rsel => exact absurd rfl h | rdig => exact absurd ⟨rfl, rfl⟩ hw | _ => rfl
  | _ => rfl

theorem readReg_setAgenda (l : List (Move W)) (r : Reg) : (b.setAgenda l).readReg r = b.readReg r := by
  cases r <;> rfl

end Block

/-! ### What a bus access reaches -/

theorem Reg.ofNum_ne_none {k : Nat} (h : k < 16) : Reg.ofNum k ≠ none := by
  interval_cases k <;> exact nofun

/-- An access that touches a byte of the block is inside it (R20). -/
theorem busTarget_ne_outside {W : Width} {p : Params} {addr size a : Nat} (h1 : p.blockBase ≤ a)
    (h2 : a < p.blockBase + 16 * W.bytes) (h3 : addr ≤ a) (h4 : a < addr + size) :
    busTarget W p addr size ≠ .outside := by
  unfold busTarget
  rw [if_neg (by omega)]
  split
  · exact nofun
  · next h =>
    simp only [not_or, Nat.not_lt, not_not, ne_eq] at h
    have hk : (addr - p.blockBase) / W.bytes < 16 := (Nat.div_lt_iff_lt_mul W.bytes_pos).mpr (by omega)
    cases hr : Reg.ofNum ((addr - p.blockBase) / W.bytes) with
    | some r => exact nofun
    | none => exact absurd hr (Reg.ofNum_ne_none hk)

/-- Any other access that touches the block is a partial one (R20). -/
theorem busTarget_eq_part {W : Width} {p : Params} {addr size : Nat} (ho : busTarget W p addr size ≠ .outside)
    (hr : ¬ ∃ r, size = W.bytes ∧ addr = regAddr W p r) : busTarget W p addr size = .part := by
  cases ht : busTarget W p addr size with
  | reg r => exact absurd ⟨r, (busTarget_iff W p addr size r).mp ht⟩ hr
  | part => rfl
  | outside => exact absurd ht ho

/-- A partial access is refused, be it a write or a read. -/
theorem step_part {W : Width} {b : Block W} {addr size : Nat} {v : Word W} {rest : List (Move W)}
    (ha : b.agenda = .host (.busWrite addr size v) :: rest ∨ b.agenda = .host (.busRead addr size) :: rest)
    (ht : busTarget W b.params addr size = .part) :
    step ⟨W, b⟩ = .refused (.partialRegisterAccess addr size) := by
  obtain ha | ha := ha <;> simp only [step, ha, hostTurn, Block.setAgenda_params, ht]

end Sys2Proof.Machine
end

section
/-!
The obligations about the registers, the reset state and the results.
-/
namespace Sys2Proof.Machine
open Block

/-- Settles O42: each field is read off STATUS as a number. -/
theorem statusFieldLayout : Obligations.StatusFieldLayout := by
  intro W b
  obtain ⟨hstate, herr, hform, hsign, hwbuf, habove⟩ := b.statusWord_fields
  refine ⟨(extractLsb'_eq_ofNat hstate).trans ?_, (extractLsb'_eq_ofNat herr).trans ?_,
    (extractLsb'_eq_ofNat hform).trans ?_, ?_, (extractLsb'_eq_ofNat hwbuf).trans ?_, ?_⟩
  · cases b.phase <;> rfl
  · cases b.err <;> rfl
  · cases b.rform <;> rfl
  · rw [readReg, BitVec.getLsbD, Nat.testBit_eq_decide_div_mod_eq, hsign]
    cases b.rsign <;> rfl
  · cases b.wkind <;> rfl
  · apply BitVec.eq_of_toNat_eq
    rw [BitVec.toNat_ushiftRight, Nat.shiftRight_eq_div_pow]
    exact habove

/-- Settles O44: CONFIG and MAXDIG fit a word at legal parameters; RDIG is its definition. -/
theorem computedRegistersRead : Obligations.ComputedRegistersRead := by
  intro W b hl
  have hconfig : W.bits + 4 * 256 < 2 ^ W.bits := by cases W <;> decide
  refine ⟨rfl, rfl, Nat.mod_eq_of_lt hconfig, Nat.mod_eq_of_lt (legal_lt hl (Nat.le_refl _)), ?_, ?_, ?_⟩
  · exact fun h1 h2 => b.rdigWord_of_form fun h => h.elim h1 h2
  · exact b.rdigWord_of_rsel
  · exact fun hf hr => if_pos ⟨hf, hr⟩

/-- Settles O50: the reset block holds no result, no error and no buffer, so STATUS and RBASE read 0. -/
theorem resetValues : Obligations.ResetValues := by
  intro W p
  refine ⟨rfl, rfl, rfl, rfl, rfl, rfl, rfl, rfl, rfl, rfl, rfl, rfl, rfl, rfl, rfl, rfl, ?_, ?_⟩
  · exact statusWord_of_quiet _ rfl ⟨rfl, rfl, rfl, rfl⟩ rfl
  · exact rbaseWord_of_not_heap _ nofun

/-- Settles O53: the reset state holds no buffer and no result. -/
theorem resetMeetsTheInvariant : Obligations.ResetMeetsTheInvariant :=
  ⟨inv_resetWith _ (by decide) [] ⟨.nil, nofun⟩, fun _ p hp => inv_resetWith p hp [] ⟨.nil, nofun⟩⟩

/-- Settles O57: every result form denotes a value, an ORIGINAL one the value the host keeps. -/
theorem everyResultDenotesAValue : Obligations.EveryResultDenotesAValue := by
  intro W b h hp
  constructor
  · intro he
    have hr := h.result hp he
    rw [resultValue, if_pos ⟨hp, he⟩]
    cases hf : b.rform with
    | none => simp only [ResultOk, hf] at hr
    | original => exact Option.ne_none_iff_exists'.mp (h.original hf)
    | _ => exact ⟨_, rfl⟩
  · rintro ⟨v, hv⟩
    by_contra he
    rw [resultValue, if_neg fun hd => he hd.2] at hv
    cases hv

/-- Settles O8: a BUSY block ignores the write, and by the invariant it holds nothing to read. -/
theorem registersWhileBusy : Obligations.RegistersWhileBusy := by
  intro W b h hp
  obtain ⟨he, hc, hk⟩ := h.quiet (by simp [hp])
  refine ⟨fun r v rest ha => ?_, ?_, hc.rval, hc.rsize, ?_, ?_⟩
  · rw [step_wr ha]
    exact hostWriteReg_busy (b := b.setAgenda rest) hp r v
  · exact (b.statusWord_of_quiet he hc hk).trans (by rw [hp]; rfl)
  · exact b.rdigWord_of_form (by simp [hc.rform])
  · exact b.rbaseWord_of_not_heap (by simp [hk])

/-- Settles O27: a command keeps the operand registers, and so does every turn but a bus write and a reset. -/
theorem onlyTheHostWritesOperandRegisters : Obligations.OnlyTheHostWritesOperandRegisters := by
  intro W b s' hs
  obtain ⟨t, rfl, ht⟩ := step_turn hs
  refine ⟨t, rfl, ht.params, fun hwrite hreset => ?_⟩
  cases ha : b.agenda with
  | nil =>
    rw [ha] at ht
    exact ht.operandsKept nofun nofun
  | cons m rest =>
    rw [ha] at ht
    exact ht.operandsKept (fun addr size v e => hwrite addr size v rest (e ▸ ha)) fun e => hreset rest (e ▸ ha)

/-- Settles O45: the step is the write of the register. -/
theorem registerWritesReadBack : Obligations.RegisterWritesReadBack := by
  intro W b r v rest hp hr ha
  refine ⟨(b.setAgenda rest).writeReg r v, ?_, writeReg_mem _ r v, writeReg_trace _ r v, ?_, ?_, ?_, ?_, ?_⟩
  · rw [step_wr ha]
    exact hostWriteReg_notBusy (b := b.setAgenda rest) hp hr v
  · exact fun h => readReg_writeReg_same _ h v
  · rintro rfl
    exact setWidth_setWidth_eq_and (by cases W <;> decide) v
  · rintro rfl
    exact setWidth_setWidth_eq_and (by cases W <;> decide) v
  · exact fun h => writeReg_readOnly _ h v
  · exact fun r' h hw => (readReg_writeReg_other _ h hw v).trans (readReg_setAgenda b rest r')

/-- Settles O46: an access that touches the block reaches a register or is a partial one. -/
theorem onlyWholeRegistersAreAccessed : Obligations.OnlyWholeRegistersAreAccessed := by
  intro W b addr size v rest
  refine ⟨busTarget_iff W b.params addr size, ?_⟩
  rintro ha ⟨a, h1, h2, h3, h4⟩ hr
  exact step_part ha (busTarget_eq_part (busTarget_ne_outside h1 h2 h3 h4) hr)

end Sys2Proof.Machine
end

section
/-!
SUPPORT. The copy of an editing command: when there is one, and where it is stored (R141 to R143, R173, R175, R179).
-/
namespace Sys2Proof.Machine
open Block

/-- A command is RELEASE or one of the six operations (R250). -/
theorem instr_cases (i : Instr) : i = .release ∨ ∃ op : PendingOp, i = op.instr := by
  cases h : pendingOf i with
  | none => exact .inl (pendingOf_eq_none h)
  | some op => exact .inr ⟨op, pendingOf_eq_some h⟩

theorem pendingOf_instr (op : PendingOp) : pendingOf op.instr = some op := by cases op <;> rfl

theorem PendingOp.instr_injective {op op' : PendingOp} (h : op.instr = op'.instr) : op = op' :=
  Option.some.inj (by rw [← pendingOf_instr, h, pendingOf_instr])

theorem Region.has_iff {r : Region} {a : Nat} : r.has a = true ↔ r.base ≤ a ∧ a < r.base + r.len := by
  simp [Region.has]

theorem Region.has_eq_false_of_disjoint {q r : Region} {a : Nat} (h : q.disjoint r = true) (ha : q.has a = true) :
    r.has a = false := by
  rw [Region.has_iff] at ha
  simp only [Region.disjoint, Bool.or_eq_true, decide_eq_true_eq] at h
  simp only [Region.has, Bool.and_eq_false_iff, decide_eq_false_iff_not]
  omega

namespace Block
variable {W : Width} {b t : Block W} {op : PendingOp} {f : Word W → Nat → Word W}

/-- The command comes to edit a bit by `f`: operands accepted, a VALUE index, for CLEAR one in range (R170, R175). -/
structure Edits (b : Block W) (op : PendingOp) (f : Word W → Nat → Word W) : Prop where
  ready : b.BitOpReady
  edit : editOf op = some f
  inRange : op = .clear → b.nval.toNat / W.bits < b.operandSize

/-- The core step of such a command is the edit (R173, R175, R179). -/
theorem Edits.runCommand (h : b.Edits op f) : b.runCommand op.body = b.editRun f := by
  obtain ⟨hready, hedit, hrange⟩ := h
  cases op with
  | set => cases hedit; exact run_set hready
  | toggle => cases hedit; exact run_toggle hready
  | clear => cases hedit; exact run_clear hready (hrange rfl)
  | _ => cases hedit

/-- An edit copies the needed digits, unless they are more than `MAX_DIGITS` (R142). -/
theorem Edits.copyLength (h : b.Edits op f) :
    b.copyLength op.instr = if b.neededDigits ≤ b.params.maxDigits then some b.neededDigits else none := by
  obtain ⟨hready, hedit, hrange⟩ := h
  unfold Block.copyLength
  by_cases hle : b.neededDigits ≤ b.params.maxDigits
  · rw [if_pos ⟨hready, hle⟩, if_pos hle]
    cases op with
    | set => rfl
    | toggle => rfl
    | clear => exact (if_pos (hrange rfl)).trans (congrArg some (Nat.max_eq_right (hrange rfl)).symm)
    | _ => cases hedit
  · rw [if_neg fun hc => hle hc.2, if_neg hle]

/-- Only an edit copies. -/
theorem edits_of_copyLength {i : Instr} {n : Nat} (h : b.copyLength i = some n) :
    ∃ op f, i = op.instr ∧ b.Edits op f := by
  unfold Block.copyLength at h
  split at h
  · next hc =>
    cases i with
    | set => exact ⟨.set, _, rfl, hc.1, rfl, nofun⟩
    | toggle => exact ⟨.toggle, _, rfl, hc.1, rfl, nofun⟩
    | clear =>
      split_ifs at h with hr
      exact ⟨.clear, _, rfl, hc.1, rfl, fun _ => hr⟩
    | _ => cases h
  · cases h

/-- The core step of a pending command, by cases. -/
theorem ended_runCommand (hl : b.params.legal W = true) (op : PendingOp) : Ended b op (b.runCommand op.body) := by
  obtain ⟨t, he, ht⟩ := exec_ended hl op
  rw [exec_pending] at he
  cases he
  exact ht

/-- A command that does not edit has no copy. -/
theorem copyLength_eq_none (h : ∀ f, ¬ b.Edits op f) : b.copyLength op.instr = none := by
  cases hc : b.copyLength op.instr with
  | none => rfl
  | some n =>
    obtain ⟨op', f, he, hf⟩ := edits_of_copyLength hc
    exact absurd (PendingOp.instr_injective he ▸ hf) (h f)

/-! ### The stored region -/

theorem storedRegion_of_copyLength_none {i : Instr} (h : b.copyLength i = none) : b.storedRegion i = none := by
  simp only [storedRegion, h]

theorem storedRegion_of_inline {i : Instr} {n : Nat} (h : b.copyLength i = some n) (hn : n < inlineThreshold) :
    b.storedRegion i = none := by
  simp only [storedRegion, h, if_pos hn]

theorem storedRegion_of_refused {i : Instr} {n : Nat} (h : b.copyLength i = some n)
    (ha : b.allocAnswer b.operandRegion n = .fail) : b.storedRegion i = none := by
  simp only [storedRegion, h, ha, ite_self]

theorem storedRegion_of_granted {i : Instr} {n : Nat} {base : Word W} (h : b.copyLength i = some n)
    (hn : inlineThreshold ≤ n) (ha : b.allocAnswer b.operandRegion n = .ok base) :
    b.storedRegion i = some ⟨base.toNat, n⟩ := by
  simp only [storedRegion, h, if_neg (Nat.not_lt.mpr hn), ha]

/-- Whatever is stored is the copy of an edit, in the region the allocator grants for it. -/
theorem edits_of_storedRegion {i : Instr} {r : Region} (h : b.storedRegion i = some r) :
    ∃ op f base, i = op.instr ∧ b.Edits op f ∧ b.neededDigits ≤ b.params.maxDigits ∧
      inlineThreshold ≤ b.neededDigits ∧ b.allocAnswer b.operandRegion b.neededDigits = .ok base ∧
      r = ⟨base.toNat, b.neededDigits⟩ := by
  cases hc : b.copyLength i with
  | none => rw [storedRegion_of_copyLength_none hc] at h; cases h
  | some n =>
    obtain ⟨op, f, rfl, he⟩ := edits_of_copyLength hc
    have hn := he.copyLength
    rw [hc] at hn
    split_ifs at hn with hle
    cases hn
    by_cases hlt : b.neededDigits < inlineThreshold
    · rw [storedRegion_of_inline hc hlt] at h; cases h
    · cases ha : b.allocAnswer b.operandRegion b.neededDigits with
      | fail => rw [storedRegion_of_refused hc ha] at h; cases h
      | ok base =>
        rw [storedRegion_of_granted hc (Nat.not_lt.mp hlt) ha] at h
        cases h
        exact ⟨op, f, base, rfl, he, hle, Nat.not_lt.mp hlt, rfl, rfl⟩

/-- The stored region shares no digit with the operand region (R64 b). -/
theorem storedRegion_disjoint {i : Instr} {r q : Region} (h : b.storedRegion i = some r)
    (hq : b.operandRegion = some q) : q.disjoint r = true := by
  obtain ⟨_, _, _, _, _, _, _, ha, rfl⟩ := edits_of_storedRegion h
  have hadm := allocAnswer_admissible ha
  rw [hq] at hadm
  simp only [admissible, Bool.and_eq_true] at hadm
  obtain ⟨⟨-, hapart⟩, -⟩ := hadm
  exact hapart

/-! ### The edit by the buffer it is made in -/

/-- The inline buffer of an edit, before the edit (R141). -/
abbrev inlineBuffer (b : Block W) : Block W := b.acquired.setWork .inline b.hbase b.neededDigits

/-- The buffer the allocator grants for an edit, before the edit (R143). -/
abbrev heapBuffer (b : Block W) (base : Word W) : Block W :=
  ((b.acquired.afterAlloc b.operandRegion b.neededDigits).addLive ⟨base.toNat, b.neededDigits⟩).setWork .heap base
    b.neededDigits

/-- The end of an edit made in the buffer of `c`. -/
abbrev editedIn (b c : Block W) (f : Word W → Nat → Word W) : Block W :=
  ((c.edited b.operandView b.neededDigits b.nval.toNat f).normalize false).finish

theorem EditOutcome.of_heap {base : Word W} (h : EditOutcome b f t) (hle : b.neededDigits ≤ b.params.maxDigits)
    (hn : inlineThreshold ≤ b.neededDigits) (ha : b.allocAnswer b.operandRegion b.neededDigits = .ok base) :
    t = b.editedIn (b.heapBuffer base) f := by
  cases h with
  | tooLarge h => omega
  | inline _ h => omega
  | refused _ _ h => rw [ha] at h; cases h
  | heap _ _ _ h => rw [ha] at h; cases h; rfl

end Block
end Sys2Proof.Machine
end

section
/-!
SUPPORT. What the core's port and INL see of each part of a command: the accesses in their order, and on the heap path
no cell of INL (R43, R71, R78).
-/
namespace Sys2Proof.Machine

/-- The accesses of a read of digit `i` of the view (R123). -/
def View.reads (v : View) (i : Nat) : List PortAccess :=
  match v.digits with
  | .acqd => []
  | .region base => [.read (base + i)]

namespace Block
variable {W : Width} {b c : Block W}

/-! ### Reads of the operand -/

theorem digit_portLog (b : Block W) (v : View) (i : Nat) : (b.digit v i).2.portLog = b.portLog ++ v.reads i := by
  cases h : v.digits with
  | acqd => simp [digit, View.reads, h]
  | region base => simp [digit, View.reads, h]

theorem countDigits_portLog (v : View) (k i n : Nat) (b : Block W) :
    (countDigits v k i n b).2.portLog = b.portLog ++ (List.range' i k).flatMap v.reads := by
  induction k generalizing i n b with
  | zero => simp [countDigits]
  | succ k ih => simp [countDigits, ih, digit_portLog, List.range'_succ]

/-- A DIGITS operand is read from its region, a COMPACT one not from memory (R121, R122). -/
theorem operandView_reads (b : Block W) (i : Nat) :
    b.operandView.reads i = if b.xform = 2 then [.read (b.xbase.toNat + i)] else [] := by
  by_cases h : b.xform = 2 <;> simp [View.reads, operandView, h]

theorem flatMap_operandView_reads (b : Block W) (l : List Nat) :
    l.flatMap b.operandView.reads = if b.xform = 2 then l.map (fun i => .read (b.xbase.toNat + i)) else [] := by
  rw [funext b.operandView_reads]
  by_cases h : b.xform = 2
  · simp only [h, if_true, List.map_eq_flatMap]
  · simp only [h, if_false, List.flatMap_eq_nil_iff, implies_true]

/-- No access before the operands are read: acquisition itself reads no digit (R122). -/
theorem acquired_portLog (b : Block W) : b.acquired.portLog = [] := by
  obtain ⟨v, hv⟩ := acquired_eq b
  rw [hv]
  rfl

theorem afterAlloc_portLog (b : Block W) (o : Option Region) (n : Nat) : (b.afterAlloc o n).portLog = b.portLog :=
  takeAnswer_portLog b

/-! ### The working buffer on the heap path -/

theorem wbufRead_portLog (hk : b.wkind = .heap) (i : Nat) :
    (b.wbufRead i).2.portLog = b.portLog ++ [.read (b.hbase.toNat + i)] := by
  simp [wbufRead, hk]

theorem wbufWrite_portLog (hk : b.wkind = .heap) (i : Nat) (v : Word W) :
    (b.wbufWrite i v).portLog = b.portLog ++ [.write (b.hbase.toNat + i)] := by
  simp [wbufWrite, hk, memWrite]

theorem wbufWrite_inl (hk : b.wkind = .heap) (i : Nat) (v : Word W) : (b.wbufWrite i v).inl = b.inl := by
  simp [wbufWrite, hk, memWrite]

theorem ReadsOnly.inl {t : Block W} (h : ReadsOnly b t) : t.inl = b.inl := by
  obtain ⟨_, _, rfl⟩ := h
  rfl

/-- From `b` to `t` the core has used a heap buffer: the accesses `l` were made, and INL is as it was. -/
structure HeapAccesses (b t : Block W) (l : List PortAccess) : Prop where
  only : BufferOnly b t
  portLog : t.portLog = b.portLog ++ l
  inl : t.inl = b.inl

theorem HeapAccesses.nil (b : Block W) : HeapAccesses b b [] := ⟨.refl b, (List.append_nil _).symm, rfl⟩

theorem HeapAccesses.append {t : Block W} {l l' : List PortAccess} (h : HeapAccesses b c l)
    (h' : HeapAccesses c t l') : HeapAccesses b t (l ++ l') :=
  ⟨h.only.trans h'.only, by rw [h'.portLog, h.portLog, List.append_assoc], h'.inl.trans h.inl⟩

theorem HeapAccesses.of_readsOnly {t : Block W} {l : List PortAccess} (h : ReadsOnly b t)
    (hl : t.portLog = b.portLog ++ l) : HeapAccesses b t l := ⟨h.bufferOnly, hl, h.inl⟩

theorem heapAccesses_digit (b : Block W) (v : View) (i : Nat) : HeapAccesses b (b.digit v i).2 (v.reads i) :=
  .of_readsOnly (readsOnly_digit b v i) (digit_portLog b v i)

theorem heapAccesses_wbufRead (hk : b.wkind = .heap) (i : Nat) :
    HeapAccesses b (b.wbufRead i).2 [.read (b.hbase.toNat + i)] :=
  .of_readsOnly (readsOnly_wbufRead b i) (wbufRead_portLog hk i)

theorem heapAccesses_wbufWrite (hk : b.wkind = .heap) (i : Nat) (v : Word W) :
    HeapAccesses b (b.wbufWrite i v) [.write (b.hbase.toNat + i)] :=
  ⟨bufferOnly_wbufWrite b i v, wbufWrite_portLog hk i v, wbufWrite_inl hk i v⟩

/-- Each digit is read just before it is written (R144). -/
theorem heapAccesses_copyDigits (v : View) (k i : Nat) (hk : b.wkind = .heap) :
    HeapAccesses b (copyDigits v k i b)
      ((List.range' i k).flatMap fun j => v.reads j ++ [.write (b.hbase.toNat + j)]) := by
  induction k generalizing i b with
  | zero => exact .nil b
  | succ k ih =>
    have hr := heapAccesses_digit b v i
    have hw := heapAccesses_wbufWrite (hr.only.wkind.trans hk) i (b.digit v i).1
    rw [hr.only.hbase] at hw
    have hone := hr.append hw
    have hrest := ih (i + 1) (hone.only.wkind.trans hk)
    rw [hone.only.hbase] at hrest
    rw [List.range'_succ, List.flatMap_cons]
    exact hone.append hrest

theorem heapAccesses_zeroFill (k i : Nat) (hk : b.wkind = .heap) :
    HeapAccesses b (zeroFill k i b) ((List.range' i k).map fun j => .write (b.hbase.toNat + j)) := by
  induction k generalizing i b with
  | zero => exact .nil b
  | succ k ih =>
    have hone := heapAccesses_wbufWrite hk i 0
    have hrest := ih (i + 1) (hone.only.wkind.trans hk)
    rw [hone.only.hbase] at hrest
    rw [List.range'_succ, List.map_cons]
    exact hone.append hrest

/-- The copy, the zeros, then the bit's digit read and written (R144, R173). -/
theorem heapAccesses_edited (v : View) (n bn : Nat) (f : Word W → Nat → Word W) (hk : b.wkind = .heap) :
    HeapAccesses b (b.edited v n bn f)
      (((List.range' 0 v.size).flatMap fun j => v.reads j ++ [.write (b.hbase.toNat + j)]) ++
        ((List.range' v.size (n - v.size)).map fun j => .write (b.hbase.toNat + j)) ++
        [.read (b.hbase.toNat + digitIndex W bn), .write (b.hbase.toNat + digitIndex W bn)]) := by
  have hcopy := heapAccesses_copyDigits v v.size 0 hk
  have hzero := heapAccesses_zeroFill (n - v.size) v.size (hcopy.only.wkind.trans hk)
  rw [hcopy.only.hbase] at hzero
  have hgrown : HeapAccesses b (b.grown v n) _ := hcopy.append hzero
  have hread := heapAccesses_wbufRead (hgrown.only.wkind.trans hk) (digitIndex W bn)
  rw [hgrown.only.hbase] at hread
  have hupto := hgrown.append hread
  have hwrite := heapAccesses_wbufWrite (hupto.only.wkind.trans hk) (digitIndex W bn)
    (f ((b.grown v n).wbufRead (digitIndex W bn)).1 (bitOffset W bn))
  rw [hupto.only.hbase] at hwrite
  have hall := hupto.append hwrite
  rw [List.append_assoc] at hall
  exact hall

/-! ### Normalisation -/

theorem trim_le (k : Nat) (b : Block W) : (trim k b).1 ≤ k := by
  induction k generalizing b with
  | zero => exact Nat.le_refl _
  | succ k ih =>
    cases k with
    | zero => exact Nat.le_refl _
    | succ k =>
      rw [trim_succ_succ]
      split
      · exact Nat.le_succ_of_le (ih _)
      · exact Nat.le_refl _

/-- What normalisation of a non-negative buffer ends in: the fields of the result, over a block only read. -/
theorem formResult_eq (b : Block W) (k : Nat) : ∃ form val,
    b.formResult false k =
      (if k = 1 then (b.wbufRead 0).2 else b).setResult form false val (BitVec.ofNat W.bits k) := by
  by_cases hk : k = 1
  · subst hk; exact ⟨.compact, (b.wbufRead 0).1, rfl⟩
  · exact ⟨.digits, 0, by simp [formResult, hk]⟩

theorem normalize_inl (b : Block W) : (b.normalize false).inl = b.inl := by
  obtain ⟨form, val, he⟩ := formResult_eq (trim b.wn b).2 (trim b.wn b).1
  have hr := (trim_readsOnly b.wn b).inl
  rw [normalize, he, setResult_inl]
  split
  · exact (readsOnly_wbufRead _ 0).inl.trans hr
  · exact hr

theorem normalize_rsize (h : b.wn < 2 ^ W.bits) : (b.normalize false).rsize.toNat = (trim b.wn b).1 := by
  obtain ⟨form, val, he⟩ := formResult_eq (trim b.wn b).2 (trim b.wn b).1
  rw [normalize, he, setResult_rsize, BitVec.toNat_ofNat]
  exact Nat.mod_eq_of_lt (Nat.lt_of_le_of_lt (trim_le _ _) h)

/-- The digits `n - 1`, `n - 2`, ... of the heap buffer at `base`, `k` of them, are read (R210). -/
def readsDown (base n k : Nat) : List PortAccess := (List.range k).map fun j => .read (base + (n - 1 - j))

theorem readsDown_succ (base n k : Nat) :
    readsDown base (n + 1) (k + 1) = .read (base + n) :: readsDown base n k := by
  simp only [readsDown, List.range_succ_eq_map, List.map_cons, List.map_map, Nat.add_sub_cancel, Nat.sub_zero]
  congr 2
  funext j
  simp only [Function.comp, Nat.succ_eq_add_one, Nat.sub_sub, Nat.add_comm 1 j]

/-- From the top digit down to the highest that is not 0, or to the lowest (R210, R211). -/
theorem formResult_trim_portLog (k : Nat) (hk : b.wkind = .heap) :
    ((trim (k + 1) b).2.formResult false (trim (k + 1) b).1).portLog =
      b.portLog ++ readsDown b.hbase.toNat (k + 1) (k + 1 - (trim (k + 1) b).1 + 1) := by
  induction k generalizing b with
  | zero =>
    rw [trim_one, readsDown_succ]
    exact wbufRead_portLog hk 0
  | succ k ih =>
    have hr := readsOnly_wbufRead b (k + 1)
    have hlog := wbufRead_portLog hk (k + 1)
    rw [trim_succ_succ]
    split
    · have hle := trim_le (k + 1) (b.wbufRead (k + 1)).2
      rw [ih (hr.bufferOnly.wkind.trans hk), hlog, hr.bufferOnly.hbase, Nat.succ_sub hle, readsDown_succ _ (k + 1),
        List.append_assoc, List.singleton_append]
    · obtain ⟨form, val, he⟩ := formResult_eq (b.wbufRead (k + 1)).2 (k + 2)
      rw [he, setResult_portLog, if_neg (by omega), hlog, Nat.sub_self, readsDown_succ]
      rfl

theorem normalize_portLog (hk : b.wkind = .heap) (hn : 1 ≤ b.wn) :
    (b.normalize false).portLog =
      b.portLog ++ readsDown b.hbase.toNat b.wn (b.wn - (trim b.wn b).1 + 1) := by
  have h := formResult_trim_portLog (b.wn - 1) hk
  rwa [Nat.sub_add_cancel hn] at h

end Block
end Sys2Proof.Machine
end

section
/-!
SUPPORT. The frame of a command: which storage it leaves as it was (R61, R64, R181).
-/
namespace Sys2Proof.Machine.Block
variable {W : Width} {b t : Block W} {op : PendingOp} {f : Word W → Nat → Word W}

/-- What a command leaves of memory, of the allocator's side and of INL, by the region it stores its copy to. -/
structure CommandFrame (b : Block W) (i : Instr) (t : Block W) : Prop where
  stored : ∀ r, b.storedRegion i = some r →
    b.MemoryKeptOutside r t ∧ t.live = r :: b.live ∧ (∀ a, a ∈ t.released → a ∈ b.released) ∧ t.inl = b.inl
  unstored : b.storedRegion i = none → t.mem = b.mem ∧ t.live = b.live ∧ t.released = b.released
  inl : b.copyLength i = none → t.inl = b.inl

theorem commandFrame_of_unstored {i : Instr} (hs : b.storedRegion i = none)
    (hk : t.mem = b.mem ∧ t.live = b.live ∧ t.released = b.released) (hi : b.copyLength i = none → t.inl = b.inl) :
    b.CommandFrame i t where
  stored r hr := by rw [hs] at hr; cases hr
  unstored _ := hk
  inl := hi

/-- A command that comes to no copy keeps all storage. -/
theorem StorageKept.commandFrame {i : Instr} (h : b.StorageKept t) (hc : b.copyLength i = none) :
    b.CommandFrame i t :=
  commandFrame_of_unstored (storedRegion_of_copyLength_none hc) ⟨h.mem, h.live, h.released⟩ fun _ => h.inl

theorem heapBuffer_live (b : Block W) (base : Word W) :
    (b.heapBuffer base).live = ⟨base.toNat, b.neededDigits⟩ :: b.live := by
  obtain ⟨v, hv⟩ := acquired_eq b
  rw [heapBuffer, hv]
  exact congrArg _ (takeAnswer_live _)

theorem heapBuffer_inl (b : Block W) (base : Word W) : (b.heapBuffer base).inl = b.inl := by
  obtain ⟨v, hv⟩ := acquired_eq b
  rw [heapBuffer, hv]
  exact takeAnswer_inl _

theorem heapBuffer_portLog (b : Block W) (base : Word W) : (b.heapBuffer base).portLog = [] := by
  simp only [setWork_portLog, addLive_portLog, afterAlloc_portLog, acquired_portLog]

theorem inlineBuffer_live (b : Block W) : b.inlineBuffer.live = b.live := by
  obtain ⟨v, hv⟩ := acquired_eq b
  rw [inlineBuffer, hv]
  rfl

/-- What a completed edit has set, and what of its buffer it has kept. -/
theorem EditEnd.eqs {c : Block W} (h : EditEnd c t) :
    t.phase = .done ∧ t.err = .none ∧ t.wkind = c.wkind ∧ t.hbase = c.hbase ∧ t.wn = c.wn ∧ t.live = c.live := by
  obtain ⟨_, _, _, _, _, _, _, _, rfl⟩ := h
  exact ⟨rfl, rfl, rfl, rfl, rfl, rfl⟩

theorem EditEnd.live {c : Block W} (h : EditEnd c t) : t.live = c.live := by
  obtain ⟨-, -, -, -, -, hlive⟩ := h.eqs
  exact hlive

theorem editedIn_inl {c : Block W} (hk : c.wkind = .heap) : (b.editedIn c f).inl = c.inl :=
  (normalize_inl _).trans (heapAccesses_edited b.operandView b.neededDigits b.nval.toNat f hk).inl

/-- On the heap path an edit stores to the granted region alone. -/
theorem EditedFrom.commandFrame_heap {base : Word W} (hed : EditedFrom b (b.heapBuffer base) t f)
    (hc : BufferFor b (b.heapBuffer base)) (hinl : t.inl = b.inl) {i : Instr}
    (hs : b.storedRegion i = some ⟨base.toNat, b.neededDigits⟩) : b.CommandFrame i t := by
  refine ⟨fun r hr => ?_, fun hn => ?_, fun _ => hinl⟩
  · rw [hs] at hr
    cases hr
    refine ⟨fun k hk => ?_, hed.fin.live.trans (heapBuffer_live b base), fun a ha => ?_, hinl⟩
    · rw [hed.outside k fun _ j hj e => ?_, hc.mem]
      have hin : base.toNat ≤ k / W.bytes ∧ k / W.bytes < base.toNat + b.neededDigits := by
        rw [e]
        exact ⟨Nat.le_add_right _ _, Nat.add_lt_add_left hj _⟩
      rw [Region.has_iff.mpr hin] at hk
      cases hk
    · exact hc.released ▸ hed.releasedSubset a ha
  · rw [hs] at hn; cases hn

/-- An edit stores to the granted region on the heap path, and nothing to memory on any other. -/
theorem EditOutcome.commandFrame (ht : EditOutcome b f t) (h : b.Inv) (hp : b.phase = .busy) (he : b.Edits op f) :
    b.CommandFrame op.instr t := by
  have hlen := he.copyLength
  have hfrom {c : Block W} (hle : b.neededDigits ≤ b.params.maxDigits) (hc : BufferFor b c) :=
    editedFrom he.ready.1 (legal_lt h.legal hle) hc f
  cases ht with
  | tooLarge hlt =>
    rw [if_neg (Nat.not_le.mpr hlt)] at hlen
    exact (fail_end (.inr rfl) (h.noBuffer (by simp [hp])).wkind _).2.2.commandFrame hlen
  | refused hle _ ha =>
    rw [if_pos hle] at hlen
    obtain ⟨v, hv⟩ := acquired_eq b
    rw [hv]
    refine commandFrame_of_unstored (storedRegion_of_refused hlen ha) ⟨?_, ?_, ?_⟩ fun _ => ?_
    · exact takeAnswer_mem _
    · exact takeAnswer_live _
    · exact takeAnswer_released _
    · exact takeAnswer_inl _
  | inline hle hlt =>
    rw [if_pos hle] at hlen
    have hc := bufferFor_inline h.mem hlt
    have hed := hfrom hle hc
    obtain ⟨hmem, hrel⟩ := hed.inlineMem rfl
    refine commandFrame_of_unstored (storedRegion_of_inline hlen hlt) ⟨hmem.trans hc.mem, ?_, hrel.trans hc.released⟩ ?_
    · exact hed.fin.live.trans (inlineBuffer_live b)
    · rw [hlen]; exact nofun
  | heap base hle hge ha =>
    rw [if_pos hle] at hlen
    have hc := bufferFor_heap h.mem ha
    exact (hfrom hle hc).commandFrame_heap hc ((editedIn_inl rfl).trans (heapBuffer_inl b base))
      (storedRegion_of_granted hlen hge ha)

/-- The frame of every command of the core, however it ends. -/
theorem Ended.commandFrame (ht : Ended b op t) (h : b.Inv) (hp : b.phase = .busy) : b.CommandFrame op.instr t := by
  have hk := (h.noBuffer (by simp [hp])).wkind
  cases ht with
  | rejected c ha hc =>
    refine (fail_end hc hk _).2.2.commandFrame (copyLength_eq_none fun f he => ha ⟨he.ready.1, fun _ => ?_⟩)
    exact ⟨.inl he.ready.2.2, he.ready.2.1⟩
  | scalar c v _ ho hc hv =>
    refine (scalar_end hc hk hv).2.2.commandFrame (copyLength_eq_none fun f he => ?_)
    obtain rfl | rfl | rfl := ho <;> cases he.edit
  | original _ ho hr =>
    refine original_end.2.commandFrame (copyLength_eq_none fun f he => ?_)
    have := he.inRange ho
    obtain h2 | h2 := hr
    · rw [he.ready.2.2] at h2; cases h2
    · omega
  | huge _ _ hn =>
    refine (fail_end (.inr rfl) hk _).2.2.commandFrame (copyLength_eq_none fun f he => ?_)
    rw [he.ready.2.2] at hn; cases hn
  | edit f _ hb ho hr ht => exact ht.commandFrame h hp ⟨hb, ho, hr⟩

/-- A digit reads as before if each of its bytes does. -/
theorem digitAt_eq_of_bytes {a : Nat} (hp : t.params = b.params)
    (h : ∀ k, k / W.bytes = a → readByte t.mem k = readByte b.mem k) : t.digitAt a = b.digitAt a := by
  unfold digitAt readDigit
  rw [hp]
  exact congrArg _ (readBytes_congr fun i hi => h _ (byteKey_div _ _ hi))

/-- A digit outside the region a command stores to reads as before (R65). -/
theorem CommandFrame.digitAt {i : Instr} {a : Nat} (h : b.CommandFrame i t) (hp : t.params = b.params)
    (ha : ∀ r, b.storedRegion i = some r → r.has a = false) : t.digitAt a = b.digitAt a := by
  refine digitAt_eq_of_bytes hp fun k hk => ?_
  cases hs : b.storedRegion i with
  | none => rw [(h.unstored hs).1]
  | some r => exact (h.stored r hs).1 k (hk ▸ ha r hs)

end Sys2Proof.Machine.Block
end

section
/-!
SUPPORT. The port's log at the end of a command (R78), and a host read of a held heap result (R66).
-/
namespace Sys2Proof.Machine.Block
variable {W : Width} {b t : Block W} {op : PendingOp} {f : Word W → Nat → Word W}

/-- The accesses of an edit on the heap path, in order. -/
theorem editedIn_portLog {c : Block W} (hk : c.wkind = .heap) (hl : c.portLog = []) (hn : c.wn = b.neededDigits)
    (hw : b.neededDigits < 2 ^ W.bits) :
    (b.editedIn c f).portLog =
      ((List.range' 0 b.operandSize).flatMap fun j => b.operandView.reads j ++ [.write (c.hbase.toNat + j)]) ++
      ((List.range' b.operandSize (b.neededDigits - b.operandSize)).map fun j => .write (c.hbase.toNat + j)) ++
      [.read (c.hbase.toNat + digitIndex W b.nval.toNat), .write (c.hbase.toNat + digitIndex W b.nval.toNat)] ++
      readsDown c.hbase.toNat b.neededDigits (b.neededDigits - (b.editedIn c f).rsize.toNat + 1) := by
  have h := heapAccesses_edited b.operandView b.neededDigits b.nval.toNat f hk
  have hwn := h.only.wn.trans hn
  have hlog := normalize_portLog (h.only.wkind.trans hk) (by rw [hwn]; exact neededDigits_pos b)
  rw [← normalize_rsize (by rw [hwn]; exact hw), h.only.hbase, hwn, h.portLog, hl, operandView_size] at hlog
  exact hlog

/-- A command that comes to no copy and reads no digit makes no access. -/
theorem Ended.portLog_of_clear (ht : Ended b .clear t) (hc : b.copyLength .clear = none) : t.portLog = [] := by
  cases ht with
  | rejected c _ hc =>
    obtain rfl | rfl := hc
    · rfl
    · exact acquired_portLog b
  | scalar _ _ _ ho => simp at ho
  | original _ _ _ => exact acquired_portLog b
  | huge _ ho _ => simp at ho
  | edit f _ hb ho hr ht =>
    have hlen := (Edits.copyLength ⟨hb, ho, hr⟩).symm.trans hc
    have hlt : ¬ b.neededDigits ≤ b.params.maxDigits := fun hle => by rw [if_pos hle] at hlen; cases hlen
    cases ht with
    | tooLarge _ => exact acquired_portLog b
    | refused hle _ _ => exact absurd hle hlt
    | inline hle _ => exact absurd hle hlt
    | heap _ hle _ _ => exact absurd hle hlt

/-- An edit ends with no error or with AllocationFailure (R281, R282). -/
theorem EditOutcome.err_ne_badArgument (ht : EditOutcome b f t) : t.err ≠ .badArgument := by
  cases ht <;> exact nofun

/-- A command that ends in BadArgument makes no access: the operands are rejected before any digit is read. -/
theorem Ended.portLog_of_badArgument (ht : Ended b op t) (he : t.err = .badArgument) : t.portLog = [] := by
  cases ht with
  | rejected c _ hc =>
    obtain rfl | rfl := hc
    · rfl
    · exact acquired_portLog b
  | scalar _ _ _ _ _ _ => cases he
  | original _ _ _ => cases he
  | huge _ _ _ => cases he
  | edit _ _ _ _ _ ht => exact absurd he ht.err_ne_badArgument

/-! ### TEST by its operands (R171) -/

/-- The bit of a digit in range is read from that digit. -/
theorem run_test_inRange (h : b.BitOpReady) (hr : b.nval.toNat / W.bits < b.operandSize) :
    b.runCommand testBody =
      ((b.acquired.digit b.operandView (digitIndex W b.nval.toNat)).2.scalarResult
        ((b.acquired.digit b.operandView (digitIndex W b.nval.toNat)).1.getLsbD
          (bitOffset W b.nval.toNat)).toNat).finish := by
  have h2 : b.nkind ≠ 2 := by rw [h.2.2]; decide
  refine (run_of_prologue h.1 (.inl h.2.2) h.2.1 _).trans ?_
  have : ¬ b.operandView.size ≤ digitIndex W b.nval.toNat := by
    rw [operandView_size]; exact Nat.not_le.mpr hr
  simp only [indexOf, h2, if_false, this]

/-- A HUGE index or one out of range gives 0, and no digit is read. -/
theorem run_test_outOfRange (h : b.HasNumber) (hn : b.HasIndex) (hs : ¬ b.Negative)
    (hr : b.nkind = 2 ∨ b.operandSize ≤ b.nval.toNat / W.bits) :
    b.runCommand testBody = (b.acquired.scalarResult 0).finish := by
  refine (run_of_prologue h hn hs _).trans ?_
  by_cases h2 : b.nkind = 2
  · simp only [indexOf, h2, if_true]
  · have : b.operandView.size ≤ digitIndex W b.nval.toNat := by
      rw [operandView_size]; exact hr.resolve_left h2
    simp only [indexOf, h2, if_false, this, if_true]

/-! ### The accesses of SIZE, COUNT and TEST (R78) -/

theorem size_portLog (h : b.HasNumber) :
    (b.runCommand sizeBody).portLog = [b.operandSize - 1].flatMap b.operandView.reads := by
  rw [run_size h, List.flatMap_singleton]
  exact (digit_portLog b.acquired b.operandView _).trans (by rw [acquired_portLog, List.nil_append])

theorem count_portLog (h : b.HasNumber) :
    (b.runCommand countBody).portLog = (List.range b.operandSize).flatMap b.operandView.reads := by
  rw [run_count h, List.range_eq_range']
  exact (countDigits_portLog b.operandView _ 0 0 b.acquired).trans (by rw [acquired_portLog, List.nil_append])

theorem test_portLog_of_inRange (h : b.BitOpReady) (hr : b.nval.toNat / W.bits < b.operandSize) :
    (b.runCommand testBody).portLog = [b.nval.toNat / W.bits].flatMap b.operandView.reads := by
  rw [run_test_inRange h hr, List.flatMap_singleton]
  exact (digit_portLog b.acquired b.operandView _).trans (by rw [acquired_portLog, List.nil_append]; rfl)

/-- A TEST that rejects its operands, or whose index is HUGE or out of range, makes no access. -/
theorem test_portLog_eq_nil (h : ¬ (b.BitOpReady ∧ b.nval.toNat / W.bits < b.operandSize)) :
    (b.runCommand testBody).portLog = [] := by
  by_cases ha : b.HasNumber ∧ b.HasIndex ∧ ¬ b.Negative
  · obtain ⟨hx, hn, hs⟩ := ha
    have hout : b.nkind = 2 ∨ b.operandSize ≤ b.nval.toNat / W.bits :=
      hn.symm.imp_right fun h1 => Nat.not_lt.mp fun hr => h ⟨⟨hx, hs, h1⟩, hr⟩
    rw [run_test_outOfRange hx hn hs hout]
    exact acquired_portLog b
  · obtain ⟨t, ht, hc⟩ : ∃ t : Block W, b.runCommand testBody = t.failWith .badArgument ∧
        (t = b.clearPortLog ∨ t = b.acquired) := run_of_prologue_raise ha _
    rw [ht]
    obtain rfl | rfl := hc
    · rfl
    · exact acquired_portLog b

/-! ### The held heap result (R66) -/

/-- A result with digits is held in DONE alone, with a digit count within the buffer (R26, R35). -/
theorem Inv.of_heldDigits (h : b.Inv) (hf : b.rform = .compact ∨ b.rform = .digits) :
    b.phase = .done ∧ b.rsize.toNat ≤ b.wn := by
  have hnone : b.rform ≠ .none := by rintro e; simp [e] at hf
  have hdone : b.phase = .done := not_not.mp fun hp => hnone (h.quiet hp).2.1.rform
  have herr : b.err = .none := not_not.mp fun he => hnone (h.failed he).1.rform
  have hres := h.result hdone herr
  refine ⟨hdone, ?_⟩
  obtain hf | hf := hf <;> simp only [ResultOk, hf] at hres
  · obtain ⟨-, hsize, hk, -⟩ := hres
    rw [hsize]
    exact Nat.le_trans (by cases W <;> decide) (h.work.wn_pos hk)
  · obtain ⟨-, -, -, -, hle, -⟩ := hres
    exact hle

/-- A step on a host read of a digit the host may read (R51, R60). -/
theorem step_memRead {a : Nat} {rest : List (Move W)} (h : b.agenda = .host (.memRead a) :: rest)
    (ha : a < 2 ^ W.bits) (hr : b.hostMayNotRead a = false) :
    step ⟨W, b⟩ =
      .next ⟨W, ((b.setAgenda rest).fetchDigit a).2.setBusData ((b.setAgenda rest).fetchDigit a).1⟩ := by
  have hr' : (b.setAgenda rest).hostMayNotRead a = false := hr
  simp only [step, h, hostTurn, if_neg (Nat.not_le.mpr ha), hr', Bool.false_eq_true, if_false]

theorem fetchDigit_fst {a : Nat} (h : a ∉ b.released) : (b.fetchDigit a).1 = b.digitAt a := by
  rw [fetchDigit, if_neg h]

theorem WorkOk.heap (h : b.WorkOk) (hk : b.wkind = .heap) :
    b.hbase.toNat + b.wn ≤ 2 ^ W.bits ∧ ∀ i, i < b.wn → b.hbase.toNat + i ∉ b.released := by
  simp only [WorkOk, hk] at h
  obtain ⟨-, -, hwrap, -, hrel⟩ := h
  exact ⟨hwrap, hrel⟩

end Sys2Proof.Machine.Block
end

section
/-!
SUPPORT. What a command's result is, from its operands and the allocator's answer alone: the scalar commands, and the
edit, whose result is what normalisation makes of the buffer's digits (R171, R200, R210 to R212, R230).
-/
namespace Sys2Proof.Machine.Block
variable {W : Width} {b c t u : Block W} {op : PendingOp} {f : Word W → Nat → Word W}

/-! ### SIZE, COUNT and TEST -/

section
variable (h : b.Inv) (hp : b.phase = .busy) (hx : b.HasNumber) (hs : b.Settled)
include h hp hx hs

theorem size_scalarDone :
    (b.runCommand sizeBody).ScalarDone
      ((b.operandSize - 1) * W.bits + bitlen (b.operandDigit (b.operandSize - 1))) := by
  have hpos := operandSize_pos hx
  rw [run_size hx, acquired_digit_fst hx hs (Nat.sub_one_lt_of_lt hpos)]
  exact (scalar_end (readsOnly_digit _ _ _) (h.noBuffer (by simp [hp])).wkind (bitLength_lt h.legal hx _)).1

theorem count_scalarDone :
    (b.runCommand countBody).ScalarDone ((List.range b.operandSize).map fun i => popcount (b.operandDigit i)).sum := by
  have hcount := countDigits_eq b.operandView b.operandSize 0 0 b.acquired (acquired_viewSettled hx hs) (by simp)
  have hle := countDigits_le b.operandView b.operandSize 0 0 b.acquired
  simp only [acquired_viewDigit hx, ← List.range_eq_range', Nat.zero_add] at hcount hle
  rw [run_count hx, hcount]
  exact (scalar_end (countDigits_readsOnly _ _ _ _ _) (h.noBuffer (by simp [hp])).wkind
    (hcount ▸ Nat.lt_of_le_of_lt hle (legal_bound h.legal (operandSize_le h.legal hx)))).1

end

theorem test_scalarDone_of_inRange (h : b.Inv) (hp : b.phase = .busy) (hb : b.BitOpReady) (hs : b.Settled)
    (hr : b.nval.toNat / W.bits < b.operandSize) :
    (b.runCommand testBody).ScalarDone
      ((b.operandDigit (b.nval.toNat / W.bits)).getLsbD (b.nval.toNat % W.bits)).toNat := by
  have hdigit : (b.acquired.digit b.operandView (digitIndex W b.nval.toNat)).1 =
      b.operandDigit (b.nval.toNat / W.bits) := acquired_digit_fst hb.1 hs hr
  rw [run_test_inRange hb hr, hdigit]
  refine (scalar_end (readsOnly_digit _ _ _) (h.noBuffer (by simp [hp])).wkind ?_).1
  exact Nat.lt_of_lt_of_le (Bool.toNat_lt _) (by cases W <;> decide)

theorem test_scalarDone_of_outOfRange (h : b.Inv) (hp : b.phase = .busy) (hx : b.HasNumber) (hn : b.HasIndex)
    (hs : ¬ b.Negative) (hr : b.nkind = 2 ∨ b.operandSize ≤ b.nval.toNat / W.bits) :
    (b.runCommand testBody).ScalarDone 0 := by
  rw [run_test_outOfRange hx hn hs hr]
  exact (scalar_end (.refl _) (h.noBuffer (by simp [hp])).wkind (Nat.two_pow_pos _)).1

/-! ### A rejected command -/

theorem Ended.failedWith_of_rejected (ht : Ended b op t) (hk : b.wkind = .none) (h : ¬ b.Accepted op) :
    t.FailedWith .badArgument := by
  cases ht with
  | rejected c _ hc => exact (fail_end hc hk _).1
  | scalar _ _ ha => exact absurd ha h
  | original ha => exact absurd ha h
  | huge ha => exact absurd ha h
  | edit _ _ hb => exact absurd ⟨hb.1, fun _ => ⟨.inl hb.2.2, hb.2.1⟩⟩ h

/-! ### The edit, and SET and TOGGLE with no edit to make -/

/-- A HUGE index makes SET and TOGGLE fail (R162). -/
theorem failedWith_of_huge (hk : b.wkind = .none) (ho : op = .set ∨ op = .toggle) (hx : b.HasNumber)
    (hn : b.nkind = 2) (hs : ¬ b.Negative) : (b.runCommand op.body).FailedWith .allocationFailure := by
  have hrun : b.runCommand op.body = b.acquired.failWith .allocationFailure := by
    obtain rfl | rfl := ho
    · exact run_set_huge hx hn hs
    · exact run_toggle_huge hx hn hs
  rw [hrun]
  exact (fail_end (.inr rfl) hk _).1

/-- Digit `i` of the operand grown, with the edit in the bit's digit (R173, R175, R179). -/
def editedDigit (b : Block W) (f : Word W → Nat → Word W) (i : Nat) : Word W :=
  if i = b.nval.toNat / W.bits then f (b.grownDigit i) (b.nval.toNat % W.bits) else b.grownDigit i

/-- With no buffer to be had the edit ends in AllocationFailure (R142, R147). -/
theorem EditOutcome.failedWith (ht : EditOutcome b f t) (hk : b.wkind = .none)
    (hg : ¬ b.BufferGranted b.neededDigits) : t.FailedWith .allocationFailure := by
  cases ht with
  | tooLarge _ => exact (fail_end (.inr rfl) hk _).1
  | refused _ _ _ =>
    obtain ⟨v, hv⟩ := acquired_eq b
    rw [hv]
    exact ⟨rfl, rfl, ⟨rfl, rfl, rfl, rfl⟩, (takeAnswer_wkind _).trans hk⟩
  | inline hle hlt => exact absurd ⟨hle, .inl hlt⟩ hg
  | heap base hle _ ha => exact absurd ⟨hle, .inr (by rw [ha]; exact nofun)⟩ hg

theorem EditedFrom.editDone (h : EditedFrom b c t f) (hs : b.Settled) (hn : c.wn = b.neededDigits)
    (hk : c.wkind = if b.neededDigits < inlineThreshold then .inline else .heap) :
    t.EditDone b.neededDigits (b.editedDigit f) := by
  obtain ⟨hphase, herr, hkind, -, hwn, -⟩ := h.fin.eqs
  exact ⟨hphase, herr, hkind.trans hk, hwn.trans hn, h.digits hs, h.result⟩

/-- With a buffer granted the edit is done, on the heap at the base the allocator has answered (R143, R144). -/
theorem EditOutcome.editDone (ht : EditOutcome b f t) (h : b.Inv) (hx : b.HasNumber) (hs : b.Settled)
    (hg : b.BufferGranted b.neededDigits) :
    t.EditDone b.neededDigits (b.editedDigit f) ∧
      (t.wkind = .heap → b.allocAnswer b.operandRegion b.neededDigits = .ok t.hbase) := by
  obtain ⟨hle, hgrant⟩ := hg
  have hfrom {c : Block W} (hc : BufferFor b c) := editedFrom hx (legal_lt h.legal hle) hc f
  cases ht with
  | tooLarge hlt => omega
  | refused _ hge ha => exact absurd ha (hgrant.resolve_left (Nat.not_lt.mpr hge))
  | inline _ hlt =>
    have hed := hfrom (bufferFor_inline h.mem hlt)
    obtain ⟨-, -, hkind, -, -, -⟩ := hed.fin.eqs
    exact ⟨hed.editDone hs rfl (if_pos hlt).symm, fun hk => by rw [hkind] at hk; cases hk⟩
  | heap base _ hge ha =>
    have hed := hfrom (bufferFor_heap h.mem ha)
    obtain ⟨-, -, -, hbase, -, -⟩ := hed.fin.eqs
    exact ⟨hed.editDone hs rfl (if_neg (Nat.not_lt.mpr hge)).symm, fun _ => ha.trans (congrArg _ hbase.symm)⟩

/-! ### The result held with a buffer -/

/-- The result registers say what normalisation makes of the buffer's digits (R210 to R212). -/
structure Normalised (t : Block W) : Prop where
  rsign : t.rsign = false
  pos : 1 ≤ t.rsize.toNat
  le : t.rsize.toNat ≤ t.wn
  zeros : ∀ i, t.rsize.toNat ≤ i → i < t.wn → t.wbufDigit i = 0
  top : t.rsize.toNat = 1 ∨ t.wbufDigit (t.rsize.toNat - 1) ≠ 0
  rform : t.rform = if t.rsize.toNat = 1 then .compact else .digits
  rval : t.rval = if t.rsize.toNat = 1 then t.wbufDigit 0 else 0

theorem ResultOk.normalised (h : t.ResultOk) (hk : t.wkind ≠ .none) (hn : 1 ≤ t.wn) : t.Normalised := by
  cases hf : t.rform <;> simp only [ResultOk, hf] at h
  case scalar =>
    obtain ⟨-, -, hnone⟩ := h
    exact absurd hnone hk
  case original =>
    obtain ⟨-, -, -, hnone⟩ := h
    exact absurd hnone hk
  case compact =>
    obtain ⟨hsign, hsize, -, hval, hzero⟩ := h
    have hone : t.rsize.toNat = 1 := by rw [hsize]; cases W <;> rfl
    exact ⟨hsign, hone.ge, hone ▸ hn, hone ▸ hzero, .inl hone, by rw [hf, if_pos hone], by rw [hval, if_pos hone]⟩
  case digits =>
    obtain ⟨hsign, hval, -, htwo, hle, htop, hzero⟩ := h
    have hne : t.rsize.toNat ≠ 1 := by omega
    exact ⟨hsign, by omega, hle, hzero, .inr htop, by rw [hf, if_neg hne], by rw [hval, if_neg hne]⟩

/-- Of two normalised buffers with the same digits neither is longer. -/
theorem Normalised.rsize_le (ht : t.Normalised) (hu : u.Normalised) (hn : t.wn = u.wn)
    (hd : ∀ i, i < t.wn → t.wbufDigit i = u.wbufDigit i) : t.rsize.toNat ≤ u.rsize.toNat := by
  have hle := ht.le
  have hpos := hu.pos
  by_contra hlt
  have htop := ht.top.resolve_left (by omega)
  rw [hd _ (by omega)] at htop
  exact htop (hu.zeros _ (by omega) (by omega))

/-! ### The same result -/

/-- The host reads the same result from both blocks (R24, R34, R35, R51, R66). -/
structure SameResult (t u : Block W) : Prop where
  status : t.readReg .status = u.readReg .status
  rval : t.rval = u.rval
  rsize : t.rsize = u.rsize
  rbase : t.readReg .rbase = u.readReg .rbase
  digits : ∀ i, i < t.rsize.toNat → t.wbufDigit i = u.wbufDigit i

theorem statusWord_congr (hp : t.phase = u.phase) (he : t.err = u.err) (hf : t.rform = u.rform)
    (hs : t.rsign = u.rsign) (hk : t.wkind = u.wkind) : t.readReg .status = u.readReg .status := by
  simp only [readReg, statusWord, hp, he, hf, hs, hk]

/-- Two results that hold no buffer and have no digits. -/
theorem sameResult_of_noBuffer (hp : t.phase = u.phase) (he : t.err = u.err) (hf : t.rform = u.rform)
    (hs : t.rsign = u.rsign) (hv : t.rval = u.rval) (ht : t.rsize = 0 ∧ t.wkind = .none)
    (hu : u.rsize = 0 ∧ u.wkind = .none) : SameResult t u where
  status := statusWord_congr hp he hf hs (ht.2.trans hu.2.symm)
  rval := hv
  rsize := ht.1.trans hu.1.symm
  rbase := (t.rbaseWord_of_not_heap (by simp [ht.2])).trans (u.rbaseWord_of_not_heap (by simp [hu.2])).symm
  digits i hi := by simp [ht.1] at hi

theorem FailedWith.sameResult {e : ErrCode} (ht : t.FailedWith e) (hu : u.FailedWith e) : SameResult t u :=
  sameResult_of_noBuffer (ht.phase.trans hu.phase.symm) (ht.err.trans hu.err.symm)
    (ht.cleared.rform.trans hu.cleared.rform.symm) (ht.cleared.rsign.trans hu.cleared.rsign.symm)
    (ht.cleared.rval.trans hu.cleared.rval.symm) ⟨ht.cleared.rsize, ht.wkind⟩ ⟨hu.cleared.rsize, hu.wkind⟩

theorem ScalarDone.sameResult {n : Nat} (ht : t.ScalarDone n) (hu : u.ScalarDone n) : SameResult t u :=
  sameResult_of_noBuffer (ht.phase.trans hu.phase.symm) (ht.err.trans hu.err.symm)
    (ht.rform.trans hu.rform.symm) (ht.rsign.trans hu.rsign.symm)
    (BitVec.eq_of_toNat_eq (ht.rval.trans hu.rval.symm)) ⟨ht.rsize, ht.wkind⟩ ⟨hu.rsize, hu.wkind⟩

theorem sameResult_original (hb : b.wkind = .none) (hc : c.wkind = .none) :
    SameResult b.acquired.originalResult.finish c.acquired.originalResult.finish := by
  obtain ⟨v, hv⟩ := acquired_eq b
  obtain ⟨w, hw⟩ := acquired_eq c
  rw [hv, hw]
  exact sameResult_of_noBuffer rfl rfl rfl rfl rfl ⟨rfl, hb⟩ ⟨rfl, hc⟩

/-- Two edits that end with the same digits in buffers at the same base. -/
theorem EditDone.sameResult {n : Nat} {d : Nat → Word W} (ht : t.EditDone n d) (hu : u.EditDone n d) (hn : 1 ≤ n)
    (hbase : t.wkind = .heap → t.hbase = u.hbase) : SameResult t u := by
  have hkind : t.wkind = u.wkind := ht.wkind.trans hu.wkind.symm
  have hne : t.wkind ≠ .none := by rw [ht.wkind]; split <;> exact nofun
  have hwn : t.wn = u.wn := ht.wn.trans hu.wn.symm
  have hdig : ∀ i, i < t.wn → t.wbufDigit i = u.wbufDigit i := fun i hi =>
    (ht.digits i (ht.wn ▸ hi)).trans (hu.digits i (ht.wn ▸ hi)).symm
  have hnt := ht.result.normalised hne (ht.wn ▸ hn)
  have hnu := hu.result.normalised (hkind ▸ hne) (hu.wn ▸ hn)
  have hsize : t.rsize.toNat = u.rsize.toNat :=
    Nat.le_antisymm (hnt.rsize_le hnu hwn hdig) (hnu.rsize_le hnt hwn.symm fun i hi => (hdig i (hwn ▸ hi)).symm)
  refine ⟨statusWord_congr (ht.phase.trans hu.phase.symm) (ht.err.trans hu.err.symm) ?_
    (hnt.rsign.trans hnu.rsign.symm) hkind, ?_, BitVec.eq_of_toNat_eq hsize, ?_, ?_⟩
  · rw [hnt.rform, hnu.rform, hsize]
  · rw [hnt.rval, hnu.rval, hsize, hdig 0 (ht.wn ▸ hn)]
  · simp only [readReg, rbaseWord, ← hkind]
    exact ite_congr rfl hbase fun _ => rfl
  · exact fun i hi => hdig i (Nat.lt_of_lt_of_le hi hnt.le)

/-! ### Two blocks with the same command -/

/-- The same operands, digit by digit, the same limit and the same answers of the allocator (R62, R77). -/
structure SameCommand (b c : Block W) : Prop where
  maxDigits : b.params.maxDigits = c.params.maxDigits
  xdesc : b.xdesc = c.xdesc
  xsize : b.xsize = c.xsize
  xbase : b.xbase = c.xbase
  ximm : b.ximm = c.ximm
  ndesc : b.ndesc = c.ndesc
  nval : b.nval = c.nval
  digits : ∀ i, i < b.operandSize → b.operandDigit i = c.operandDigit i
  answers : ∀ n, b.allocAnswer b.operandRegion n = c.allocAnswer c.operandRegion n

namespace SameCommand
variable (hq : SameCommand b c)
include hq

theorem xform : b.xform = c.xform := by simp only [Block.xform, hq.xdesc]

theorem operandSize : b.operandSize = c.operandSize := by
  rw [Block.operandSize, Block.operandSize, hq.xform, hq.xsize]

theorem nkind : b.nkind = c.nkind := by simp only [Block.nkind, hq.ndesc]

theorem hasNumber : b.HasNumber ↔ c.HasNumber := by
  simp only [HasNumber, hq.xform, hq.xsize, hq.xbase, hq.maxDigits]

theorem negative : b.Negative ↔ c.Negative := by
  simp only [Negative, hq.xform, xsign, hq.xdesc, hq.ximm]

theorem hasIndex : b.HasIndex ↔ c.HasIndex := by simp only [HasIndex, hq.nkind]

theorem bitOpReady : b.BitOpReady ↔ c.BitOpReady := by
  simp only [BitOpReady, hq.hasNumber, hq.negative, hq.nkind]

theorem accepted : b.Accepted op ↔ c.Accepted op := by
  simp only [Accepted, hq.hasNumber, hq.hasIndex, hq.negative]

theorem neededDigits : b.neededDigits = c.neededDigits := by
  simp only [Block.neededDigits, hq.nval, hq.operandSize]

theorem bufferGranted (n : Nat) : b.BufferGranted n ↔ c.BufferGranted n := by
  simp only [BufferGranted, hq.maxDigits, hq.answers]

theorem editedDigit : b.editedDigit f = c.editedDigit f := by
  have hgrown : b.grownDigit = c.grownDigit := by
    funext i
    simp only [grownDigit, ← hq.operandSize]
    exact ite_congr rfl (hq.digits i) fun _ => rfl
  funext i
  simp only [Block.editedDigit, hgrown, hq.nval]

end SameCommand

section
variable (hq : SameCommand b c) (h : b.Inv) (h' : c.Inv) (hp : b.phase = .busy) (hp' : c.phase = .busy)
  (hs : b.Settled) (hs' : c.Settled)
include hq h h' hp hp' hs hs'

theorem sameResult_size (hx : b.HasNumber) : SameResult (b.runCommand sizeBody) (c.runCommand sizeBody) := by
  have hb := size_scalarDone h hp hx hs
  have hc := size_scalarDone h' hp' (hq.hasNumber.mp hx) hs'
  rw [← hq.operandSize, ← hq.digits _ (Nat.sub_one_lt_of_lt (operandSize_pos hx))] at hc
  exact hb.sameResult hc

theorem sameResult_count (hx : b.HasNumber) : SameResult (b.runCommand countBody) (c.runCommand countBody) := by
  have hb := count_scalarDone h hp hx hs
  have hc := count_scalarDone h' hp' (hq.hasNumber.mp hx) hs'
  rw [← hq.operandSize, ← List.map_congr_left fun i hi => congrArg popcount (hq.digits i (List.mem_range.mp hi))] at hc
  exact hb.sameResult hc

theorem sameResult_test (hx : b.HasNumber) (hn : b.HasIndex) (hneg : ¬ b.Negative) :
    SameResult (b.runCommand testBody) (c.runCommand testBody) := by
  have hx' := hq.hasNumber.mp hx
  have hneg' := mt hq.negative.mpr hneg
  by_cases hr : b.nkind = 2 ∨ b.operandSize ≤ b.nval.toNat / W.bits
  · refine (test_scalarDone_of_outOfRange h hp hx hn hneg hr).sameResult
      (test_scalarDone_of_outOfRange h' hp' hx' (hq.hasIndex.mp hn) hneg' ?_)
    rwa [← hq.nkind, ← hq.operandSize, ← hq.nval]
  · rw [not_or, Nat.not_le] at hr
    obtain ⟨h2, hlt⟩ := hr
    have hone := hn.resolve_right h2
    have hb := test_scalarDone_of_inRange h hp ⟨hx, hneg, hone⟩ hs hlt
    have hc := test_scalarDone_of_inRange h' hp' ⟨hx', hneg', hq.nkind ▸ hone⟩ hs'
      (by rwa [← hq.operandSize, ← hq.nval])
    rw [← hq.nval, ← hq.digits _ hlt] at hc
    exact hb.sameResult hc

theorem sameResult_edit (hx : b.HasNumber) : SameResult (b.editRun f) (c.editRun f) := by
  have hx' := hq.hasNumber.mp hx
  by_cases hg : b.BufferGranted b.neededDigits
  · have hg' := (hq.bufferGranted _).mp hg
    rw [hq.neededDigits] at hg'
    obtain ⟨hb, hbase⟩ := (editRun_outcome b f).editDone h hx hs hg
    obtain ⟨hc, hbase'⟩ := (editRun_outcome c f).editDone h' hx' hs' hg'
    rw [← hq.neededDigits, ← hq.editedDigit] at hc
    refine hb.sameResult hc (neededDigits_pos b) fun hk => ?_
    have hk' := hc.wkind.trans (hb.wkind.symm.trans hk)
    have heq := (hbase hk).symm.trans ((hq.answers _).trans (hq.neededDigits ▸ hbase' hk'))
    exact AllocAnswer.ok.inj heq
  · have hg' : ¬ c.BufferGranted c.neededDigits := by rwa [← hq.neededDigits, ← hq.bufferGranted]
    exact ((editRun_outcome b f).failedWith (h.noBuffer (by simp [hp])).wkind hg).sameResult
      ((editRun_outcome c f).failedWith (h'.noBuffer (by simp [hp'])).wkind hg')

/-- The edit of the two blocks, at the end of the core steps that come to it. -/
theorem sameResult_edits (he : b.Edits op f) : SameResult (b.runCommand op.body) (c.runCommand op.body) := by
  have he' : c.Edits op f :=
    ⟨hq.bitOpReady.mp he.ready, he.edit, fun ho => by rw [← hq.nval, ← hq.operandSize]; exact he.inRange ho⟩
  rw [he.runCommand, he'.runCommand]
  exact sameResult_edit hq h h' hp hp' hs hs' he.ready.1

/-- SET and TOGGLE fail on a HUGE index and edit on any other (R162, R173, R179). -/
theorem sameResult_setOrToggle (ho : op = .set ∨ op = .toggle) (ha : b.Accepted op) :
    SameResult (b.runCommand op.body) (c.runCommand op.body) := by
  have hx := ha.1
  obtain ⟨hn, hneg⟩ := ha.2 (by obtain rfl | rfl := ho <;> rfl)
  obtain hone | hhuge := hn
  · obtain ⟨f, hf⟩ : ∃ f, editOf (W := W) op = some f := by obtain rfl | rfl := ho <;> exact ⟨_, rfl⟩
    exact sameResult_edits hq h h' hp hp' hs hs' ⟨⟨hx, hneg, hone⟩, hf, by rintro rfl; simp at ho⟩
  · exact (failedWith_of_huge (h.noBuffer (by simp [hp])).wkind ho hx hhuge hneg).sameResult
      (failedWith_of_huge (h'.noBuffer (by simp [hp'])).wkind ho (hq.hasNumber.mp hx) (hq.nkind ▸ hhuge)
        (mt hq.negative.mpr hneg))

/-- A command whose operands are accepted ends the same way in both blocks. -/
theorem sameResult_accepted (ha : b.Accepted op) : SameResult (b.runCommand op.body) (c.runCommand op.body) := by
  have hx := ha.1
  cases op with
  | size => exact sameResult_size hq h h' hp hp' hs hs' hx
  | count => exact sameResult_count hq h h' hp hp' hs hs' hx
  | test =>
    obtain ⟨hn, hneg⟩ := ha.2 rfl
    exact sameResult_test hq h h' hp hp' hs hs' hx hn hneg
  | set => exact sameResult_setOrToggle hq h h' hp hp' hs hs' (.inl rfl) ha
  | toggle => exact sameResult_setOrToggle hq h h' hp hp' hs hs' (.inr rfl) ha
  | clear =>
    obtain ⟨hn, hneg⟩ := ha.2 rfl
    by_cases hr : b.nkind = 2 ∨ b.operandSize < b.nval.toNat / W.bits + 1
    · have hc := run_clear_original (hq.hasNumber.mp hx) (hq.hasIndex.mp hn) (mt hq.negative.mpr hneg)
        (by rwa [← hq.nkind, ← hq.operandSize, ← hq.nval])
      rw [PendingOp.body, run_clear_original hx hn hneg hr, hc]
      exact sameResult_original (h.noBuffer (by simp [hp])).wkind (h'.noBuffer (by simp [hp'])).wkind
    · rw [not_or, Nat.not_lt] at hr
      obtain ⟨h2, hlt⟩ := hr
      exact sameResult_edits hq h h' hp hp' hs hs' ⟨⟨hx, hneg, hn.resolve_right h2⟩, rfl, fun _ => hlt⟩

/-- However the command ends in one block, it ends so in the other. -/
theorem sameResult_runCommand (op : PendingOp) : SameResult (b.runCommand op.body) (c.runCommand op.body) := by
  by_cases ha : b.Accepted op
  · exact sameResult_accepted hq h h' hp hp' hs hs' ha
  · have hb := (ended_runCommand h.legal op).failedWith_of_rejected (h.noBuffer (by simp [hp])).wkind ha
    exact hb.sameResult ((ended_runCommand h'.legal op).failedWith_of_rejected (h'.noBuffer (by simp [hp'])).wkind
      (mt hq.accepted.mpr ha))

end

end Sys2Proof.Machine.Block
end

section
/-!
The obligations about host memory: what commands write to it and read from it, and in which order.
-/
namespace Sys2Proof.Machine
open Block

/-- Settles O24: the frame of the command, however it ends. -/
theorem editCommandsFrame : Obligations.EditCommandsFrame := by
  intro W b i hi h hp
  obtain ⟨op, rfl⟩ : ∃ op : PendingOp, i = op.instr := (instr_cases i).resolve_left (by rintro rfl; simp at hi)
  have hf := (ended_runCommand h.legal op).commandFrame h hp
  refine ⟨_, exec_pending op b, inputsKept_runCommand b op, hf.stored, fun hs => ?_, hf.inl⟩
  obtain ⟨hmem, hlive, hrel⟩ := hf.unstored hs
  exact ⟨fun k => by rw [hmem], hlive, hrel⟩

/-- Settles O26: a command stores at most to a region apart from the operand's; RELEASE stores nothing. -/
theorem operandRegionIsNeverWritten : Obligations.OperandRegionIsNeverWritten := by
  intro W b i q h hp _ hq
  obtain rfl | ⟨op, rfl⟩ := instr_cases i
  · obtain ⟨_, _, _, -, he⟩ := releaseResult_eq b
    refine ⟨b.releaseResult.setPhase .idle, rfl, fun a _ => ?_⟩
    rw [he]
    rfl
  · have hbusy : b.phase = .busy := hp.resolve_right (by cases op <;> exact nofun)
    have hf := (ended_runCommand h.legal op).commandFrame h hbusy
    exact ⟨_, exec_pending op b, fun a ha => hf.digitAt (inputsKept_runCommand b op).params fun r hr =>
      Region.has_eq_false_of_disjoint (storedRegion_disjoint hr hq) ha⟩

/-- Settles O28: two blocks with the same command end it the same way, with the same result. -/
theorem resultDependsOnlyOnOperandsAndAnswers : Obligations.ResultDependsOnlyOnOperandsAndAnswers := by
  intro W b c op h h' hp hp' hmax hxd hxs hxb hxi hnd hnv hs hs' hdig hans
  have hq : SameCommand b c := ⟨hmax, hxd, hxs, hxb, hxi, hnd, hnv, hdig, hans⟩
  obtain ⟨hst, hval, hsize, hbase, hdigits⟩ := sameResult_runCommand hq h h' hp hp' hs hs' op
  exact ⟨_, _, exec_pending op b, exec_pending op c, hst, hval, hsize, hbase, hdigits⟩

/-- Settles O29: each command's accesses are those of the digits it reads; a rejected operand is not read. -/
theorem readingCommandsAccessOrder : Obligations.ReadingCommandsAccessOrder := by
  intro W b h _
  refine ⟨fun hx => ⟨⟨_, exec_pending .size b, ?_⟩, ⟨_, exec_pending .count b, ?_⟩, ⟨_, exec_pending .test b, ?_⟩,
    _, exec_pending .clear b, (ended_runCommand h.legal .clear).portLog_of_clear⟩,
    fun op => ⟨_, exec_pending op b, (ended_runCommand h.legal op).portLog_of_badArgument⟩⟩
  · exact (size_portLog hx).trans (flatMap_operandView_reads b _)
  · exact (count_portLog hx).trans (flatMap_operandView_reads b _)
  · by_cases hr : ¬ b.Negative ∧ b.nkind = 1 ∧ b.nval.toNat / W.bits < b.operandSize
    · obtain ⟨hs, hn, hlt⟩ := hr
      rw [if_pos ⟨hs, hn, hlt⟩]
      exact (test_portLog_of_inRange ⟨hx, hs, hn⟩ hlt).trans (flatMap_operandView_reads b _)
    · rw [if_neg hr]
      exact test_portLog_eq_nil fun ⟨⟨_, hs, hn⟩, hlt⟩ => hr ⟨hs, hn, hlt⟩

/-- Settles O30: the copy is an edit on the heap path. -/
theorem copyingCommandsAccessOrder : Obligations.CopyingCommandsAccessOrder := by
  intro W b i r h _ hs
  obtain ⟨op, f, base, rfl, hed, hle, hn, ha, rfl⟩ := edits_of_storedRegion hs
  have ht := (editRun_outcome b f).of_heap hle hn ha
  refine ⟨_, exec_pending op b, ?_⟩
  rw [hed.runCommand, ht,
    editedIn_portLog (c := b.heapBuffer base) rfl (heapBuffer_portLog b base) rfl (legal_lt h.legal hle)]
  simp only [operandView_reads, ← List.range_eq_range']
  rfl

/-- Settles O47: the digit is the working buffer's, and the allocator's no longer. -/
theorem windowAndMemoryAgree : Obligations.WindowAndMemoryAgree := by
  intro W b i rest h hk hf hi ha
  obtain ⟨hdone, hsize⟩ := h.of_heldDigits hf
  obtain ⟨hwrap, hrel⟩ := h.work.heap hk
  have hbase : (b.readReg .rbase).toNat = b.hbase.toNat := congrArg BitVec.toNat (if_pos hk)
  rw [hbase] at ha
  refine ⟨_, step_memRead ha (by omega) (by simp [hostMayNotRead, hdone]), ?_⟩
  have hsel : (BitVec.ofNat W.bits i).toNat = i := Nat.mod_eq_of_lt (Nat.lt_trans hi b.rsize.isLt)
  have hread : b.digitAt (b.hbase.toNat + i) = b.wbufDigit i := by simp only [wbufDigit, hk]
  have hrdig : ({ b with rsel := BitVec.ofNat W.bits i } : Block W).rdigWord = b.wbufDigit i := by
    rw [rdigWord, if_pos ⟨hf, hsel.symm ▸ hi⟩, hsel]
    rfl
  exact (fetchDigit_fst (b := b.setAgenda rest) (hrel i (Nat.lt_of_lt_of_le hi hsize))).trans (hread.trans hrdig.symm)

end Sys2Proof.Machine
end

section
/-!
SUPPORT. Command words as numbers: decoding and the opcode table are inverse to each other (R92, R93).
-/
namespace Sys2Proof

/-- Every command's word holds its OP, whatever the command. -/
theorem encodingStatement (i : Instr) : Laws.Encoding.Statement i := by
  cases i with
  | size => exact Laws.Encoding.size
  | test => exact Laws.Encoding.test
  | set => exact Laws.Encoding.set
  | clear => exact Laws.Encoding.clear
  | toggle => exact Laws.Encoding.toggle
  | count => exact Laws.Encoding.count
  | release => exact Laws.Encoding.release

theorem opcode_lt (i : Instr) : opcode i < 16 :=
  have ⟨_, hlt, _⟩ := encodingStatement i
  hlt

theorem encode_toNat (W : Width) (i : Instr) : (encode W i).toNat = opcode i :=
  have ⟨_, _, hword⟩ := encodingStatement i
  (hword W).1

/-- The OP field selects a command exactly by its row of the table. -/
theorem decodeOp_eq_command_iff {op : Nat} {i : Instr} : decodeOp op = .command i ↔ op = opcode i := by
  constructor
  · intro h
    unfold decodeOp at h
    split at h <;> cases h <;> rfl
  · rintro rfl
    cases i <;> rfl

theorem decodeBits_eq_command_iff {v : Nat} {i : Instr} : decodeBits v = .command i ↔ v = opcode i := by
  have hi := opcode_lt i
  by_cases hv : v / 16 = 0
  · rw [decodeBits, if_pos hv, decodeOp_eq_command_iff, Nat.mod_eq_of_lt (by omega)]
  · rw [decodeBits, if_neg hv]
    exact iff_of_false nofun (by omega)

/-- Each command has one word (R92, R93). -/
theorem decode_eq_command_iff {W : Width} {v : Word W} {i : Instr} : decode v = .command i ↔ v = encode W i := by
  rw [decode, decodeBits_eq_command_iff, ← encode_toNat W i, BitVec.toNat_inj]

/-- The OPs of the table are the seven codes of R93. -/
theorem mem_codes_iff {n : Nat} : n ∈ [0x1, 0x2, 0x3, 0x4, 0x5, 0x6, 0xF] ↔ ∃ i, n = opcode i := by
  constructor
  · intro h
    simp only [List.mem_cons, List.not_mem_nil, or_false] at h
    obtain rfl | rfl | rfl | rfl | rfl | rfl | rfl := h
    exacts [⟨.size, rfl⟩, ⟨.test, rfl⟩, ⟨.set, rfl⟩, ⟨.clear, rfl⟩, ⟨.toggle, rfl⟩, ⟨.count, rfl⟩, ⟨.release, rfl⟩]
  · rintro ⟨i, rfl⟩
    cases i <;> decide

/-- The bits from 4 up are 0 exactly when the word is below 16. -/
theorem ushiftRight_four_eq_zero_iff {W : Width} {v : Word W} : v >>> 4 = 0 ↔ v.toNat < 16 := by
  rw [← BitVec.toNat_inj, BitVec.toNat_ushiftRight, Nat.shiftRight_eq_div_pow]
  exact Nat.div_eq_zero_iff_lt (by decide)

end Sys2Proof
end

section
/-!
The obligations about the command words.
-/
namespace Sys2Proof

/-- Settles O2: a word decodes to a command exactly when it is the command's word, and the command words are those
below 16 whose OP is one of the seven codes. -/
theorem legalWordsAreTheSevenCodes : Obligations.LegalWordsAreTheSevenCodes := by
  intro W v
  refine ⟨?_, fun i => decode_eq_command_iff⟩
  rw [ushiftRight_four_eq_zero_iff, mem_codes_iff]
  constructor
  · rintro ⟨i, hi⟩
    have hv : v.toNat = opcode i := decodeBits_eq_command_iff.mp hi
    have hlt : v.toNat < 16 := hv ▸ opcode_lt i
    exact ⟨hlt, i, (Nat.mod_eq_of_lt hlt).trans hv⟩
  · rintro ⟨hlt, i, hi⟩
    exact ⟨i, decodeBits_eq_command_iff.mpr ((Nat.mod_eq_of_lt hlt).symm.trans hi)⟩

/-- Settles O1: the word of a command is the one that decodes to it. -/
theorem decodeOfEncodeIsTheCommand : Obligations.DecodeOfEncodeIsTheCommand :=
  fun _ _ => decode_eq_command_iff.mpr rfl

/-- Settles O3: the legal words are the commands' words; the illegal ones are evaluated. -/
theorem wordsOfTheTableDecode : Obligations.WordsOfTheTableDecode :=
  ⟨decode_eq_command_iff.mpr rfl, decode_eq_command_iff.mpr rfl, decode_eq_command_iff.mpr rfl,
    decode_eq_command_iff.mpr rfl, decode_eq_command_iff.mpr rfl, decode_eq_command_iff.mpr rfl,
    decode_eq_command_iff.mpr rfl, by decide, by decide, by decide, by decide⟩

end Sys2Proof
end

section
/-!
SUPPORT. A run of the host's register writes, and the operand registers after the writes an assembler operand
expands to (R96 to R98).
-/
namespace Sys2Proof.Machine

namespace Block
variable {W : Width} {b : Block W}

@[simp] theorem writeReg_params (r : Reg) (v : Word W) : (b.writeReg r v).params = b.params := by cases r <;> rfl

@[simp] theorem writeReg_phase (r : Reg) (v : Word W) : (b.writeReg r v).phase = b.phase := by cases r <;> rfl

@[simp] theorem writeReg_agenda (r : Reg) (v : Word W) : (b.writeReg r v).agenda = b.agenda := by cases r <;> rfl

theorem setAgenda_writeReg (r : Reg) (v : Word W) (l l' : List (Move W)) :
    ((b.setAgenda l).writeReg r v).setAgenda l' = (b.setAgenda l').writeReg r v := by cases r <;> rfl

/-- The block after register writes, the first of the list first. -/
def writeRegs (b : Block W) : List (Reg × Word W) → Block W
  | [] => b
  | w :: ws => (b.writeReg w.1 w.2).writeRegs ws

theorem writeRegs_append (ws ws' : List (Reg × Word W)) :
    b.writeRegs (ws ++ ws') = (b.writeRegs ws).writeRegs ws' := by
  induction ws generalizing b with
  | nil => rfl
  | cons w ws ih => exact ih

theorem writeRegs_phase (ws : List (Reg × Word W)) : (b.writeRegs ws).phase = b.phase := by
  induction ws generalizing b with
  | nil => rfl
  | cons w ws ih => exact ih.trans (writeReg_phase w.1 w.2)

theorem writeRegs_agenda (ws : List (Reg × Word W)) : (b.writeRegs ws).agenda = b.agenda := by
  induction ws generalizing b with
  | nil => rfl
  | cons w ws ih => exact ih.trans (writeReg_agenda w.1 w.2)

end Block

/-- The host moves of a list of register writes (R97). -/
def wrMoves {W : Width} (p : Params) (ws : List (Reg × Word W)) : List (HostMove W) := ws.map fun w => .wr p w.1 w.2

/-- Outside BUSY a step on `WR` of a register other than CMD stores to the block (R22). -/
theorem step_wr_notBusy {W : Width} {b : Block W} {r : Reg} {v : Word W} {rest : List (Move W)} (hp : b.phase ≠ .busy)
    (hr : r ≠ .cmd) (ha : b.agenda = .host (.wr b.params r v) :: rest) :
    step ⟨W, b⟩ = .next ⟨W, (b.setAgenda rest).writeReg r v⟩ :=
  (step_wr ha).trans (hostWriteReg_notBusy (b := b.setAgenda rest) hp hr v)

/-- A run whose first step answers goes on from there. -/
theorem run_succ {M : Host.Core} {s s' : M.State} (h : M.step s = .next s') (k : Nat) :
    M.run (k + 1) s = M.run k s' := by
  rw [Host.Core.run, h]

/-- Outside BUSY a run over register writes other than CMD makes each of them (R22, R251). -/
theorem run_wrMoves {W : Width} {b : Block W} {ws : List (Reg × Word W)} {rest : List (Move W)}
    (hp : b.phase ≠ .busy) (hw : ∀ w ∈ ws, w.1 ≠ .cmd) (ha : b.agenda = (wrMoves b.params ws).map .host ++ rest) :
    Host.Core.run Sys2Proof.core (wrMoves b.params ws).length ⟨W, b⟩ =
      .next (⟨W, (b.setAgenda rest).writeRegs ws⟩ : State) := by
  induction ws generalizing b with
  | nil =>
    obtain rfl : b.agenda = rest := ha
    rfl
  | cons w ws ih =>
    have hstep := step_wr_notBusy hp (hw w List.mem_cons_self) ha
    have hrest := ih (b := (b.setAgenda ((wrMoves b.params ws).map .host ++ rest)).writeReg w.1 w.2)
      (by simpa using hp) (fun w' hw' => hw w' (List.mem_cons_of_mem w hw')) (by simp)
    rw [Block.setAgenda_writeReg, Block.writeReg_params] at hrest
    exact (run_succ hstep _).trans hrest

end Sys2Proof.Machine

namespace Sys2Proof.Asm
open Sys2Proof.Machine

/-- The registers an `<x>` operand writes, with their values (R98). -/
def XOperand.writes (W : Width) : XOperand → List (Reg × Word W)
  | .imm v => [(.xdesc, 1), (.ximm, BitVec.ofInt W.bits v)]
  | .digits neg base size =>
    [(.xdesc, if neg then 6 else 2), (.xsize, BitVec.ofNat W.bits size), (.xbase, BitVec.ofNat W.bits base)]
  | .nan => [(.xdesc, 0)]

/-- The registers an `<n>` operand writes, with their values (R98). -/
def NOperand.writes (W : Width) : NOperand → List (Reg × Word W)
  | .val k => [(.ndesc, 1), (.nval, BitVec.ofNat W.bits k)]
  | .huge => [(.ndesc, 2)]
  | .invalid => [(.ndesc, 0)]

theorem XOperand.expand_eq (W : Width) (p : Params) (x : XOperand) : x.expand W p = wrMoves p (x.writes W) := by
  cases x <;> rfl

theorem NOperand.expand_eq (W : Width) (p : Params) (n : NOperand) : n.expand W p = wrMoves p (n.writes W) := by
  cases n <;> rfl

theorem expand_append_eq (W : Width) (p : Params) (x : XOperand) (n : NOperand) :
    x.expand W p ++ n.expand W p = wrMoves p (x.writes W ++ n.writes W) := by
  rw [x.expand_eq, n.expand_eq]
  exact List.map_append.symm

theorem XOperand.writes_ne_cmd (W : Width) (x : XOperand) : ∀ w ∈ x.writes W, w.1 ≠ .cmd := by
  cases x <;> simp [writes]

theorem NOperand.writes_ne_cmd (W : Width) (n : NOperand) : ∀ w ∈ n.writes W, w.1 ≠ .cmd := by
  cases n <;> simp [writes]

/-- The operand registers denote operand X (R27 to R30). -/
def XOperand.HeldBy {W : Width} (b : Block W) : XOperand → Prop
  | .imm v => b.xform = 1 ∧ b.ximm.toInt = v
  | .digits neg base size => b.xform = 2 ∧ b.xsign = neg ∧ b.xbase.toNat = base ∧ b.xsize.toNat = size
  | .nan => b.xform = 0

/-- The operand registers denote operand N (R31, R32). -/
def NOperand.HeldBy {W : Width} (b : Block W) : NOperand → Prop
  | .val k => b.nkind = 1 ∧ b.nval.toNat = k
  | .huge => b.nkind = 2
  | .invalid => b.nkind = 0

/-- The XDESC value of a DIGITS operand: XFORM is 2 and XSIGN the sign (R27). -/
theorem xdescWord_fields (W : Width) (neg : Bool) :
    (((if neg then 6 else 2 : Word W).setWidth 3).extractLsb' 0 2).toNat = 2 ∧
      ((if neg then 6 else 2 : Word W).setWidth 3).getLsbD 2 = neg := by
  cases W <;> cases neg <;> decide

theorem XOperand.heldBy_writes {W : Width} (b : Block W) {x : XOperand} (hx : x.wf W = true) :
    x.HeldBy (b.writeRegs (x.writes W)) := by
  cases x with
  | imm v =>
    obtain ⟨hle, hlt⟩ : -(2 : Int) ^ (W.bits - 1) ≤ v ∧ v < (2 : Int) ^ (W.bits - 1) := by simpa [wf] using hx
    exact ⟨by cases W <;> rfl, BitVec.toInt_ofInt_eq_self W.bits_pos hle hlt⟩
  | digits neg base size =>
    obtain ⟨hbase, hsize⟩ : base < 2 ^ W.bits ∧ size < 2 ^ W.bits := by simpa [wf] using hx
    obtain ⟨hform, hsign⟩ := xdescWord_fields W neg
    exact ⟨hform, hsign, Nat.mod_eq_of_lt hbase, Nat.mod_eq_of_lt hsize⟩
  | nan => cases W <;> rfl

theorem NOperand.heldBy_writes {W : Width} (b : Block W) {n : NOperand} (hn : n.wf W = true) :
    n.HeldBy (b.writeRegs (n.writes W)) := by
  cases n with
  | val k => exact ⟨by cases W <;> rfl, Nat.mod_eq_of_lt (by simpa [wf] using hn)⟩
  | huge => cases W <;> rfl
  | invalid => cases W <;> rfl

/-- The writes of operand N leave operand X as it is. -/
theorem XOperand.HeldBy.writes_index {W : Width} {b : Block W} {x : XOperand} (h : x.HeldBy b) (n : NOperand) :
    x.HeldBy (b.writeRegs (n.writes W)) := by
  cases x <;> cases n <;> exact h

end Sys2Proof.Asm
end

section
/-!
The obligation about the assembler's operands.
-/
namespace Sys2Proof.Asm
open Sys2Proof.Machine Block

/-- Settles O49: the expansions are register writes, X's first, and N's leave X's registers alone. -/
theorem expansionsWriteTheOperands : Obligations.ExpansionsWriteTheOperands := by
  intro W b x n hx hn hp ha
  rw [expand_append_eq] at ha ⊢
  have hcmd : ∀ w ∈ x.writes W ++ n.writes W, w.1 ≠ .cmd := fun w hw =>
    (List.mem_append.mp hw).elim (x.writes_ne_cmd W w) (n.writes_ne_cmd W w)
  have hrun := run_wrMoves (rest := []) hp hcmd (ha.trans (List.append_nil _).symm)
  refine ⟨_, hrun, writeRegs_agenda _, writeRegs_phase _, ?_, ?_⟩
  · rw [writeRegs_append]
    exact (XOperand.heldBy_writes _ hx).writes_index n
  · rw [writeRegs_append]
    exact NOperand.heldBy_writes _ hn

end Sys2Proof.Asm
end

section
/-!
SUPPORT. Acquisition alone writes ACQD (R120, R121): it leaves the same block whether it answers or raises, and nothing
a command does after it writes ACQD.
-/
namespace Sys2Proof.Machine

/-- The block a part of a command leaves, whether it answers or raises. -/
def Res.block {W : Width} {α : Type} : Res W α → Block W
  | .ok _ t => t
  | .raise _ t => t

namespace Block
variable {W : Width} {b t : Block W} {op : PendingOp} {f : Word W → Nat → Word W}

/-! ### Acquisition and the prologue -/

theorem afterAcquire_acqd (b : Block W) : b.afterAcquire.acqd = if b.xform = 1 then b.ximmAbs else b.acqd := by
  unfold afterAcquire
  split <;> rfl

/-- An operand that is no number is not COMPACT: nothing is written. -/
theorem afterAcquire_eq_self (h : ¬ b.HasNumber) : b.afterAcquire = b := if_neg fun hx => h (.inl hx)

theorem acquire_block (b : Block W) : b.acquire.block = b.afterAcquire := by
  by_cases hx : b.HasNumber
  · rw [acquire_ok hx]; rfl
  · rw [acquire_raise hx, afterAcquire_eq_self hx]; rfl

theorem index_block (b : Block W) : b.index.block = b := by
  unfold index
  split <;> rfl

/-- What follows a part of a command and leaves its block alone is not seen in the block left. -/
theorem andThen_block {α β : Type} {r : Res W α} {g : α → Block W → Res W β} (hg : ∀ a c, (g a c).block = c) :
    (r.andThen g).block = r.block := by
  cases r with
  | ok a c => exact hg a c
  | raise e c => rfl

/-- The prologue leaves what acquisition left, at its raises also (R170; A12). -/
theorem bitOpPrologue_block (b : Block W) : b.bitOpPrologue.block = b.afterAcquire := by
  rw [← acquire_block b]
  refine andThen_block fun v c => ?_
  refine (andThen_block fun n d => ?_).trans (index_block c)
  cases v.sign <;> rfl

/-! ### A command whose operands are rejected -/

theorem run_prologue_rejected (h : ¬ (b.HasNumber ∧ b.HasIndex ∧ ¬ b.Negative))
    (g : View × Index → Block W → Res W Unit) :
    b.runCommand (fun c => c.bitOpPrologue.andThen g) = b.acquired.failWith .badArgument := by
  obtain ⟨t, ht, -⟩ := prologue_raise (b := b.clearPortLog) h
  have hb := bitOpPrologue_block b.clearPortLog
  rw [ht] at hb
  simp only [runCommand, ht, Res.andThen_raise]
  exact congrArg (failWith · .badArgument) hb

/-- A rejected command ends in BadArgument in the block acquisition left (R170, R200, R230). -/
theorem runCommand_rejected (h : ¬ b.Accepted op) : b.runCommand op.body = b.acquired.failWith .badArgument := by
  have hac : ¬ b.HasNumber → b.acquired = b.clearPortLog := afterAcquire_eq_self (b := b.clearPortLog)
  have hnum (ho : bitOp op = false) : ¬ b.HasNumber := fun hx => h ⟨hx, by simp [ho]⟩
  have hbit (ho : bitOp op = true) : ¬ (b.HasNumber ∧ b.HasIndex ∧ ¬ b.Negative) := fun hx => h ⟨hx.1, fun _ => hx.2⟩
  cases op with
  | size => rw [hac (hnum rfl)]; exact run_size_raise (hnum rfl)
  | count => rw [hac (hnum rfl)]; exact run_count_raise (hnum rfl)
  | test => exact run_prologue_rejected (hbit rfl) _
  | set => exact run_prologue_rejected (hbit rfl) _
  | clear => exact run_prologue_rejected (hbit rfl) _
  | toggle => exact run_prologue_rejected (hbit rfl) _

/-! ### A command whose operands are accepted -/

theorem ReadsOnly.acqd {b t : Block W} (h : ReadsOnly b t) : t.acqd = b.acqd := h.bufferOnly.acqd

theorem normalize_acqd (b : Block W) : (b.normalize false).acqd = b.acqd := by
  obtain ⟨form, val, he⟩ := formResult_eq (trim b.wn b).2 (trim b.wn b).1
  have hr := (trim_readsOnly b.wn b).acqd
  rw [normalize, he, setResult_acqd]
  split
  · exact (readsOnly_wbufRead _ 0).acqd.trans hr
  · exact hr

theorem heapBuffer_acqd (b : Block W) (base : Word W) : (b.heapBuffer base).acqd = b.acquired.acqd :=
  takeAnswer_acqd b.acquired

theorem editedIn_acqd (b c : Block W) (f : Word W → Nat → Word W) : (b.editedIn c f).acqd = c.acqd :=
  (normalize_acqd _).trans (bufferOnly_edited c b.operandView b.neededDigits b.nval.toNat f).acqd

theorem EditOutcome.acqd (ht : EditOutcome b f t) : t.acqd = b.acquired.acqd := by
  cases ht with
  | tooLarge _ => rfl
  | refused _ _ _ => exact takeAnswer_acqd b.acquired
  | inline _ _ => exact editedIn_acqd b b.inlineBuffer f
  | heap base _ _ _ => exact (editedIn_acqd b (b.heapBuffer base) f).trans (heapBuffer_acqd b base)

theorem Ended.acqd_of_accepted (ht : Ended b op t) (ha : b.Accepted op) : t.acqd = b.acquired.acqd := by
  cases ht with
  | rejected _ h _ => exact absurd ha h
  | scalar _ _ _ _ hc _ => exact hc.acqd
  | original _ _ _ => rfl
  | huge _ _ _ => rfl
  | edit _ _ _ _ _ ht => exact ht.acqd

/-- However a command ends, ACQD is what acquisition left in it (R120). -/
theorem runCommand_acqd (hl : b.params.legal W = true) (op : PendingOp) :
    (b.runCommand op.body).acqd = b.acquired.acqd := by
  by_cases ha : b.Accepted op
  · exact (ended_runCommand hl op).acqd_of_accepted ha
  · rw [runCommand_rejected ha]; rfl

end Block
end Sys2Proof.Machine
end

section
/-!
SUPPORT. The synthesised digit with its sign is XIMM, and the digits of the acquired view are the operand's (R121 to
R123, R127).
-/
namespace Sys2Proof.Machine.Block
variable {W : Width} {b t : Block W} {v : View}

/-- The sign and absolute value of XIMM are those of `sext(XIMM)`, the least value included (A19). -/
theorem signed_ximmAbs (b : Block W) : signed b.ximm.msb b.ximmAbs.toNat = b.ximm.toInt := by
  have habs : b.ximmAbs.toNat = if b.ximm.msb then 2 ^ W.bits - b.ximm.toNat else b.ximm.toNat := BitVec.toNat_abs
  have hlt := b.ximm.isLt
  rw [habs, BitVec.toInt_eq_msb_cond]
  cases b.ximm.msb
  · rfl
  · simp only [signed, if_true]
    push_cast [hlt.le]
    omega

/-- The value of an accepted operand is the signed magnitude of its digits (R13, R127). -/
theorem signed_operandMag (b : Block W) : signed b.operandView.sign b.operandMag = b.operandValue := by
  by_cases h2 : b.xform = 2
  · simp only [operandView, operandMag, operandDigit, operandSize, operandValue, if_pos h2]
  · simpa [operandView, operandMag, operandDigit, operandSize, operandValue, h2, mag] using signed_ximmAbs b

/-- Acquisition succeeds on the operands that are numbers, with their view (R120 to R122). -/
theorem acquire_eq_ok_iff : b.acquire = .ok v t ↔ b.HasNumber ∧ v = b.operandView ∧ t = b.afterAcquire := by
  by_cases hx : b.HasNumber
  · simp [acquire_ok hx, hx, eq_comm]
  · simp [acquire_raise hx, hx]

/-- What `Digit` reads through the acquired view is the operand's digit (R123). -/
theorem afterAcquire_digit_fst (h : b.HasNumber) (hs : b.Settled) {i : Nat} (hi : i < b.operandSize) :
    (b.afterAcquire.digit b.operandView i).1 = b.operandDigit i := by
  rw [digit_fst (afterAcquire_viewSettled h hs) (by rwa [operandView_size]), afterAcquire_viewDigit h]

end Sys2Proof.Machine.Block
end

section
/-!
The obligations about acquisition.
-/
namespace Sys2Proof.Machine
open Block

/-- Settles O25: however the command ends, ACQD is what acquisition left; nothing after acquisition writes it. -/
theorem acquisitionWritesTheSynthesisedDigit : Obligations.AcquisitionWritesTheSynthesisedDigit := by
  intro W b op h _
  exact ⟨_, exec_pending op b, (runCommand_acqd h.legal op).trans (afterAcquire_acqd b.clearPortLog)⟩

/-- Settles O35: the view's digits are the operand's, and their signed magnitude is the operand's value. -/
theorem acquiredViewHasTheOperandsValue : Obligations.AcquiredViewHasTheOperandsValue := by
  intro W b t v hs h
  obtain ⟨hx, rfl, rfl⟩ := acquire_eq_ok_iff.mp h
  rw [operandView_size, mag_congr fun i hi => congrArg BitVec.toNat (afterAcquire_digit_fst hx hs hi)]
  exact signed_operandMag b

end Sys2Proof.Machine
end

section
/-!
SUPPORT. CopyAndGrow by the buffer it obtains (R140 to R144): which one that is, the block it leaves, and the magnitude
of the copy.
-/
namespace Sys2Proof.Machine

/-- Zeros above digit `k` add nothing to a magnitude (R13). -/
theorem mag_eq_of_zeros_above {W : Width} {d : Nat → Nat} {k n : Nat} (hkn : k ≤ n)
    (h : ∀ i, k ≤ i → i < n → d i = 0) : mag W d n = mag W d k := by
  induction n, hkn using Nat.le_induction with
  | base => rfl
  | succ n hkn ih =>
    rw [mag, h n hkn (Nat.lt_succ_self n), Nat.zero_mul, Nat.add_zero]
    exact ih fun i h1 h2 => h i h1 (Nat.lt_succ_of_lt h2)

namespace Block
variable {W : Width} {b c t : Block W} {v : View} {m n : Nat}

theorem afterAlloc_trace (b : Block W) (o : Option Region) (n : Nat) :
    (b.afterAlloc o n).trace = b.trace ++ [.alloc n (b.allocAnswer o n)] :=
  congrArg (· ++ _) (takeAnswer_trace b)

theorem BufferOnly.trace (h : BufferOnly b t) : t.trace = b.trace := by
  obtain ⟨_, _, _, _, _, rfl⟩ := h
  rfl

theorem ReadsOnly.trace (h : ReadsOnly b t) : t.trace = b.trace := h.bufferOnly.trace

/-! ### The buffer -/

theorem obtainBuffer_of_tooLarge (h : b.params.maxDigits < n) : b.obtainBuffer v n = .raise .allocationFailure b :=
  if_pos h

theorem obtainBuffer_of_inline (h : n ≤ b.params.maxDigits) (hn : n < inlineThreshold) :
    b.obtainBuffer v n = .ok () (b.setWork .inline b.hbase n) := by
  simp only [obtainBuffer, if_neg (Nat.not_lt.mpr h), if_pos hn]

theorem obtainBuffer_of_refused (h : n ≤ b.params.maxDigits) (hn : inlineThreshold ≤ n)
    (ha : b.allocAnswer v.region? n = .fail) :
    b.obtainBuffer v n = .raise .allocationFailure (b.afterAlloc v.region? n) := by
  simp only [obtainBuffer, if_neg (Nat.not_lt.mpr h), if_neg (Nat.not_lt.mpr hn), alloc_fail ha]

theorem obtainBuffer_of_granted {base : Word W} (h : n ≤ b.params.maxDigits) (hn : inlineThreshold ≤ n)
    (ha : b.allocAnswer v.region? n = .ok base) :
    b.obtainBuffer v n = .ok () (((b.afterAlloc v.region? n).addLive ⟨base.toNat, n⟩).setWork .heap base n) := by
  simp only [obtainBuffer, if_neg (Nat.not_lt.mpr h), if_neg (Nat.not_lt.mpr hn), alloc_ok ha]

/-- Obtaining a buffer leaves what a view's digits are read from as it was. -/
theorem Obtained.viewSourceKept (h : Obtained b v n (.ok () c)) :
    c.params = b.params ∧ c.mem = b.mem ∧ c.released = b.released ∧ c.acqd = b.acqd := by
  cases h with
  | inline _ _ => exact ⟨rfl, rfl, rfl, rfl⟩
  | heap base _ _ _ => exact ⟨takeAnswer_params b, takeAnswer_mem b, takeAnswer_released b, takeAnswer_acqd b⟩

theorem Obtained.viewDigit (h : Obtained b v n (.ok () c)) (i : Nat) : c.viewDigit v i = b.viewDigit v i := by
  obtain ⟨hp, hm, -, ha⟩ := h.viewSourceKept
  simp only [Block.viewDigit, digitAt, hp, hm, ha]

theorem Obtained.viewSettled (h : Obtained b v n (.ok () c)) (hs : b.ViewSettled v) : c.ViewSettled v := by
  obtain ⟨-, -, hr, -⟩ := h.viewSourceKept
  rw [ViewSettled, hr]
  exact hs

/-- No digit of the view's region has been given back. -/
theorem viewSettled_of_region (h : ∀ r a, v.region? = some r → r.has a = true → a ∉ b.released) : b.ViewSettled v :=
  fun base hb _ hi => h ⟨base, v.size⟩ _ (by simp only [View.region?, hb])
    (Region.has_iff.mpr ⟨Nat.le_add_right _ _, Nat.add_lt_add_left hi _⟩)

/-! ### The copy -/

theorem bufferOnly_grown (c : Block W) (v : View) (n : Nat) : BufferOnly c (c.grown v n) :=
  (bufferOnly_copyDigits v _ _ c).trans (bufferOnly_zeroFill _ _ _)

/-- An inline copy writes no memory (R43). -/
theorem grown_mem_of_inline (hk : c.wkind = .inline) (v : View) (n : Nat) : (c.grown v n).mem = c.mem :=
  (zeroFill_inline _ _ _ ((bufferOnly_copyDigits v _ _ c).wkind.trans hk)).1.trans (copyDigits_inline v _ _ c hk).1

/-- CopyAndGrow answers exactly where it obtains a buffer, with the grown copy in it (R140, R144). -/
theorem copyAndGrow_eq_ok (h : b.copyAndGrow v m = .ok () t) :
    ∃ c, Obtained b v (max m v.size) (.ok () c) ∧ t = c.grown v (max m v.size) := by
  have hc := obtainBuffer_obtained b v (growSize v m)
  rw [copyAndGrow_eq] at h
  cases ho : b.obtainBuffer v (growSize v m) with
  | ok a c =>
    rw [ho] at h hc
    cases h
    exact ⟨c, hc, rfl⟩
  | raise e c => rw [ho] at h; cases h

end Block
end Sys2Proof.Machine
end

section
/-!
SUPPORT. What each command adds to the allocator's trace (R143, R146, R148).
-/
namespace Sys2Proof.Machine.Block
variable {W : Width} {b c t : Block W} {op : PendingOp} {f : Word W → Nat → Word W}

/-- The calls of the allocator a command makes: one where its copy reaches the threshold, none elsewhere (R143). -/
def allocCalls (b : Block W) (i : Instr) : List (AllocEvent W) :=
  match b.copyLength i with
  | none => []
  | some n => if n < inlineThreshold then [] else [.alloc n (b.allocAnswer b.operandRegion n)]

theorem allocCalls_of_copyLength_none {i : Instr} (h : b.copyLength i = none) : b.allocCalls i = [] := by
  simp only [allocCalls, h]

theorem allocCalls_of_inline {i : Instr} {n : Nat} (h : b.copyLength i = some n) (hn : n < inlineThreshold) :
    b.allocCalls i = [] := by
  simp only [allocCalls, h, if_pos hn]

theorem allocCalls_of_heap {i : Instr} {n : Nat} (h : b.copyLength i = some n) (hn : inlineThreshold ≤ n) :
    b.allocCalls i = [.alloc n (b.allocAnswer b.operandRegion n)] := by
  simp only [allocCalls, h, if_neg (Nat.not_lt.mpr hn)]

theorem length_allocCalls_le_one (b : Block W) (i : Instr) : (b.allocCalls i).length ≤ 1 := by
  unfold allocCalls
  split
  · exact Nat.zero_le 1
  · split
    · exact Nat.zero_le 1
    · exact Nat.le_refl 1

theorem acquired_trace (b : Block W) : b.acquired.trace = b.trace := by
  obtain ⟨w, hw⟩ := acquired_eq b
  rw [hw]
  rfl

/-- Normalisation sets the result fields of a block it has only read (R210). -/
theorem normalize_eq_setResult (b : Block W) :
    ∃ c form val size, ReadsOnly b c ∧ b.normalize false = c.setResult form false val size := by
  obtain ⟨form, val, he⟩ := formResult_eq (trim b.wn b).2 (trim b.wn b).1
  refine ⟨_, form, val, _, ?_, he⟩
  split
  · exact (trim_readsOnly b.wn b).trans (readsOnly_wbufRead _ 0)
  · exact trim_readsOnly b.wn b

/-- Nothing after the buffer is obtained calls the allocator. -/
theorem editedIn_trace (b c : Block W) (f : Word W → Nat → Word W) : (b.editedIn c f).trace = c.trace := by
  obtain ⟨d, form, val, size, hd, he⟩ := normalize_eq_setResult (c.edited b.operandView b.neededDigits b.nval.toNat f)
  rw [editedIn, he]
  exact hd.trace.trans (bufferOnly_edited c b.operandView b.neededDigits b.nval.toNat f).trace

/-- The call is answered, and recorded, as it would be before the operands are acquired. -/
theorem acquired_afterAlloc_trace (b : Block W) (n : Nat) :
    (b.acquired.afterAlloc b.operandRegion n).trace = b.trace ++ [.alloc n (b.allocAnswer b.operandRegion n)] := by
  rw [afterAlloc_trace, acquired_trace, acquired_allocAnswer]

/-- An edit calls the allocator where the digits it needs reach the threshold and are no more than `MAX_DIGITS`. -/
theorem EditOutcome.trace (ht : EditOutcome b f t) (he : b.Edits op f) :
    t.trace = b.trace ++ b.allocCalls op.instr := by
  have hlen := he.copyLength
  cases ht with
  | tooLarge hlt =>
    rw [if_neg (Nat.not_le.mpr hlt)] at hlen
    rw [allocCalls_of_copyLength_none hlen, List.append_nil]
    exact acquired_trace b
  | refused hle hge _ =>
    rw [if_pos hle] at hlen
    rw [allocCalls_of_heap hlen hge]
    exact acquired_afterAlloc_trace b b.neededDigits
  | inline hle hlt =>
    rw [if_pos hle] at hlen
    rw [allocCalls_of_inline hlen hlt, List.append_nil]
    exact (editedIn_trace b b.inlineBuffer f).trans (acquired_trace b)
  | heap base hle hge _ =>
    rw [if_pos hle] at hlen
    rw [allocCalls_of_heap hlen hge]
    exact (editedIn_trace b (b.heapBuffer base) f).trans (acquired_afterAlloc_trace b b.neededDigits)

/-- A command that does not edit leaves the trace as it was (R148). -/
theorem Ended.trace_of_not_edits (ht : Ended b op t) (h : ∀ f, ¬ b.Edits op f) : t.trace = b.trace := by
  cases ht with
  | rejected c _ hc =>
    obtain rfl | rfl := hc
    · rfl
    · exact acquired_trace b
  | scalar c _ _ _ hc _ => exact hc.trace.trans (acquired_trace b)
  | original _ _ _ => exact acquired_trace b
  | huge _ _ _ => exact acquired_trace b
  | edit f _ hready hedit hrange _ => exact absurd ⟨hready, hedit, hrange⟩ (h f)

/-- The core step of a command adds its calls of the allocator to the trace, and nothing else (R143). -/
theorem runCommand_trace (hl : b.params.legal W = true) (op : PendingOp) :
    (b.runCommand op.body).trace = b.trace ++ b.allocCalls op.instr := by
  by_cases h : ∃ f, b.Edits op f
  · obtain ⟨f, he⟩ := h
    rw [he.runCommand]
    exact (editRun_outcome b f).trace he
  · have hno := not_exists.mp h
    rw [allocCalls_of_copyLength_none (copyLength_eq_none hno), List.append_nil]
    exact (ended_runCommand hl op).trace_of_not_edits hno

/-- ReleaseResult frees a held heap buffer and calls the allocator for nothing else (R146, R253). -/
theorem releaseResult_trace (b : Block W) :
    b.releaseResult.trace = b.trace ++ if b.wkind = .heap then [.free b.hbase] else [] := by
  cases hk : b.wkind <;> simp [releaseResult, releaseBuffer, noResult, free, hk]

theorem countP_isAlloc_releaseResult (b : Block W) :
    b.releaseResult.trace.countP AllocEvent.isAlloc = b.trace.countP AllocEvent.isAlloc := by
  rw [releaseResult_trace, List.countP_append]
  split <;> rfl

end Sys2Proof.Machine.Block
end

section
/-!
The obligations about the Resize/Copy Engine.
-/
namespace Sys2Proof.Machine
open Block

/-- Settles O31: the digits of the grown copy are the view's, then zeros, which add nothing to the magnitude. -/
theorem copyAndGrowKeepsTheMagnitude : Obligations.CopyAndGrowKeepsTheMagnitude := by
  intro W b t v m hm _ hr h
  obtain ⟨c, hc, rfl⟩ := copyAndGrow_eq_ok h
  obtain ⟨hready, hwn⟩ := obtained_ready hm hc
  have hs := viewSettled_of_region hr
  have hle : v.size ≤ max m v.size := Nat.le_max_right _ _
  have hwn' : (c.grown v (max m v.size)).wn = max m v.size := (bufferOnly_grown c v _).wn.trans hwn
  have hdigit := grown_digit hready hwn (hc.viewSettled hs) (obtained_apart hc) hle
  have hcopied : ∀ i, i < v.size → (c.grown v (max m v.size)).wbufDigit i = (b.digit v i).1 := fun i hi => by
    rw [hdigit i (Nat.lt_of_lt_of_le hi hle), if_pos hi, hc.viewDigit, digit_fst hs hi]
  have hzero : ∀ i, v.size ≤ i → i < max m v.size → (c.grown v (max m v.size)).wbufDigit i = 0 := fun i h1 h2 => by
    rw [hdigit i h2, if_neg (Nat.not_lt.mpr h1)]
  refine ⟨hwn', hcopied, hwn'.symm ▸ hzero, ?_⟩
  calc (c.grown v (max m v.size)).wbufMag (c.grown v (max m v.size)).wn
      = (c.grown v (max m v.size)).wbufMag (max m v.size) := by rw [hwn']
    _ = (c.grown v (max m v.size)).wbufMag v.size :=
      mag_eq_of_zeros_above hle fun i h1 h2 => by rw [hzero i h1 h2]; rfl
    _ = mag W (fun i => (b.digit v i).1.toNat) v.size := mag_congr fun i hi => by rw [hcopied i hi]

/-- Settles O32: by the digit count and the allocator's answer; the copy keeps the buffer obtained and the trace. -/
theorem bufferPathByDigitCount : Obligations.BufferPathByDigitCount := by
  intro W b v m
  simp only [copyAndGrow_eq, growSize]
  refine ⟨fun hlt => ?_, fun hle h3 => ?_, fun hle h4 => ⟨fun ha => ?_, fun base ha => ?_⟩⟩
  · rw [obtainBuffer_of_tooLarge hlt, Res.andThen_raise]
  · rw [obtainBuffer_of_inline hle (Nat.lt_succ_of_le h3)]
    have hg := bufferOnly_grown (b.setWork .inline b.hbase (max m v.size)) v (max m v.size)
    exact ⟨_, rfl, hg.wkind, hg.wn, hg.trace, grown_mem_of_inline rfl v _⟩
  · rw [obtainBuffer_of_refused hle h4 ha]
    refine ⟨_, rfl, takeAnswer_wkind b, takeAnswer_mem b, takeAnswer_inl b, ?_⟩
    rw [afterAlloc_trace, ha]
  · rw [obtainBuffer_of_granted hle h4 ha]
    have hg := bufferOnly_grown (((b.afterAlloc v.region? (max m v.size)).addLive
      ⟨base.toNat, max m v.size⟩).setWork .heap base (max m v.size)) v (max m v.size)
    refine ⟨_, rfl, hg.wkind, hg.hbase, hg.wn, hg.trace.trans ?_⟩
    rw [setWork_trace, addLive_trace, afterAlloc_trace, ha]

/-- Settles O40: a command adds to the trace the calls its copy makes, at most one; RELEASE adds only a `FREE`. -/
theorem atMostOneAllocation : Obligations.AtMostOneAllocation := by
  intro W b i h _
  obtain rfl | ⟨op, rfl⟩ := instr_cases i
  · have hcount := countP_isAlloc_releaseResult b
    exact ⟨_, rfl, Nat.le_succ_of_le hcount.le, fun _ => hcount⟩
  · have htrace := runCommand_trace h.legal op
    refine ⟨_, exec_pending op b, ?_, fun hn => ?_⟩
    · rw [htrace, List.countP_append]
      exact Nat.add_le_add_left (List.countP_le_length.trans (length_allocCalls_le_one b op.instr)) _
    · have hc : b.copyLength op.instr = none := hn.resolve_right (by cases op <;> exact nofun)
      rw [htrace, allocCalls_of_copyLength_none hc, List.append_nil]

end Sys2Proof.Machine
end

section
/-!
SUPPORT. An index beyond `MAX_DIGITS`, HUGE or a VALUE: it lies beyond every accepted operand, no copy can cover it, and
so SET and TOGGLE fail with no call of the allocator (R142, R162).
-/
namespace Sys2Proof.Machine.Block
variable {W : Width} {b : Block W} {op : PendingOp}

/-- The index is HUGE, or a VALUE whose digit lies beyond `MAX_DIGITS` (R142, R162). -/
abbrev IndexBeyondMaxDigits (b : Block W) : Prop :=
  b.nkind = 2 ∨ (b.nkind = 1 ∧ b.params.maxDigits < b.nval.toNat / W.bits + 1)

theorem IndexBeyondMaxDigits.hasIndex (hb : b.IndexBeyondMaxDigits) : b.HasIndex := hb.symm.imp_left And.left

/-- An accepted operand has at most `MAX_DIGITS` digits, so the index is out of its range. -/
theorem IndexBeyondMaxDigits.outOfRange (hb : b.IndexBeyondMaxDigits) (hl : b.params.legal W = true)
    (hx : b.HasNumber) : b.nkind = 2 ∨ b.operandSize < b.nval.toNat / W.bits + 1 :=
  hb.imp_right fun hv => Nat.lt_of_le_of_lt (operandSize_le hl hx) hv.2

theorem maxDigits_lt_neededDigits (h : b.params.maxDigits < b.nval.toNat / W.bits + 1) :
    b.params.maxDigits < b.neededDigits := Nat.lt_of_lt_of_le h (Nat.le_max_left _ _)

/-- No command comes to copy: a HUGE index asks for no buffer, a VALUE one for one that is too large. -/
theorem IndexBeyondMaxDigits.copyLength (hb : b.IndexBeyondMaxDigits) (i : Instr) : b.copyLength i = none := by
  refine if_neg fun ⟨⟨_, _, hone⟩, hle⟩ => ?_
  obtain hhuge | ⟨-, hlt⟩ := hb
  · rw [hhuge] at hone
    cases hone
  · exact absurd hle (Nat.not_le.mpr (maxDigits_lt_neededDigits hlt))

/-- SET and TOGGLE edit where the index is a VALUE (R173, R179). -/
theorem exists_edits (hb : b.BitOpReady) (ho : op = .set ∨ op = .toggle) : ∃ f, b.Edits op f := by
  obtain rfl | rfl := ho
  · exact ⟨setBit, hb, rfl, nofun⟩
  · exact ⟨toggleBit, hb, rfl, nofun⟩

/-- SET and TOGGLE fail, the HUGE index by itself (R162) and the VALUE one for want of a buffer (R142). -/
theorem IndexBeyondMaxDigits.failedWith (hb : b.IndexBeyondMaxDigits) (hk : b.wkind = .none)
    (ho : op = .set ∨ op = .toggle) (hx : b.HasNumber) (hs : ¬ b.Negative) :
    (b.runCommand op.body).FailedWith .allocationFailure := by
  obtain hhuge | ⟨hone, hlt⟩ := hb
  · exact failedWith_of_huge hk ho hx hhuge hs
  · obtain ⟨f, he⟩ := exists_edits ⟨hx, hs, hone⟩ ho
    rw [he.runCommand]
    exact (editRun_outcome b f).failedWith hk fun hg => Nat.not_le.mpr (maxDigits_lt_neededDigits hlt) hg.1

theorem IndexBeyondMaxDigits.trace (hb : b.IndexBeyondMaxDigits) (hl : b.params.legal W = true) (op : PendingOp) :
    (b.runCommand op.body).trace = b.trace := by
  rw [runCommand_trace hl op, allocCalls_of_copyLength_none (hb.copyLength op.instr), List.append_nil]

end Sys2Proof.Machine.Block
end

section
/-!
The obligations about the bit index.
-/
namespace Sys2Proof.Machine
open Block

/-- Settles O23: the index is out of the operand's range for TEST and CLEAR, and leaves SET and TOGGLE no buffer. -/
theorem hugeIndexOutcomes : Obligations.HugeIndexOutcomes := by
  intro W b h hp hx hs (hb : b.IndexBeyondMaxDigits)
  have hout := hb.outOfRange h.legal hx
  have htest := test_scalarDone_of_outOfRange h hp hx hb.hasIndex hs (hout.imp_right Nat.le_of_lt_succ)
  have hclear := run_clear_original hx hb.hasIndex hs hout
  have hfail (op : PendingOp) (ho : op = .set ∨ op = .toggle) := hb.failedWith (h.noBuffer (by simp [hp])).wkind ho hx hs
  refine ⟨⟨_, exec_pending .test b, htest⟩, ⟨_, exec_pending .clear b, ?_⟩,
    ⟨_, exec_pending .set b, hfail .set (.inl rfl), hb.trace h.legal .set⟩,
    ⟨_, exec_pending .toggle b, hfail .toggle (.inr rfl), hb.trace h.legal .toggle⟩⟩
  rw [PendingOp.body, hclear]
  exact ⟨rfl, rfl⟩

/-- Settles O36: the digit index is the quotient and the bit offset the remainder of one division by `W`. -/
theorem locateDecomposesUniquely : Obligations.LocateDecomposesUniquely := by
  intro W bn di bo
  calc (bn = W.bits * di + bo ∧ bo < W.bits)
      ↔ (bo + W.bits * di = bn ∧ bo < W.bits) := by rw [Nat.add_comm bo, eq_comm]
    _ ↔ (bn / W.bits = di ∧ bn % W.bits = bo) := (Nat.div_mod_unique W.bits_pos).symm
    _ ↔ (di = digitIndex W bn ∧ bo = bitOffset W bn) := and_congr eq_comm eq_comm

end Sys2Proof.Machine
end

section
/-!
SUPPORT. The bits of a magnitude are its digits' bits (R13, R160), and what SET, CLEAR and TOGGLE make of one bit of a
digit (R173, R175, R179).
-/
namespace Sys2Proof.Machine
variable {W : Width}

/-- `k` digits of `W` bits are a number below `2^(W*k)` (R13). -/
theorem mag_lt (d : Nat → Word W) (k : Nat) : mag W (fun i => (d i).toNat) k < 2 ^ (W.bits * k) := by
  induction k with
  | zero => exact Nat.one_pos
  | succ k ih =>
    calc mag W (fun i => (d i).toNat) k + (d k).toNat * 2 ^ (W.bits * k)
        < ((d k).toNat + 1) * 2 ^ (W.bits * k) := by rw [Nat.succ_mul, Nat.add_comm]; exact Nat.add_lt_add_left ih _
      _ ≤ 2 ^ W.bits * 2 ^ (W.bits * k) := Nat.mul_le_mul_right _ (d k).isLt
      _ = 2 ^ (W.bits * (k + 1)) := by rw [← Nat.pow_add, Nat.mul_succ, Nat.add_comm]

/-- Bit `n` of a magnitude is bit `n % W` of digit `n / W`, and 0 beyond the digits (R160). -/
theorem testBit_mag (d : Nat → Word W) (k n : Nat) :
    (mag W (fun i => (d i).toNat) k).testBit n =
      (decide (n / W.bits < k) && (d (n / W.bits)).getLsbD (n % W.bits)) := by
  induction k with
  | zero => simp [mag]
  | succ k ih =>
    have hsplit : mag W (fun i => (d i).toNat) (k + 1) =
        2 ^ (W.bits * k) * (d k).toNat + mag W (fun i => (d i).toNat) k := by rw [mag, Nat.add_comm, Nat.mul_comm]
    have hmod : W.bits * (n / W.bits) + n % W.bits = n := Nat.div_add_mod n W.bits
    rw [hsplit, Nat.testBit_two_pow_mul_add _ (mag_lt d k), ih, BitVec.testBit_toNat]
    obtain hlt | rfl | hgt := Nat.lt_trichotomy (n / W.bits) k
    · have hn : n < W.bits * k := by rw [Nat.mul_comm]; exact (Nat.div_lt_iff_lt_mul W.bits_pos).mp hlt
      simp [hn, hlt, Nat.lt_succ_of_lt hlt]
    · have hn : n - W.bits * (n / W.bits) = n % W.bits := by omega
      simp [hn, show ¬ n < W.bits * (n / W.bits) by omega]
    · have hn : W.bits * (k + 1) ≤ n := by rw [Nat.mul_comm]; exact (Nat.le_div_iff_mul_le W.bits_pos).mp hgt
      rw [Nat.mul_succ] at hn
      simp [show ¬ n < W.bits * k by omega, show ¬ n / W.bits < k + 1 by omega,
        BitVec.getLsbD_of_ge (d k) (n - W.bits * k) (by omega)]

/-- `f` gives bit `bo` of a digit the value `g` makes of it, and keeps the other bits. -/
def ChangesBit (f : Word W → Nat → Word W) (g : Bool → Bool) : Prop :=
  ∀ d bo j, j < W.bits → (f d bo).getLsbD j = if bo = j then g (d.getLsbD j) else d.getLsbD j

theorem getLsbD_bitMask {bo j : Nat} (hj : j < W.bits) : (bitMask W bo).getLsbD j = decide (bo = j) := by
  rw [bitMask, ← BitVec.twoPow_eq, BitVec.getLsbD_twoPow]
  by_cases h : bo = j
  · simp [h, hj]
  · simp [h]

theorem changesBit_setBit : ChangesBit (W := W) setBit fun _ => true := by
  intro d bo j hj
  rw [setBit, BitVec.getLsbD_or, getLsbD_bitMask hj]
  split <;> simp [*]

theorem changesBit_clearBit : ChangesBit (W := W) clearBit fun _ => false := by
  intro d bo j hj
  rw [clearBit, BitVec.getLsbD_and, BitVec.getLsbD_not, getLsbD_bitMask hj]
  split <;> simp [*]

theorem changesBit_toggleBit : ChangesBit (W := W) toggleBit (!·) := by
  intro d bo j hj
  rw [toggleBit, BitVec.getLsbD_xor, getLsbD_bitMask hj]
  split <;> simp [*]

/-- Taking the common bits of `y` away from `x` leaves the bits of `x` that are not in `y`. -/
theorem sub_and_eq_ldiff (x y : Nat) : x - (x &&& y) = Nat.ldiff x y := by
  have hsum : Nat.ldiff x y + (x &&& y) = x := by
    induction x using Nat.binaryRec generalizing y with
    | zero => exact Nat.zero_of_testBit_eq_false fun i => by simp [Nat.testBit_ldiff]
    | bit a m ih =>
      cases y using Nat.bitCasesOn with
      | bit b n =>
        have := ih n
        rw [Nat.ldiff_bit, Nat.land_bit]
        cases a <;> cases b <;> simp [Nat.bit] <;> omega
  omega

end Sys2Proof.Machine
end

section
/-!
SUPPORT. The four bit operations on values (R171, R173, R175, R176, R179, R182): what a completed edit denotes, and the
operand with one bit changed.
-/
namespace Sys2Proof.Machine.Block
variable {W : Width} {b t : Block W} {op : PendingOp} {f : Word W → Nat → Word W} {g : Bool → Bool}

/-! ### What a normalised result denotes -/

/-- A normalised result denotes the whole buffer: the digits beyond RSIZE are zeros (R215). -/
theorem Normalised.resultValue (h : t.Normalised) (hp : t.phase = .done) (he : t.err = .none) :
    t.resultValue = some (t.wbufMag t.wn : Int) := by
  have hmag : t.wbufMag t.wn = t.wbufMag t.rsize.toNat :=
    mag_eq_of_zeros_above h.le fun i h1 h2 => by rw [h.zeros i h1 h2]; rfl
  rw [Block.resultValue, if_pos ⟨hp, he⟩, h.rform, h.rval, h.rsign, hmag]
  by_cases hone : t.rsize.toNat = 1
  · simp [hone, signed, wbufMag, mag]
  · simp [hone, signed]

theorem EditDone.normalised {n : Nat} {d : Nat → Word W} (h : t.EditDone n d) (hn : 1 ≤ n) : t.Normalised :=
  h.result.normalised (by rw [h.wkind]; split <;> exact nofun) (h.wn.symm ▸ hn)

theorem EditDone.resultValue {n : Nat} {d : Nat → Word W} (h : t.EditDone n d) (hn : 1 ≤ n) :
    t.resultValue = some (mag W (fun i => (d i).toNat) n : Int) := by
  have hmag : t.wbufMag t.wn = mag W (fun i => (d i).toNat) n := by
    rw [h.wn]
    exact mag_congr fun i hi => congrArg BitVec.toNat (h.digits i hi)
  rw [(h.normalised hn).resultValue h.phase h.err, hmag]

theorem EditDone.congr {n : Nat} {d e : Nat → Word W} (h : t.EditDone n d) (hd : ∀ i, i < n → d i = e i) :
    t.EditDone n e :=
  { h with digits := fun i hi => (h.digits i hi).trans (hd i hi) }

/-! ### The operand with one bit changed -/

/-- Bit `n` of the operand, grown to any size. -/
theorem testBit_operandMag (b : Block W) (n : Nat) :
    b.operandMag.testBit n = (b.grownDigit (n / W.bits)).getLsbD (n % W.bits) := by
  rw [operandMag, testBit_mag, grownDigit]
  split <;> simp [*]

theorem testBit_operandMag_of_outOfRange {n : Nat} (hr : b.operandSize ≤ n / W.bits) :
    b.operandMag.testBit n = false := by
  rw [operandMag, testBit_mag, decide_eq_false (Nat.not_lt.mpr hr), Bool.false_and]

/-- The edit changes the bit at the index, and no other. -/
theorem getLsbD_editedDigit (hf : ChangesBit f g) (n : Nat) :
    (b.editedDigit f (n / W.bits)).getLsbD (n % W.bits) =
      if b.nval.toNat = n then g (b.operandMag.testBit n) else b.operandMag.testBit n := by
  rw [testBit_operandMag, editedDigit]
  by_cases hdi : n / W.bits = b.nval.toNat / W.bits
  · have hiff : b.nval.toNat % W.bits = n % W.bits ↔ b.nval.toNat = n := by
      refine ⟨fun hbo => ?_, congrArg (· % W.bits)⟩
      rw [← Nat.div_add_mod n W.bits, hdi, ← hbo, Nat.div_add_mod]
    rw [if_pos hdi, hf _ _ _ (Nat.mod_lt n W.bits_pos)]
    simp only [hiff]
  · have hne : b.nval.toNat ≠ n := fun h => hdi (congrArg (· / W.bits) h.symm)
    rw [if_neg hdi, if_neg hne]

/-- The magnitude of the edited buffer, bit by bit. -/
theorem testBit_editedMag (hf : ChangesBit f g) (n : Nat) :
    (mag W (fun i => (b.editedDigit f i).toNat) b.neededDigits).testBit n =
      if b.nval.toNat = n then g (b.operandMag.testBit n) else b.operandMag.testBit n := by
  rw [testBit_mag, getLsbD_editedDigit hf]
  by_cases hlt : n / W.bits < b.neededDigits
  · rw [decide_eq_true hlt, Bool.true_and]
  · obtain ⟨hdi, hsize⟩ : b.nval.toNat / W.bits + 1 ≤ n / W.bits ∧ b.operandSize ≤ n / W.bits :=
      Nat.max_le.mp (Nat.not_lt.mp hlt)
    have hne : b.nval.toNat ≠ n := fun h => absurd (h ▸ hdi) (Nat.not_succ_le_self _)
    rw [decide_eq_false hlt, if_neg hne, testBit_operandMag_of_outOfRange hsize, Bool.false_and]

theorem editedMag_eq (hf : ChangesBit f g) {m : Nat}
    (hm : ∀ n, m.testBit n = if b.nval.toNat = n then g (b.operandMag.testBit n) else b.operandMag.testBit n) :
    mag W (fun i => (b.editedDigit f i).toNat) b.neededDigits = m :=
  Nat.eq_of_testBit_eq fun n => (testBit_editedMag hf n).trans (hm n).symm

theorem editedMag_setBit (b : Block W) :
    mag W (fun i => (b.editedDigit setBit i).toNat) b.neededDigits = b.operandMag ||| 2 ^ b.nval.toNat := by
  refine editedMag_eq changesBit_setBit fun n => ?_
  rw [Nat.testBit_or, Nat.testBit_two_pow]
  split <;> simp [*]

theorem editedMag_clearBit (b : Block W) :
    mag W (fun i => (b.editedDigit clearBit i).toNat) b.neededDigits =
      b.operandMag - (b.operandMag &&& 2 ^ b.nval.toNat) := by
  refine editedMag_eq changesBit_clearBit fun n => ?_
  rw [sub_and_eq_ldiff, Nat.testBit_ldiff, Nat.testBit_two_pow]
  split <;> simp [*]

theorem editedMag_toggleBit (b : Block W) :
    mag W (fun i => (b.editedDigit toggleBit i).toNat) b.neededDigits = b.operandMag ^^^ 2 ^ b.nval.toNat := by
  refine editedMag_eq changesBit_toggleBit fun n => ?_
  rw [Nat.testBit_xor, Nat.testBit_two_pow]
  split <;> simp [*]

/-- Out of the operand's range there is no bit to clear (R176). -/
theorem operandMag_sub_of_outOfRange (hr : b.operandSize ≤ b.nval.toNat / W.bits) :
    b.operandMag - (b.operandMag &&& 2 ^ b.nval.toNat) = b.operandMag := by
  rw [Nat.and_two_pow, testBit_operandMag_of_outOfRange hr, Bool.toNat_false, Nat.zero_mul, Nat.sub_zero]

/-- A non-negative operand's value is its magnitude. -/
theorem operandValue_eq_operandMag (hx : b.HasNumber) (hneg : ¬ b.Negative) : b.operandValue = (b.operandMag : Int) := by
  rw [← signed_operandMag, Bool.eq_false_iff.mpr (mt (operandView_sign hx).mp hneg)]
  rfl

/-! ### TEST -/

/-- A command that does not edit leaves all storage as it was (R148). -/
theorem Ended.storageKept_of_not_edits (ht : Ended b op t) (hk : b.wkind = .none) (h : ∀ f, ¬ b.Edits op f) :
    b.StorageKept t := by
  cases ht with
  | rejected c _ hc => exact (fail_end hc hk _).2.2
  | scalar c v _ _ hc hv => exact (scalar_end hc hk hv).2.2
  | original _ _ _ => exact original_end.2
  | huge _ _ _ => exact (fail_end (.inr rfl) hk _).2.2
  | edit f _ hready hedit hrange _ => exact absurd ⟨hready, hedit, hrange⟩ (h f)

theorem test_storageKept (h : b.Inv) (hp : b.phase = .busy) : b.StorageKept (b.runCommand testBody) :=
  (ended_runCommand h.legal .test).storageKept_of_not_edits (h.noBuffer (by simp [hp])).wkind
    fun _ he => nomatch he.edit

/-- TEST of a VALUE index gives the bit of the magnitude (R171, R182). -/
theorem test_scalarDone_testBit (h : b.Inv) (hp : b.phase = .busy) (hb : b.BitOpReady) (hs : b.Settled) :
    (b.runCommand testBody).ScalarDone (b.operandMag.testBit b.nval.toNat).toNat := by
  by_cases hr : b.nval.toNat / W.bits < b.operandSize
  · rw [testBit_operandMag, grownDigit, if_pos hr]
    exact test_scalarDone_of_inRange h hp hb hs hr
  · rw [testBit_operandMag_of_outOfRange (Nat.not_lt.mp hr)]
    exact test_scalarDone_of_outOfRange h hp hb.1 (.inl hb.2.2) hb.2.1 (.inr (Nat.not_lt.mp hr))

/-! ### CLEAR out of range -/

/-- The original result denotes the value the host keeps for its command (R176, R261). -/
theorem original_resultValue (h : b.Inv) (hp : b.phase = .busy) (hx : b.HasNumber) :
    b.acquired.originalResult.finish.resultValue = some b.operandValue :=
  calc b.acquired.originalResult.finish.resultValue
      = b.acquired.decoded := if_pos ⟨rfl, rfl⟩
    _ = b.hostValue := (acquired_decoded b).trans (h.hostValue hp)
    _ = some b.operandValue := if_pos hx

/-! ### SET, CLEAR in range and TOGGLE -/

theorem Edits.editDone (he : b.Edits op f) (h : b.Inv) (hs : b.Settled) (hg : b.BufferGranted b.neededDigits) :
    (b.runCommand op.body).EditDone b.neededDigits (b.editedDigit f) := by
  rw [he.runCommand]
  exact ((editRun_outcome b f).editDone h he.ready.1 hs hg).1

/-- An edit that ends with no error has had its buffer. -/
theorem Edits.editDone_of_err_none (he : b.Edits op f) (h : b.Inv) (hp : b.phase = .busy) (hs : b.Settled)
    (herr : (b.runCommand op.body).err = .none) :
    (b.runCommand op.body).EditDone b.neededDigits (b.editedDigit f) := by
  refine he.editDone h hs (not_not.mp fun hg => ?_)
  have hfail := (editRun_outcome b f).failedWith (h.noBuffer (by simp [hp])).wkind hg
  rw [he.runCommand, hfail.err] at herr
  cases herr

/-- A bit in range asks for no more digits than the operand has (R140). -/
theorem neededDigits_of_inRange (hr : b.nval.toNat / W.bits < b.operandSize) : b.neededDigits = b.operandSize :=
  Nat.max_eq_right hr

/-- Below the operand's size nothing is grown. -/
theorem editedDigit_of_lt (f : Word W → Nat → Word W) {i : Nat} (hi : i < b.operandSize) :
    b.editedDigit f i =
      if i = b.nval.toNat / W.bits then f (b.operandDigit i) (b.nval.toNat % W.bits) else b.operandDigit i := by
  rw [editedDigit, grownDigit, if_pos hi]

/-- With a VALUE index CLEAR is the operand itself or an edit; SET and TOGGLE are always edits (R173, R175, R179). -/
theorem outOfRange_or_edits (hb : b.BitOpReady) (hf : editOf op = some f) :
    (op = .clear ∧ b.operandSize ≤ b.nval.toNat / W.bits) ∨ b.Edits op f := by
  by_cases hr : op = .clear ∧ b.operandSize ≤ b.nval.toNat / W.bits
  · exact .inl hr
  · exact .inr ⟨hb, hf, fun ho => Nat.not_le.mp fun hle => hr ⟨ho, hle⟩⟩

theorem run_clear_of_outOfRange (hb : b.BitOpReady) (hr : b.operandSize ≤ b.nval.toNat / W.bits) :
    b.runCommand clearBody = b.acquired.originalResult.finish :=
  run_clear_original hb.1 (.inl hb.2.2) hb.2.1 (.inr (Nat.lt_succ_of_le hr))

/-- A completed edit denotes the operand with the bit changed (R182, R215). -/
theorem Edits.resultValue (he : b.Edits op f) (h : b.Inv) (hp : b.phase = .busy) (hs : b.Settled)
    (herr : (b.runCommand op.body).err = .none) :
    (b.runCommand op.body).resultValue = some (mag W (fun i => (b.editedDigit f i).toNat) b.neededDigits : Int) :=
  (he.editDone_of_err_none h hp hs herr).resultValue (neededDigits_pos b)

/-- A completed SET, CLEAR or TOGGLE is the operand itself, or normalised (R212). -/
theorem original_or_normalised (h : b.Inv) (hp : b.phase = .busy) (hb : b.BitOpReady) (hs : b.Settled)
    (herr : (b.runCommand op.body).err = .none) (hf : editOf op = some f) :
    (b.runCommand op.body).rform = .original ∨ (b.runCommand op.body).Normalised := by
  obtain ⟨rfl, hr⟩ | he := outOfRange_or_edits hb hf
  · rw [PendingOp.body, run_clear_of_outOfRange hb hr]
    exact .inl rfl
  · exact .inr ((he.editDone_of_err_none h hp hs herr).normalised (neededDigits_pos b))

/-- CLEAR denotes the operand without the bit, whether or not the bit is in range (R182). -/
theorem clear_resultValue (h : b.Inv) (hp : b.phase = .busy) (hb : b.BitOpReady) (hs : b.Settled)
    (herr : (b.runCommand clearBody).err = .none) :
    (b.runCommand clearBody).resultValue =
      some ((b.operandMag - (b.operandMag &&& 2 ^ b.nval.toNat) : Nat) : Int) := by
  obtain ⟨-, hr⟩ | he := outOfRange_or_edits (op := .clear) hb rfl
  · rw [run_clear_of_outOfRange hb hr, original_resultValue h hp hb.1, operandMag_sub_of_outOfRange hr,
      operandValue_eq_operandMag hb.1 hb.2.1]
  · rw [← editedMag_clearBit]
    exact he.resultValue h hp hs herr

end Sys2Proof.Machine.Block
end

section
/-!
The obligations about TEST, SET, CLEAR and TOGGLE.
-/
namespace Sys2Proof.Machine
open Block

/-- Settles O12: by the index, HUGE, out of range or in range; a rejected operand is BadArgument. -/
theorem testResult : Obligations.TestResult := by
  intro W b h hp
  refine ⟨fun hx hn hneg hs => ⟨_, exec_pending .test b, ?_, inputsKept_runCommand b .test, test_storageKept h hp⟩,
    fun hno => ⟨_, exec_pending .test b, ?_, inputsKept_runCommand b .test, test_storageKept h hp⟩⟩
  · split_ifs with hhuge hr
    · exact test_scalarDone_of_outOfRange h hp hx hn hneg (.inl hhuge)
    · exact test_scalarDone_of_outOfRange h hp hx hn hneg (.inr hr)
    · exact test_scalarDone_of_inRange h hp ⟨hx, hneg, hn.resolve_right hhuge⟩ hs (Nat.not_le.mp hr)
  · exact (ended_runCommand h.legal .test).failedWith_of_rejected (h.noBuffer (by simp [hp])).wkind
      fun ⟨hx, hidx⟩ => hno ⟨hx, hidx rfl⟩

/-- Settles O18: SET is the edit by `setBit`. -/
theorem setResult : Obligations.SetResult := by
  intro W b h _ hb hs hg
  have he : b.Edits .set setBit := ⟨hb, rfl, nofun⟩
  exact ⟨_, exec_pending .set b, he.editDone h hs hg, inputsKept_runCommand b .set⟩

/-- Settles O19: CLEAR in range is the edit by `clearBit`, and needs no digit beyond the operand's. -/
theorem clearResult : Obligations.ClearResult := by
  intro W b h _ hb hs hr hg
  have he : b.Edits .clear clearBit := ⟨hb, rfl, fun _ => hr⟩
  have hn := neededDigits_of_inRange hr
  have hdone := he.editDone h hs (hn.symm ▸ hg)
  rw [hn] at hdone
  exact ⟨_, exec_pending .clear b, hdone.congr fun i hi => editedDigit_of_lt clearBit hi,
    inputsKept_runCommand b .clear⟩

/-- Settles O20: TOGGLE is the edit by `toggleBit`. -/
theorem toggleResult : Obligations.ToggleResult := by
  intro W b h _ hb hs hg
  have he : b.Edits .toggle toggleBit := ⟨hb, rfl, nofun⟩
  exact ⟨_, exec_pending .toggle b, he.editDone h hs hg, inputsKept_runCommand b .toggle⟩

/-- Settles O21: the command ends with the original result in the block acquisition left. -/
theorem clearOutOfRangeIsOriginal : Obligations.ClearOutOfRangeIsOriginal := by
  intro W b h hp hx hn hneg hr
  have hrun : exec .clear ⟨W, b⟩ = .next ⟨W, b.acquired.originalResult.finish⟩ :=
    (exec_pending .clear b).trans (by rw [PendingOp.body, run_clear_original hx hn hneg hr])
  obtain ⟨hin, hst⟩ := original_end (b := b)
  exact ⟨_, hrun, rfl, rfl, rfl, rfl, rfl, rfl, hst.wkind.trans (h.noBuffer (by simp [hp])).wkind, hin, hst,
    original_resultValue h hp hx⟩

/-- Settles O22: TEST reads a bit of the magnitude; a completed edit denotes it with that bit changed. -/
theorem bitOperationValueLaws : Obligations.BitOperationValueLaws := by
  intro W b h hp hb hs
  refine ⟨operandValue_eq_operandMag hb.1 hb.2.1, fun i t ht herr => ?_⟩
  have hrun (op : PendingOp) (hi : i = op.instr) : t = b.runCommand op.body := by
    rw [hi, exec_pending] at ht
    cases ht
    rfl
  have hnormal (op : PendingOp) (f : Word W → Nat → Word W) (hi : i = op.instr) (hf : editOf op = some f) :
      t.rform = .original ∨ t.rsize = 1 ∨ t.wbufDigit (t.rsize.toNat - 1) ≠ 0 := by
    obtain rfl := hrun op hi
    refine (original_or_normalised h hp hb hs herr hf).imp_right fun ht => ht.top.imp_left fun hone => ?_
    exact BitVec.eq_of_toNat_eq (hone.trans (by cases W <;> rfl))
  refine ⟨fun hi => ?_, fun hi => ?_, fun hi => ?_, fun hi => ?_, ?_⟩
  · obtain rfl := hrun .test hi
    have hdone := test_scalarDone_testBit h hp hb hs
    refine ⟨hdone.rform, hdone.rval.trans ?_⟩
    rw [Nat.toNat_testBit, Nat.and_one_is_mod, Nat.shiftRight_eq_div_pow]
  · obtain rfl := hrun .set hi
    have he : b.Edits .set setBit := ⟨hb, rfl, nofun⟩
    rw [he.resultValue h hp hs herr, editedMag_setBit]
  · obtain rfl := hrun .clear hi
    exact clear_resultValue h hp hb hs herr
  · obtain rfl := hrun .toggle hi
    have he : b.Edits .toggle toggleBit := ⟨hb, rfl, nofun⟩
    rw [he.resultValue h hp hs herr, editedMag_toggleBit]
  · rintro (hi | hi | hi)
    · exact hnormal .set setBit hi rfl
    · exact hnormal .clear clearBit hi rfl
    · exact hnormal .toggle toggleBit hi rfl

end Sys2Proof.Machine
end

section
/-!
SUPPORT. The bit-length of a digit is Mathlib's `Nat.size`, the least bound of R14; the loop of R201 computes it, and
the top digit's bit-length gives the magnitude's (R202).
-/
namespace Sys2Proof.Machine
variable {W : Width}

/-- `floor(log2 d) + 1` is the least `k` with `d < 2^k` (R14). -/
theorem bitlen_eq_size (d : Word W) : bitlen d = d.toNat.size := by
  unfold bitlen
  split
  · next h => rw [h, Nat.size_zero]
  · next h => exact eq_of_forall_ge_iff fun k => by rw [Nat.size_le, Nat.succ_le_iff, Nat.log2_lt h]

theorem bitlen_le_iff {d : Word W} {k : Nat} : bitlen d ≤ k ↔ d.toNat < 2 ^ k := by
  rw [bitlen_eq_size, Nat.size_le]

/-- A shift right by one takes one bit off a number that is not 0. -/
theorem size_eq_size_half_add_one {t : Nat} (h : t ≠ 0) : t.size = (t / 2).size + 1 := by
  have hbit : Nat.bit t.bodd (t / 2) = t := by rw [← Nat.div2_val, Nat.bit_bodd_div2]
  have hsize := Nat.size_bit (hbit.symm ▸ h)
  rwa [hbit] at hsize

/-- The loop adds the bit-length to its start value, given a pass for every bit (R201). -/
theorem bitLengthLoop_eq {fuel t r : Nat} (h : t < 2 ^ fuel) : bitLengthLoop fuel t r = r + t.size := by
  induction fuel generalizing t r with
  | zero =>
    obtain rfl : t = 0 := Nat.lt_one_iff.mp h
    rfl
  | succ fuel ih =>
    rw [bitLengthLoop]
    split
    · next h0 => rw [h0, Nat.size_zero, Nat.add_zero]
    · next h0 => rw [ih (Nat.div_lt_of_lt_mul (Nat.pow_succ' ▸ h)), size_eq_size_half_add_one h0]; omega

/-- With a top digit that is not 0, or a single digit, the bit-length of a magnitude is that of its top digit above
all the digits below (R202). -/
theorem mag_succ_lt_two_pow_iff (d : Nat → Word W) {m : Nat} (htop : m = 0 ∨ d m ≠ 0) (k : Nat) :
    mag W (fun i => (d i).toNat) (m + 1) < 2 ^ k ↔ m * W.bits + bitlen (d m) ≤ k := by
  have hlow := mag_lt d m
  rw [mag, Nat.mul_comm m]
  obtain hk | hk := Nat.lt_or_ge k (W.bits * m)
  · have hm : m ≠ 0 := by rintro rfl; exact Nat.not_lt_zero _ hk
    have hpos : 0 < (d m).toNat := Nat.pos_of_ne_zero fun h => htop.resolve_left hm (BitVec.eq_of_toNat_eq h)
    have hpow : 2 ^ k ≤ (d m).toNat * 2 ^ (W.bits * m) :=
      Nat.le_trans (Nat.pow_le_pow_right Nat.two_pos hk.le) (Nat.le_mul_of_pos_left _ hpos)
    exact iff_of_false (by omega) (by omega)
  · obtain ⟨j, rfl⟩ := Nat.exists_eq_add_of_le hk
    rw [Nat.add_le_add_iff_left, bitlen_le_iff, Nat.pow_add, Nat.mul_comm _ (2 ^ j),
      ← Nat.div_lt_iff_lt_mul (Nat.two_pow_pos _), Nat.add_mul_div_right _ _ (Nat.two_pow_pos _),
      Nat.div_eq_of_lt hlow, Nat.zero_add]

end Sys2Proof.Machine

namespace Sys2Proof.Machine.Block
variable {W : Width} {b : Block W}

/-- What SIZE computes bounds the magnitude, and is the least bound (R200, R202). -/
theorem operandMag_lt_two_pow_iff (hx : b.HasNumber)
    (htop : b.operandSize = 1 ∨ b.operandDigit (b.operandSize - 1) ≠ 0) (k : Nat) :
    b.operandMag < 2 ^ k ↔ (b.operandSize - 1) * W.bits + bitlen (b.operandDigit (b.operandSize - 1)) ≤ k := by
  obtain ⟨m, hm⟩ : ∃ m, b.operandSize = m + 1 := Nat.exists_eq_add_of_le' (operandSize_pos hx)
  rw [hm, Nat.add_sub_cancel] at htop
  rw [operandMag, hm, Nat.add_sub_cancel]
  exact mag_succ_lt_two_pow_iff b.operandDigit (htop.imp_left Nat.succ.inj) k

theorem size_storageKept (h : b.Inv) (hp : b.phase = .busy) : b.StorageKept (b.runCommand sizeBody) :=
  (ended_runCommand h.legal .size).storageKept_of_not_edits (h.noBuffer (by simp [hp])).wkind
    fun _ he => nomatch he.edit

end Sys2Proof.Machine.Block
end

section
/-!
The obligations about SIZE and the bit-length.
-/
namespace Sys2Proof.Machine
open Block

/-- Settles O11: an accepted operand gives the scalar of `size_scalarDone`, any other BadArgument. -/
theorem sizeResult : Obligations.SizeResult := by
  intro W b h hp
  refine ⟨fun hx hs => ⟨_, exec_pending .size b, ?_, inputsKept_runCommand b .size, size_storageKept h hp⟩,
    fun hno => ⟨_, exec_pending .size b, ?_, inputsKept_runCommand b .size, size_storageKept h hp⟩⟩
  · exact size_scalarDone h hp hx hs
  · exact (ended_runCommand h.legal .size).failedWith_of_rejected (h.noBuffer (by simp [hp])).wkind
      fun ⟨hx, _⟩ => hno hx

/-- Settles O14: RVAL is the top digit's bit-length above the digits below, which is the least bound. -/
theorem sizeIsTheLeastBound : Obligations.SizeIsTheLeastBound := by
  intro W b h hp hx hs htop
  have hdone : (b.runCommand PendingOp.size.body).ScalarDone _ := size_scalarDone h hp hx hs
  refine ⟨_, exec_pending .size b, hdone.rform, fun k => ?_⟩
  rw [operandMag_lt_two_pow_iff hx htop, hdone.rval]

/-- Settles O16: W passes are enough for a W-bit digit. -/
theorem bitLengthLoopAgrees : Obligations.BitLengthLoopAgrees := by
  intro W t r
  rw [bitLengthLoop_eq t.isLt, bitlen_eq_size]

end Sys2Proof.Machine
end

section
/-!
SUPPORT. Normalisation of a buffer of either sign (R210 to R212, R215): the result registers it sets over a block it has
only read, and the value they denote.
-/
namespace Sys2Proof.Machine.Block
variable {W : Width} {b t : Block W} {sign : Bool}

theorem ReadsOnly.phase (h : ReadsOnly b t) : t.phase = b.phase := by
  obtain ⟨n, l, rfl⟩ := h
  rfl

theorem ReadsOnly.err (h : ReadsOnly b t) : t.err = b.err := by
  obtain ⟨n, l, rfl⟩ := h
  rfl

theorem setResult_wbufDigit (b : Block W) (f : RForm) (s : Bool) (v z : Word W) (i : Nat) :
    (b.setResult f s v z).wbufDigit i = b.wbufDigit i := rfl

theorem WorkSettled.mono {m n : Nat} (h : b.WorkSettled n) (hmn : m ≤ n) : b.WorkSettled m :=
  fun hk i hi => h hk i (Nat.lt_of_lt_of_le hi hmn)

/-- One digit `d` has the form COMPACT, unless it is negative with its top bit set (R212). -/
abbrev FitsCompact (sign : Bool) (k : Nat) (d : Word W) : Prop := k = 1 ∧ (sign = true → d.msb = false)

/-- RFORM of `k` trimmed digits with lowest digit `d` (R212). -/
def trimmedForm (sign : Bool) (k : Nat) (d : Word W) : RForm := if FitsCompact sign k d then .compact else .digits

/-- RVAL of `k` trimmed digits with lowest digit `d` (R212). -/
def trimmedVal (sign : Bool) (k : Nat) (d : Word W) : Word W := if FitsCompact sign k d then d else 0

/-- R212 in one equation: cases (a) and (b) are COMPACT, (c) and (d) are DIGITS. -/
theorem formResult_eq_setResult (hs : b.WorkSettled 1) (sign : Bool) (k : Nat) :
    ∃ c, ReadsOnly b c ∧ b.formResult sign k =
      c.setResult (trimmedForm sign k (b.wbufDigit 0)) sign (trimmedVal sign k (b.wbufDigit 0))
        (BitVec.ofNat W.bits k) := by
  by_cases hk : k = 1
  · refine ⟨(b.wbufRead 0).2, readsOnly_wbufRead b 0, ?_⟩
    rw [← wbufRead_fst hs Nat.one_pos]
    cases sign with
    | false => simp [formResult, trimmedForm, trimmedVal, FitsCompact, hk]
    | true => cases hmsb : (b.wbufRead 0).1.msb <;> simp [formResult, trimmedForm, trimmedVal, FitsCompact, hk, hmsb]
  · exact ⟨b, .refl b, by simp [formResult, trimmedForm, trimmedVal, FitsCompact, hk]⟩

/-- `t` is `b` with the result registers of normalisation, the buffer as it was (R210 to R212). -/
structure NormalisesTo (b : Block W) (sign : Bool) (t : Block W) : Prop where
  phase : t.phase = b.phase
  err : t.err = b.err
  wn : t.wn = b.wn
  digits : ∀ i, t.wbufDigit i = b.wbufDigit i
  pos : 1 ≤ t.rsize.toNat
  le : t.rsize.toNat ≤ b.wn
  zeros : ∀ i, t.rsize.toNat ≤ i → i < b.wn → b.wbufDigit i = 0
  top : t.rsize.toNat = 1 ∨ b.wbufDigit (t.rsize.toNat - 1) ≠ 0
  rsign : t.rsign = sign
  rform : t.rform = trimmedForm sign t.rsize.toNat (b.wbufDigit 0)
  rval : t.rval = trimmedVal sign t.rsize.toNat (b.wbufDigit 0)

theorem normalisesTo_normalize (hs : b.WorkSettled b.wn) (hn : 1 ≤ b.wn) (hw : b.wn < 2 ^ W.bits) (sign : Bool) :
    b.NormalisesTo sign (b.normalize sign) := by
  obtain ⟨hpos, hle, hzeros, htop⟩ := trim_spec b.wn b hs hn
  have hr := trim_readsOnly b.wn b
  obtain ⟨c, hc, he⟩ := formResult_eq_setResult ((hr.workSettled hs).mono hn) sign (trim b.wn b).1
  have hbc : ReadsOnly b c := hr.trans hc
  have hsize : (BitVec.ofNat W.bits (trim b.wn b).1).toNat = (trim b.wn b).1 := by
    rw [BitVec.toNat_ofNat, Nat.mod_eq_of_lt (Nat.lt_of_le_of_lt hle hw)]
  rw [hr.wbufDigit] at he
  rw [normalize, he]
  constructor <;> simp only [setResult_phase, setResult_err, setResult_wn, setResult_wbufDigit, setResult_rsize,
    setResult_rsign, setResult_rform, setResult_rval, hsize]
  · exact hbc.phase
  · exact hbc.err
  · exact hbc.bufferOnly.wn
  · exact hbc.wbufDigit
  · exact hpos
  · exact hle
  · exact hzeros
  · exact htop

theorem NormalisesTo.compact (h : b.NormalisesTo sign t) (hfit : FitsCompact sign t.rsize.toNat (b.wbufDigit 0)) :
    t.rform = .compact ∧ t.rsign = sign ∧ t.rval = b.wbufDigit 0 :=
  ⟨h.rform.trans (if_pos hfit), h.rsign, h.rval.trans (if_pos hfit)⟩

theorem NormalisesTo.not_compact (h : b.NormalisesTo sign t)
    (hfit : ¬ FitsCompact sign t.rsize.toNat (b.wbufDigit 0)) :
    t.rform = .digits ∧ t.rsign = sign ∧ t.rval = 0 :=
  ⟨h.rform.trans (if_neg hfit), h.rsign, h.rval.trans (if_neg hfit)⟩

/-- The digits the trim drops are zeros, and a COMPACT result is the one digit left (R215). -/
theorem NormalisesTo.resultValue (h : b.NormalisesTo sign t) (hp : b.phase = .done) (he : b.err = .none) :
    t.resultValue = some (signed sign (b.wbufMag b.wn)) := by
  have htrim : b.wbufMag b.wn = b.wbufMag t.rsize.toNat :=
    mag_eq_of_zeros_above h.le fun i h1 h2 => by rw [h.zeros i h1 h2]; rfl
  have hkept : t.wbufMag t.rsize.toNat = b.wbufMag t.rsize.toNat := mag_congr fun i _ => by rw [h.digits]
  rw [Block.resultValue, if_pos ⟨h.phase.trans hp, h.err.trans he⟩, htrim]
  by_cases hfit : FitsCompact sign t.rsize.toNat (b.wbufDigit 0)
  · obtain ⟨hform, hsign, hval⟩ := h.compact hfit
    have hone : b.wbufMag 1 = (b.wbufDigit 0).toNat := by simp [wbufMag, mag]
    rw [hform, hsign, hval, hfit.1, hone]
  · obtain ⟨hform, hsign, -⟩ := h.not_compact hfit
    rw [hform, hsign, hkept]

end Sys2Proof.Machine.Block
end

section
/-!
The obligations about normalisation.
-/
namespace Sys2Proof.Machine
open Block

/-- Settles O33: what the trim leaves, and the form of R212 by the size, the sign and the digit's top bit. -/
theorem normalizeTrimsAndForms : Obligations.NormalizeTrimsAndForms := by
  intro W b sign hn hw hs
  have h := normalisesTo_normalize hs hn hw sign
  refine ⟨h.wn, h.digits, h.pos, h.le, h.zeros, h.top, ?_, ?_, ?_, ?_⟩
  · rintro hone rfl
    exact h.compact ⟨hone, nofun⟩
  · rintro hone rfl hclear
    exact h.compact ⟨hone, fun _ => hclear⟩
  · rintro - rfl hset
    exact h.not_compact fun hfit => Bool.false_ne_true ((hfit.2 rfl).symm.trans hset)
  · exact fun hmore => h.not_compact fun hfit => hmore hfit.1

/-- Settles O34: the registers `normalisesTo_normalize` gives denote the whole buffer's magnitude with its sign. -/
theorem normalizePreservesTheValue : Obligations.NormalizePreservesTheValue :=
  fun _ _ sign hp he hn hw hs => (normalisesTo_normalize hs hn hw sign).resultValue hp he

end Sys2Proof.Machine
end

section
/-!
SUPPORT. Sums over digits and lanes (R230, R232, R234): ones counted lane by lane, and the ones of a magnitude counted
digit by digit.
-/
namespace Sys2Proof.Machine
variable {W : Width}

/-- Indices counted in `k` groups of `w`. -/
theorem countP_range_mul (p : Nat → Bool) (w k : Nat) :
    (List.range (w * k)).countP p =
      ((List.range k).map fun i => (List.range w).countP fun j => p (w * i + j)).sum := by
  induction k with
  | zero => rfl
  | succ k ih => simp [Nat.mul_succ, List.range_add, List.range_succ, List.countP_map, Function.comp_def, ih]

/-- No bit at or above `m` is counted in a number below `2^m`. -/
theorem countP_testBit_range_of_lt {x m n : Nat} (hx : x < 2 ^ m) (hmn : m ≤ n) :
    (List.range n).countP x.testBit = (List.range m).countP x.testBit := by
  obtain ⟨k, rfl⟩ := Nat.exists_eq_add_of_le hmn
  have hzero : (List.range k).countP (fun j => x.testBit (m + j)) = 0 :=
    List.countP_eq_zero.mpr fun j _ => by
      rw [Nat.testBit_lt_two_pow (Nat.lt_of_lt_of_le hx (Nat.pow_le_pow_right Nat.two_pos (Nat.le_add_right m j)))]
      exact Bool.false_ne_true
  rw [List.range_add, List.countP_append, List.countP_map]
  exact congrArg _ hzero

/-- The counts of the digits add up to the ones of the magnitude (R13, R230). -/
theorem sum_popcount_eq_countP_testBit_mag (d : Nat → Word W) (k : Nat) :
    ((List.range k).map fun i => popcount (d i)).sum =
      (List.range (W.bits * k)).countP (mag W (fun i => (d i).toNat) k).testBit := by
  rw [countP_range_mul]
  refine congrArg _ (List.map_congr_left fun i hi => List.countP_congr fun j hj => ?_)
  have hdiv : (W.bits * i + j) / W.bits = i := by
    rw [Nat.mul_add_div W.bits_pos, Nat.div_eq_of_lt (List.mem_range.mp hj), Nat.add_zero]
  have hmod : (W.bits * i + j) % W.bits = j := by rw [Nat.mul_add_mod, Nat.mod_eq_of_lt (List.mem_range.mp hj)]
  rw [testBit_mag, hdiv, hmod, decide_eq_true (List.mem_range.mp hi), Bool.true_and]

/-- The top digit's bit-length above the digits below bounds the magnitude, its top digit 0 or not (R202). -/
theorem mag_succ_lt_two_pow (d : Nat → Word W) (m : Nat) :
    mag W (fun i => (d i).toNat) (m + 1) < 2 ^ (m * W.bits + bitlen (d m)) := by
  by_cases htop : d m = 0
  · simpa [mag, htop, bitlen, Nat.mul_comm m] using mag_lt d m
  · exact (mag_succ_lt_two_pow_iff d (.inr htop) _).mpr (Nat.le_refl _)

end Sys2Proof.Machine

namespace Sys2Proof.Machine.Block
variable {W : Width} {b : Block W}

/-- What SIZE computes bounds the magnitude of any accepted operand (R200). -/
theorem operandMag_lt_two_pow_bitLength (hx : b.HasNumber) :
    b.operandMag < 2 ^ ((b.operandSize - 1) * W.bits + bitlen (b.operandDigit (b.operandSize - 1))) := by
  obtain ⟨m, hm⟩ : ∃ m, b.operandSize = m + 1 := Nat.exists_eq_add_of_le' (operandSize_pos hx)
  rw [operandMag, hm]
  exact mag_succ_lt_two_pow b.operandDigit m

/-- What SIZE computes is no more than the bits of all digits. -/
theorem bitLength_le (hx : b.HasNumber) :
    (b.operandSize - 1) * W.bits + bitlen (b.operandDigit (b.operandSize - 1)) ≤ W.bits * b.operandSize := by
  obtain ⟨m, hm⟩ : ∃ m, b.operandSize = m + 1 := Nat.exists_eq_add_of_le' (operandSize_pos hx)
  rw [hm, Nat.add_sub_cancel, Nat.mul_succ, Nat.mul_comm W.bits]
  exact Nat.add_le_add_left (bitlen_le _) _

/-- The ones of the operand all lie below its bit-length (R234). -/
theorem sum_popcount_eq_countP_below_bitLength (hx : b.HasNumber) :
    ((List.range b.operandSize).map fun i => popcount (b.operandDigit i)).sum =
      (List.range ((b.operandSize - 1) * W.bits + bitlen (b.operandDigit (b.operandSize - 1)))).countP
        b.operandMag.testBit := by
  rw [sum_popcount_eq_countP_testBit_mag]
  exact countP_testBit_range_of_lt (operandMag_lt_two_pow_bitLength hx) (bitLength_le hx)

theorem count_storageKept (h : b.Inv) (hp : b.phase = .busy) : b.StorageKept (b.runCommand countBody) :=
  (ended_runCommand h.legal .count).storageKept_of_not_edits (h.noBuffer (by simp [hp])).wkind
    fun _ he => nomatch he.edit

/-- The block with a VALUE index in operand N (R31, R40). -/
abbrev withIndex (b : Block W) (n : Nat) : Block W := { b with ndesc := 1, nval := BitVec.ofNat W.bits n }

/-- The invariant says nothing of operand N. -/
theorem Inv.withIndex (h : b.Inv) (n : Nat) : (b.withIndex n).Inv :=
  h.of_heldKept ⟨rfl, rfl, rfl, rfl, rfl, rfl, rfl, rfl, rfl, rfl, rfl, fun _ _ => rfl⟩
    ⟨h.legal, h.mem, h.liveDisjoint, h.liveBounds⟩ h.work h.guard fun _ => rfl

/-- TEST of index `n` gives 1 for the ones of the magnitude (R171). -/
theorem test_withIndex_rval_eq_one_iff (h : b.Inv) (hp : b.phase = .busy) (hx : b.HasNumber) (hs : b.Settled)
    (hneg : ¬ b.Negative) {n : Nat} (hn : n < 2 ^ W.bits) :
    ((b.withIndex n).runCommand testBody).rval = 1 ↔ b.operandMag.testBit n := by
  have hdone := test_scalarDone_testBit (h.withIndex n) hp ⟨hx, hneg, rfl⟩ hs
  have hbit : ((b.withIndex n).runCommand testBody).rval.toNat = (b.operandMag.testBit n).toNat := by
    have hnval : (b.withIndex n).nval.toNat = n := (BitVec.toNat_ofNat n W.bits).trans (Nat.mod_eq_of_lt hn)
    rw [hdone.rval, hnval]
    rfl
  have hone : (1 : Word W).toNat = 1 := by cases W <;> rfl
  rw [← BitVec.toNat_inj, hbit, hone, Bool.toNat_eq_one]

end Sys2Proof.Machine.Block
end

section
/-!
SUPPORT. The word-parallel count (R232, R233): a word as 4-bit lanes, on which the steps of the reduction act lane by
lane because none of them carries or borrows, and as byte lanes, which the remainder modulo 255 adds up.
-/
namespace Sys2Proof.Machine
variable {W : Width}

/-! ### Lanes of numbers, with no carry and no borrow -/

theorem shiftRight_four_mul_succ (x k : Nat) : x >>> (4 * (k + 1)) = x >>> (4 * k) / 16 := by
  rw [Nat.mul_succ, Nat.shiftRight_add, Nat.shiftRight_eq_div_pow _ 4]

theorem add_shiftRight_of_noCarry {x y k : Nat}
    (h : ∀ i, i < k → x >>> (4 * i) % 16 + y >>> (4 * i) % 16 < 16) :
    (x + y) >>> (4 * k) = x >>> (4 * k) + y >>> (4 * k) := by
  induction k with
  | zero => rfl
  | succ k ih =>
    have hk := h k (Nat.lt_succ_self k)
    simp only [shiftRight_four_mul_succ, ih fun i hi => h i (Nat.lt_succ_of_lt hi)]
    omega

theorem sub_shiftRight_of_noBorrow {x y k : Nat} (h : ∀ i, i < k → y >>> (4 * i) % 16 ≤ x >>> (4 * i) % 16) :
    (x - y) >>> (4 * k) = x >>> (4 * k) - y >>> (4 * k) := by
  induction k with
  | zero => rfl
  | succ k ih =>
    have hk := h k (Nat.lt_succ_self k)
    simp only [shiftRight_four_mul_succ, ih fun i hi => h i (Nat.lt_succ_of_lt hi)]
    omega

theorem le_of_lanes_le {x y k : Nat} (h : ∀ i, i < k → y >>> (4 * i) % 16 ≤ x >>> (4 * i) % 16)
    (htop : y >>> (4 * k) ≤ x >>> (4 * k)) : y ≤ x := by
  induction k with
  | zero => exact htop
  | succ k ih =>
    have hk := h k (Nat.lt_succ_self k)
    rw [shiftRight_four_mul_succ, shiftRight_four_mul_succ] at htop
    exact ih (fun i hi => h i (Nat.lt_succ_of_lt hi)) (by omega)

/-- 256 is 1 modulo 255, so a number is the sum of its bytes (R232). -/
theorem mod_pow_modEq_sum_bytes (x k : Nat) :
    x % 256 ^ k ≡ ((List.range k).map fun j => x / 256 ^ j % 256).sum [MOD 255] := by
  induction k with
  | zero => rw [Nat.pow_zero, Nat.mod_one]; rfl
  | succ k ih =>
    have hone : 256 ^ k ≡ 1 [MOD 255] := by simpa using Nat.ModEq.pow k (show 256 ≡ 1 [MOD 255] from rfl)
    rw [Nat.mod_pow_succ, List.range_succ, List.map_append, List.sum_append, List.map_singleton, List.sum_singleton]
    exact ih.add (by simpa using hone.mul_right (x / 256 ^ k % 256))

/-! ### The 4-bit lanes of a word -/

/-- The 4-bit lane `j` of a word. -/
abbrev nibble (d : Word W) (j : Nat) : BitVec 4 := d.extractLsb' (4 * j) 4

theorem nibble_toNat (d : Word W) (j : Nat) : (nibble d j).toNat = d.toNat >>> (4 * j) % 16 := rfl

theorem four_mul_lanes (W : Width) : 4 * (W.bits / 4) = W.bits := by cases W <;> rfl

/-- Nothing of a word lies above its lanes. -/
theorem shiftRight_four_mul_lanes (d : Word W) : d.toNat >>> (4 * (W.bits / 4)) = 0 := by
  rw [four_mul_lanes, Nat.shiftRight_eq_div_pow, Nat.div_eq_of_lt d.isLt]

/-- Subtraction goes lane by lane where no lane borrows. -/
theorem nibble_sub {x y : Word W} (h : ∀ j, nibble y j ≤ nibble x j) (j : Nat) :
    nibble (x - y) j = nibble x j - nibble y j := by
  have hle : y ≤ x := le_of_lanes_le (fun i _ => h i) (by rw [shiftRight_four_mul_lanes y]; exact Nat.zero_le _)
  have hshift : (x.toNat - y.toNat) >>> (4 * j) = x.toNat >>> (4 * j) - y.toNat >>> (4 * j) :=
    sub_shiftRight_of_noBorrow fun i _ => h i
  have htotal : y.toNat >>> (4 * j) ≤ x.toNat >>> (4 * j) := by
    rw [Nat.shiftRight_eq_div_pow, Nat.shiftRight_eq_div_pow]
    exact Nat.div_le_div_right hle
  have hj : y.toNat >>> (4 * j) % 16 ≤ x.toNat >>> (4 * j) % 16 := h j
  apply BitVec.eq_of_toNat_eq
  rw [BitVec.toNat_sub_of_le (h j), nibble_toNat, nibble_toNat, nibble_toNat, BitVec.toNat_sub_of_le hle, hshift]
  omega

/-- Addition goes lane by lane where no lane carries. -/
theorem nibble_add_toNat {x y : Word W} (h : ∀ j, (nibble x j).toNat + (nibble y j).toNat < 16) (j : Nat) :
    (nibble (x + y) j).toNat = (nibble x j).toNat + (nibble y j).toNat := by
  have hshift (k : Nat) : (x.toNat + y.toNat) >>> (4 * k) = x.toNat >>> (4 * k) + y.toNat >>> (4 * k) :=
    add_shiftRight_of_noCarry fun i _ => h i
  have hlt : x.toNat + y.toNat < 2 ^ W.bits := by
    have htop := hshift (W.bits / 4)
    rw [shiftRight_four_mul_lanes, shiftRight_four_mul_lanes, four_mul_lanes, Nat.shiftRight_eq_div_pow] at htop
    exact Nat.lt_of_div_eq_zero (Nat.two_pow_pos _) htop
  have hj := h j
  simp only [nibble_toNat] at hj ⊢
  rw [BitVec.toNat_add_of_lt hlt, hshift, Nat.add_mod, Nat.mod_eq_of_lt hj]

/-- Bit `k` of M7 is clear at the top of each 4-bit lane (R233). -/
theorem getLsbD_swarM7 {k : Nat} (hk : k < W.bits) : (swarM7 W).getLsbD k = decide (k % 4 ≠ 3) := by
  revert k
  cases W <;> decide

/-- MF keeps the lower 4-bit lane of each byte (R233). -/
theorem getLsbD_swarMF {k : Nat} (hk : k < W.bits) : (swarMF W).getLsbD k = decide (k % 8 < 4) := by
  revert k
  cases W <;> decide

/-- A shift of the word by one, masked with M7, shifts each lane by one. -/
theorem nibble_shift_and_swarM7 (x : Word W) (j : Nat) :
    nibble ((x >>> 1) &&& swarM7 W) j = nibble x j >>> 1 := by
  refine BitVec.eq_of_getLsbD_eq fun i hi => ?_
  simp only [nibble, BitVec.getLsbD_extractLsb', BitVec.getLsbD_and, BitVec.getLsbD_ushiftRight, hi, decide_true,
    Bool.true_and]
  have hnext : 4 * j + (1 + i) = 1 + (4 * j + i) := by omega
  have hlane : (4 * j + i) % 4 ≠ 3 ↔ 1 + i < 4 := by omega
  rw [hnext]
  by_cases hk : 4 * j + i < W.bits
  · simp only [getLsbD_swarM7 hk, hlane, Bool.and_comm]
  · rw [BitVec.getLsbD_of_ge x _ (by omega), Bool.false_and, Bool.and_false]

theorem nibble_ushiftRight_four (x : Word W) (j : Nat) : nibble (x >>> 4) j = nibble x (j + 1) := by
  refine BitVec.eq_of_getLsbD_eq fun i hi => ?_
  have hnext : 4 + (4 * j + i) = 4 * (j + 1) + i := by omega
  simp only [nibble, BitVec.getLsbD_extractLsb', BitVec.getLsbD_ushiftRight, hnext]

/-! ### The steps of the reduction -/

/-- The three subtractions of R232 in one lane. -/
def laneCount (a : BitVec 4) : BitVec 4 := a - a >>> 1 - a >>> 1 >>> 1 - a >>> 1 >>> 1 >>> 1

theorem laneCount_toNat : ∀ a : BitVec 4, (laneCount a).toNat = (List.range 4).countP a.getLsbD := by decide

/-- No subtraction borrows from the lane above. -/
theorem lane_noBorrow : ∀ a : BitVec 4,
    a >>> 1 ≤ a ∧ a >>> 1 >>> 1 ≤ a - a >>> 1 ∧ a >>> 1 >>> 1 >>> 1 ≤ a - a >>> 1 - a >>> 1 >>> 1 := by decide

theorem nibble_swarNibbles (d : Word W) (j : Nat) : nibble (swarNibbles d) j = laneCount (nibble d j) := by
  have h1 (i : Nat) := nibble_shift_and_swarM7 d i
  generalize hn1 : (d >>> 1) &&& swarM7 W = n1 at h1
  have h2 (i : Nat) := (nibble_shift_and_swarM7 n1 i).trans (by rw [h1])
  generalize hn2 : (n1 >>> 1) &&& swarM7 W = n2 at h2
  have h3 (i : Nat) := (nibble_shift_and_swarM7 n2 i).trans (by rw [h2])
  generalize hn3 : (n2 >>> 1) &&& swarM7 W = n3 at h3
  have hs1 := nibble_sub (x := d) (y := n1) fun i => by rw [h1]; exact (lane_noBorrow _).1
  have hs2 := nibble_sub (x := d - n1) (y := n2) fun i => by rw [hs1, h1, h2]; exact (lane_noBorrow _).2.1
  have hs3 := nibble_sub (x := d - n1 - n2) (y := n3) fun i => by
    rw [hs2, hs1, h1, h2, h3]; exact (lane_noBorrow _).2.2
  have hsteps : swarNibbles d = d - n1 - n2 - n3 := by rw [swarNibbles, hn1, hn2, hn3]
  rw [hsteps, hs3, hs2, hs1, h1, h2, h3, laneCount]

/-- Each 4-bit lane holds the count of its own bits (R232). -/
theorem nibble_swarNibbles_toNat (d : Word W) (j : Nat) :
    (nibble (swarNibbles d) j).toNat = (List.range 4).countP fun i => d.getLsbD (4 * j + i) := by
  rw [nibble_swarNibbles, laneCount_toNat]
  refine List.countP_congr fun i hi => ?_
  rw [BitVec.getLsbD_extractLsb', decide_eq_true (List.mem_range.mp hi), Bool.true_and]

/-- Masked with MF, a byte is its lower 4-bit lane. -/
theorem byte_and_swarMF_toNat (x : Word W) (j : Nat) :
    ((x &&& swarMF W).extractLsb' (8 * j) 8).toNat = (nibble x (2 * j)).toNat := by
  have hlane : (x &&& swarMF W).extractLsb' (8 * j) 8 = (nibble x (2 * j)).setWidth 8 := by
    refine BitVec.eq_of_getLsbD_eq fun i hi => ?_
    simp only [nibble, BitVec.getLsbD_setWidth, BitVec.getLsbD_extractLsb', BitVec.getLsbD_and, hi, decide_true,
      Bool.true_and]
    have hpos : 4 * (2 * j) + i = 8 * j + i := by omega
    have hlow : (8 * j + i) % 8 < 4 ↔ i < 4 := by omega
    rw [hpos]
    by_cases hk : 8 * j + i < W.bits
    · simp only [getLsbD_swarMF hk, hlow, Bool.and_comm]
    · rw [BitVec.getLsbD_of_ge x _ (by omega), Bool.false_and, Bool.and_false]
  rw [hlane, BitVec.toNat_setWidth_of_le (by decide)]

/-- Each byte lane holds the count of its own bits (R232). -/
theorem byte_swarBytes_toNat (d : Word W) (j : Nat) :
    ((swarBytes (swarNibbles d)).extractLsb' (8 * j) 8).toNat =
      (List.range 8).countP fun i => d.getLsbD (8 * j + i) := by
  have hle (i : Nat) : (nibble (swarNibbles d) i).toNat ≤ 4 := by
    rw [nibble_swarNibbles_toNat]
    exact List.countP_le_length
  have hsum := nibble_add_toNat (x := swarNibbles d) (y := swarNibbles d >>> 4) (fun i => by
    have h1 := hle i
    have h2 := hle (i + 1)
    rw [nibble_ushiftRight_four]
    omega) (2 * j)
  have hsplit := countP_range_mul (fun i => d.getLsbD (8 * j + i)) 4 2
  rw [swarBytes, byte_and_swarMF_toNat, hsum, nibble_ushiftRight_four, nibble_swarNibbles_toNat,
    nibble_swarNibbles_toNat]
  refine Eq.trans ?_ hsplit.symm
  have hlow (i : Nat) : 4 * (2 * j) + i = 8 * j + (4 * 0 + i) := by omega
  have hhigh (i : Nat) : 4 * (2 * j + 1) + i = 8 * j + (4 * 1 + i) := by omega
  simp only [hlow, hhigh]
  rfl

theorem bits_lt_255 (W : Width) : W.bits < 255 := by cases W <;> decide

/-- A word of `W` bits is `W / 8` bytes. -/
theorem toNat_lt_256_pow_bytes (x : Word W) : x.toNat < 256 ^ W.bytes := by cases W <;> exact BitVec.isLt x

/-- The bytes of a word, each the count of its bits in `d`, leave the population count modulo 255 (R232). -/
theorem swarCount_eq_popcount (d : Word W) : swarCount d = popcount d := by
  have hbytes : ((List.range W.bytes).map fun j => (swarBytes (swarNibbles d)).toNat / 256 ^ j % 256).sum =
      popcount d := by
    have hgroups := countP_range_mul d.getLsbD 8 W.bytes
    rw [← W.bits_eq] at hgroups
    refine Eq.trans (congrArg _ (List.map_congr_left fun j _ => ?_)) hgroups.symm
    rw [← byte_swarBytes_toNat, BitVec.extractLsb'_toNat, Nat.shiftRight_eq_div_pow, Nat.pow_mul]
  have hword : (swarBytes (swarNibbles d)).toNat % 256 ^ W.bytes = (swarBytes (swarNibbles d)).toNat :=
    Nat.mod_eq_of_lt (toNat_lt_256_pow_bytes _)
  have hmod := mod_pow_modEq_sum_bytes (swarBytes (swarNibbles d)).toNat W.bytes
  have hsmall : popcount d < 255 := Nat.lt_of_le_of_lt (Block.popcount_le d) (bits_lt_255 W)
  rw [hbytes, hword] at hmod
  rw [swarCount, hmod, Nat.mod_eq_of_lt hsmall]

end Sys2Proof.Machine
end

section
/-!
The obligations about COUNT.
-/
namespace Sys2Proof.Machine
open Block

/-- Settles O13: an accepted operand gives the scalar of `count_scalarDone`, any other BadArgument. -/
theorem countResult : Obligations.CountResult := by
  intro W b h hp
  refine ⟨fun hx hs => ⟨_, exec_pending .count b, ?_, inputsKept_runCommand b .count, count_storageKept h hp⟩,
    fun hno => ⟨_, exec_pending .count b, ?_, inputsKept_runCommand b .count, count_storageKept h hp⟩⟩
  · exact count_scalarDone h hp hx hs
  · exact (ended_runCommand h.legal .count).failedWith_of_rejected (h.noBuffer (by simp [hp])).wkind
      fun ⟨hx, _⟩ => hno hx

/-- Settles O15: COUNT and TEST speak of the ones of one magnitude, and SIZE bounds it. -/
theorem countIsTheNumberOfTestedOnes : Obligations.CountIsTheNumberOfTestedOnes := by
  intro W b h hp hx hs hneg
  have hcount := count_scalarDone h hp hx hs
  have hsize := size_scalarDone h hp hx hs
  refine ⟨b.runCommand countBody, b.runCommand sizeBody, fun n => (b.withIndex n).runCommand testBody,
    exec_pending .count b, exec_pending .size b, fun n _ => exec_pending .test (b.withIndex n), ?_⟩
  rw [hcount.rval, sum_popcount_eq_countP_below_bitLength hx, ← hsize.rval]
  refine List.countP_congr fun n hn => ?_
  have hlt : n < 2 ^ W.bits := Nat.lt_trans (List.mem_range.mp hn) (BitVec.isLt _)
  rw [decide_eq_true_iff, test_withIndex_rval_eq_one_iff h hp hx hs hneg hlt]

/-- Settles O17: lane by lane, then byte by byte, then modulo 255. -/
theorem wordParallelCountAgrees : Obligations.WordParallelCountAgrees :=
  fun _ d => ⟨fun j _ => nibble_swarNibbles_toNat d j, fun j _ => byte_swarBytes_toNat d j, swarCount_eq_popcount d⟩

end Sys2Proof.Machine
end

section
/-!
SUPPORT. The CMD write case by case (R250), the turns of the core (R252), and a command word placed for the next
step (A8).
-/
namespace Sys2Proof.Machine
open Block

theorem Block.setAgenda_eq_self {W : Width} {b : Block W} {l : List (Move W)} (h : b.agenda = l) :
    b.setAgenda l = b := by
  subst h
  rfl

variable {W : Width} {b : Block W} {v : Word W} {rest : List (Move W)}

/-! ### The CMD write -/

/-- Outside BUSY a CMD write of an illegal word reports it (R260). -/
theorem hostWriteReg_cmd_illegal (hp : b.phase ≠ .busy) {r : DecodeReject} (hd : decode v = .illegal r) :
    hostWriteReg b .cmd v = .next ⟨W, b.illegalCommand⟩ := by
  simp only [hostWriteReg, hostWriteCmd, if_neg hp, hd]

/-- Outside BUSY a CMD write of RELEASE runs it at once (R254). -/
theorem hostWriteReg_cmd_release (hp : b.phase ≠ .busy) (hd : decode v = .command .release) :
    hostWriteReg b .cmd v = exec .release ⟨W, b⟩ := by
  simp only [hostWriteReg, hostWriteCmd, if_neg hp, hd, pendingOf]

/-- Outside BUSY a CMD write of one of the six operations makes it pending (R250). -/
theorem hostWriteReg_cmd_pending (hp : b.phase ≠ .busy) {op : PendingOp} (hd : decode v = .command op.instr) :
    hostWriteReg b .cmd v = .next ⟨W, b.acceptCommand op⟩ := by
  simp only [hostWriteReg, hostWriteCmd, if_neg hp, hd, pendingOf_instr]

section
variable (ha : b.agenda = .host (.wr b.params .cmd v) :: rest)
include ha

theorem step_cmd_illegal (hp : b.phase ≠ .busy) {r : DecodeReject} (hd : decode v = .illegal r) :
    step ⟨W, b⟩ = .next ⟨W, (b.setAgenda rest).illegalCommand⟩ :=
  (step_wr ha).trans (hostWriteReg_cmd_illegal (b := b.setAgenda rest) hp hd)

theorem step_cmd_release (hp : b.phase ≠ .busy) (hd : decode v = .command .release) :
    step ⟨W, b⟩ = exec .release ⟨W, b.setAgenda rest⟩ :=
  (step_wr ha).trans (hostWriteReg_cmd_release (b := b.setAgenda rest) hp hd)

theorem step_cmd_pending (hp : b.phase ≠ .busy) {op : PendingOp} (hd : decode v = .command op.instr) :
    step ⟨W, b⟩ = .next ⟨W, (b.setAgenda rest).acceptCommand op⟩ :=
  (step_wr ha).trans (hostWriteReg_cmd_pending (b := b.setAgenda rest) hp hd)

end

/-! ### The core's turn -/

/-- With no move left the core moves (A7). -/
theorem step_nil (ha : b.agenda = []) : step ⟨W, b⟩ = coreTurn b := by simp only [step, ha]

theorem step_core (ha : b.agenda = .core :: rest) : step ⟨W, b⟩ = coreTurn (b.setAgenda rest) := by
  simp only [step, ha]

/-- While BUSY a WAIT is the core's turn, and stays on the agenda (R97, A13). -/
theorem step_wait_busy (ha : b.agenda = .host .wait :: rest) (hp : b.phase = .busy) : step ⟨W, b⟩ = coreTurn b := by
  have hkept : (b.setAgenda rest).setAgenda (.host .wait :: rest) = b := setAgenda_eq_self ha
  have hbusy : (b.setAgenda rest).phase = .busy := hp
  simp only [step, ha, hostTurn, if_pos hbusy]
  exact congrArg coreTurn hkept

/-- However its body ends, a command ends in DONE (R252). -/
theorem Block.runCommand_phase (b : Block W) (body : Block W → Res W Unit) : (b.runCommand body).phase = .done := by
  unfold runCommand
  split <;> rfl

/-- At any parameters a command whose operands are rejected fails (R281). -/
theorem Block.failedWith_of_rejected {op : PendingOp} (hk : b.wkind = .none) (h : ¬ b.Accepted op) :
    (b.runCommand op.body).FailedWith .badArgument := by
  rw [runCommand_rejected h]
  exact (fail_end (.inr rfl) hk _).1

/-! ### A placed command word -/

theorem decodeTableWord_opcode (i : Instr) : decodeTableWord 32 (opcode i) = some i := by
  have hlt : opcode i < 2 ^ 32 := Nat.lt_trans (opcode_lt i) (by decide)
  rw [decodeTableWord, Nat.mod_eq_of_lt hlt, decodeBits_eq_command_iff.mpr rfl, Decoded.instr?]

/-- The word of one of the six operations is placed as accepted, the core to move next (A8). -/
theorem withFetchWord_pending (b : Block W) (op : PendingOp) :
    (⟨W, b⟩ : State).withFetchWord 32 (opcode op.instr) =
      ⟨W, (b.acceptCommand op).setAgenda (.core :: b.agenda)⟩ := by
  simp only [State.withFetchWord, decodeTableWord_opcode, Option.bind_some, pendingOf_instr]

/-- The word of RELEASE is placed as its CMD write (A8). -/
theorem withFetchWord_release (hp : b.phase ≠ .busy) :
    (⟨W, b⟩ : State).withFetchWord 32 (opcode .release) =
      ⟨W, b.setAgenda (.host (.wr b.params .cmd (encode W .release)) :: b.agenda)⟩ := by
  simp only [State.withFetchWord, decodeTableWord_opcode, Option.bind_some, pendingOf, if_neg hp]
  rfl

end Sys2Proof.Machine
end

section
/-!
SUPPORT. What the end of a result leaves (R146, R253), and how a held result is read while it lasts (R261).
-/
namespace Sys2Proof.Machine.Block
variable {W : Width} {b t : Block W}

/-- The result `b` held has ended in `t`: no result and no buffer, a heap buffer freed once, memory and INL as they
were (R146, R253). -/
structure ResultEnded (b t : Block W) : Prop where
  noBuffer : t.NoBuffer
  cleared : t.ResultCleared
  mem : t.mem = b.mem
  inl : t.inl = b.inl
  acqd : t.acqd = b.acqd
  trace : t.trace = b.trace ++ if b.wkind = .heap then [.free b.hbase] else []

/-- ReleaseResult ends the result, whatever state the block goes to then (R253). -/
theorem resultEnded_releaseResult (b : Block W) {phase : Phase} {err : ErrCode} {op : PendingOp}
    {guarded : Option Region} {decoded : Option Int} :
    ResultEnded b { b.releaseResult with
      phase := phase, err := err, pendingOp := op, guarded := guarded, decoded := decoded } := by
  have htrace := releaseResult_trace b
  obtain ⟨_, _, _, -, heq⟩ := releaseResult_eq b
  rw [heq] at htrace ⊢
  exact ⟨⟨rfl, rfl, rfl⟩, ⟨rfl, rfl, rfl, rfl⟩, rfl, rfl, rfl, htrace⟩

theorem NoBuffer.rbaseWord (h : t.NoBuffer) : t.rbaseWord = 0 := t.rbaseWord_of_not_heap (by simp [h.wkind])

/-- With nothing held there is nothing to release. -/
theorem releaseResult_eq_self (he : b.err = .none) (hc : b.ResultCleared) (hn : b.NoBuffer) : b.releaseResult = b := by
  obtain ⟨hform, hsign, hval, hsize⟩ := hc
  obtain ⟨hkind, hbase, hwn⟩ := hn
  have hcleared : b.releaseResult = { b with
      wkind := .none, hbase := 0, wn := 0, err := .none, rform := .none, rsign := false, rval := 0, rsize := 0 } := by
    simp only [releaseResult, releaseBuffer, hkind]
    rfl
  rw [hcleared]
  cases b
  simp_all only

/-! ### A result that is kept -/

/-- The operand registers, the allocator's side and what the model keeps for itself have no part in a held result. -/
theorem heldKept_update (b : Block W) {xdesc : BitVec 3} {ndesc : BitVec 2} {xsize xbase ximm nval rsel v : Word W}
    {live : List Region} {released : List Nat} {log : List PortAccess} {draws : Nat} {guarded : Option Region} :
    HeldKept b { b with
      xdesc := xdesc, xsize := xsize, xbase := xbase, ximm := ximm, ndesc := ndesc, nval := nval, rsel := rsel
      live := live, released := released, portLog := log, draws := draws, busData := v, guarded := guarded } :=
  ⟨rfl, rfl, rfl, rfl, rfl, rfl, rfl, rfl, rfl, rfl, rfl, fun _ _ => rfl⟩

theorem heldKept_writeReg (b : Block W) (r : Reg) (v : Word W) : HeldKept b (b.writeReg r v) := by
  cases r <;> exact heldKept_update b

/-- A host read of a digit may take a free value (A6). -/
theorem heldKept_fetchDigit (b : Block W) (a : Nat) (v : Word W) : HeldKept b ((b.fetchDigit a).2.setBusData v) := by
  obtain ⟨_, _, hread⟩ := readsOnly_fetchDigit b a
  rw [hread]
  exact heldKept_update b

/-- The encoder builds the same value from a result that is kept (R261). -/
theorem HeldKept.resultValue (h : HeldKept b t) (hi : b.Inv) : t.resultValue = b.resultValue := by
  have hdigits : b.rform = .digits → t.wbufMag b.rsize.toNat = b.wbufMag b.rsize.toNat := fun hf =>
    mag_congr fun i hlt => congrArg BitVec.toNat (h.digits i (Nat.lt_of_lt_of_le hlt (hi.of_heldDigits (.inr hf)).2))
  simp only [Block.resultValue, h.phase, h.err, h.rform, h.rval, h.rsign, h.rsize, h.decoded]
  cases hf : b.rform with
  | digits => simp only [hdigits hf]
  | _ => rfl

/-- STATUS, RVAL, RSIZE and RBASE read as before while a result is kept (R24, R34, R35, R51). -/
theorem HeldKept.readReg (h : HeldKept b t) {r : Reg} (hr : r ∈ [Reg.status, .rval, .rsize, .rbase]) :
    t.readReg r = b.readReg r := by
  simp only [List.mem_cons, List.not_mem_nil, or_false] at hr
  obtain rfl | rfl | rfl | rfl := hr
  · exact statusWord_congr h.phase h.err h.rform h.rsign h.wkind
  · exact h.rval
  · exact h.rsize
  · simp only [Block.readReg, rbaseWord, h.wkind, h.hbase]

end Sys2Proof.Machine.Block

namespace Sys2Proof.Machine
open Block

/-- What STATUS.ERR shows after a CMD write of a decoded word, until a command ends (R250, R260). -/
def errOfWord : Decoded → ErrCode
  | .illegal _ => .illegalCommand
  | .command _ => .none

/-- Whatever word it carries, a CMD write outside BUSY ends the result (R253). -/
theorem step_cmd_endsResult {W : Width} {b : Block W} {v : Word W} {rest : List (Move W)}
    (ha : b.agenda = .host (.wr b.params .cmd v) :: rest) (hp : b.phase ≠ .busy) :
    ∃ t : Block W, step ⟨W, b⟩ = .next ⟨W, t⟩ ∧ ResultEnded (b.setAgenda rest) t ∧ t.err = errOfWord (decode v) := by
  cases hd : decode v with
  | illegal r => exact ⟨_, step_cmd_illegal ha hp hd, resultEnded_releaseResult _, rfl⟩
  | command i =>
    obtain rfl | ⟨op, rfl⟩ := instr_cases i
    · exact ⟨_, step_cmd_release ha hp hd, resultEnded_releaseResult _, rfl⟩
    · exact ⟨_, step_cmd_pending ha hp hd, resultEnded_releaseResult _, rfl⟩

/-- Outside BUSY only a CMD write and a reset end a held result (R323, R324). -/
theorem Turn.heldKept {W : Width} {b t : Block W} {m : Move W} (ht : Turn b m t) (hp : b.phase ≠ .busy)
    (hw : ∀ v, m ≠ .host (.wr b.params .cmd v)) (hr : m ≠ .host .reset) : HeldKept b t := by
  have hcmd {addr size : Nat} {v : Word W} (hm : m = .host (.busWrite addr size v)) :
      busTarget W b.params addr size ≠ .reg .cmd := fun htarget => by
    obtain ⟨rfl, rfl⟩ := (busTarget_iff W b.params addr size .cmd).mp htarget
    exact hw v hm
  cases ht with
  | coreRuns hbusy => exact absurd hbusy hp
  | waitRuns hbusy => exact absurd hbusy hp
  | writeReg r _ _ _ => exact heldKept_writeReg b r _
  | illegalWord htarget _ => exact absurd htarget (hcmd rfl)
  | release htarget _ => exact absurd htarget (hcmd rfl)
  | accept op htarget _ => exact absurd htarget (hcmd rfl)
  | memWrite ha => exact heldKept_putDigit (hostMayNotWrite_eq_false ha).2 _
  | memRead => exact heldKept_fetchDigit b _ _
  | reset => exact absurd rfl hr
  | _ => exact heldKept_update b

end Sys2Proof.Machine
end

section
/-!
SUPPORT. A BUSY block and the well-behaved moves: a step on one ends BUSY or uses it up (R257).
-/
namespace Sys2Proof.Machine
open Block
variable {W : Width} {b : Block W}

/-- A step that ends BUSY, or uses up the first of the moves with the parameters as they were. -/
def EndsBusyOrAdvances (b : Block W) (rest : List (Move W)) : Prop :=
  ∃ t : Block W, step ⟨W, b⟩ = .next ⟨W, t⟩ ∧ (t.phase ≠ .busy ∨ t.agenda = rest ∧ t.params = b.params)

theorem coreTurn_endsBusy (hp : b.phase = .busy) : ∃ t, coreTurn b = .next ⟨W, t⟩ ∧ t.phase ≠ .busy :=
  ⟨_, coreTurn_busy hp, by simp [runCommand_phase]⟩

/-- A polite bus access reaches a whole register (R20). -/
theorem polite_busWrite {p : Params} {addr size : Nat} {v : Word W}
    (h : Move.polite p (.host (.busWrite addr size v)) = true) : ∃ r, busTarget W p addr size = .reg r := by
  cases ht : busTarget W p addr size with
  | reg r => exact ⟨r, rfl⟩
  | _ => simp [Move.polite, ht] at h

theorem polite_busRead {p : Params} {addr size : Nat}
    (h : Move.polite (W := W) p (.host (.busRead addr size)) = true) : ∃ r, busTarget W p addr size = .reg r := by
  cases ht : busTarget W p addr size with
  | reg r => exact ⟨r, rfl⟩
  | _ => simp [Move.polite, ht] at h

/-- While BUSY the core's turn and a reset end it; a register access is used up with BUSY as it was. -/
theorem step_polite_busy (hp : b.phase = .busy) {m : Move W} {rest : List (Move W)} (ha : b.agenda = m :: rest)
    (hm : m.polite b.params = true) : EndsBusyOrAdvances b rest := by
  cases m with
  | core =>
    obtain ⟨t, ht, hend⟩ := coreTurn_endsBusy (b := b.setAgenda rest) hp
    exact ⟨t, (step_core ha).trans ht, .inl hend⟩
  | host m =>
    cases m with
    | wait =>
      obtain ⟨t, ht, hend⟩ := coreTurn_endsBusy hp
      exact ⟨t, (step_wait_busy ha hp).trans ht, .inl hend⟩
    | reset => exact ⟨(b.setAgenda rest).hostReset, by simp only [step, ha, hostTurn], .inl nofun⟩
    | busWrite addr size v =>
      obtain ⟨r, hr⟩ := polite_busWrite hm
      refine ⟨b.setAgenda rest, ?_, .inr ⟨rfl, rfl⟩⟩
      simp only [step, ha, hostTurn, setAgenda_params, hr]
      exact hostWriteReg_busy (b := b.setAgenda rest) hp r v
    | busRead addr size =>
      obtain ⟨r, hr⟩ := polite_busRead hm
      exact ⟨(b.setAgenda rest).afterRead r, by simp only [step, ha, hostTurn, setAgenda_params, hr],
        .inr ⟨rfl, rfl⟩⟩
    | memWrite a d => cases hm
    | memRead a => cases hm
    | reclaim base => cases hm

end Sys2Proof.Machine
end

section
/-!
The obligations about the command interface.
-/
namespace Sys2Proof.Machine
open Block

/-- Settles O4: each of the three is the core's turn, which runs the pending command while BUSY. -/
theorem coreTurnRunsThePendingCommand : Obligations.CoreTurnRunsThePendingCommand :=
  fun _ _ hp => ⟨fun _ ha => (step_core ha).trans (if_pos hp), fun ha => (step_nil ha).trans (if_pos hp),
    fun _ ha => (step_wait_busy ha hp).trans (if_pos hp)⟩

/-- Settles O5: an operation runs in the core's turn of the accepted block, RELEASE in its CMD write. -/
theorem placedCommandRuns : Obligations.PlacedCommandRuns := by
  intro W b
  refine ⟨fun op => ?_, fun hp => ?_⟩
  · rw [withFetchWord_pending]
    exact step_core rfl
  · have hdecode : decode (encode W .release) = .command .release := decode_eq_command_iff.mpr rfl
    rw [withFetchWord_release hp]
    exact step_cmd_release rfl hp hdecode

/-- Settles O6: BUSY ignores the write; else the decoded word decides, and each outcome starts from the released
result. -/
theorem cmdWriteDispatches : Obligations.CmdWriteDispatches := by
  intro W b v rest ha
  refine ⟨fun hp => (step_wr ha).trans (hostWriteReg_busy (b := b.setAgenda rest) hp .cmd v), fun hp =>
    ⟨fun r hd => step_cmd_illegal ha hp hd, fun hd => ?_, fun op hd => step_cmd_pending ha hp hd⟩⟩
  have hstep := step_cmd_release ha hp hd
  exact ⟨hstep, hstep⟩

/-- Settles O7: whatever the word, ReleaseResult has run; the word decides ERR. -/
theorem cmdWriteReleasesTheResult : Obligations.CmdWriteReleasesTheResult := by
  intro W b v rest ha hp
  obtain ⟨t, hstep, hend, herr⟩ := step_cmd_endsResult ha hp
  obtain ⟨hbuffer, hcleared, hmem, -, -, htrace⟩ := hend
  exact ⟨t, hstep, hcleared, hbuffer.wkind, hbuffer.hbase, hbuffer.wn, hmem, hbuffer.rbaseWord, htrace,
    herr.trans (by cases decode v <;> rfl)⟩

/-- Settles O10: by induction on the agenda; while BUSY each polite move ends BUSY or shortens it, and with none left
the core moves. -/
theorem busyEnds : Obligations.BusyEnds := by
  intro W b
  generalize hl : b.agenda = l
  induction l generalizing b with
  | nil =>
    intro _
    by_cases hp : b.phase = .busy
    · obtain ⟨t, ht, hend⟩ := coreTurn_endsBusy hp
      exact ⟨1, Nat.le_refl 1, t, run_succ (M := Sys2Proof.core) ((step_nil hl).trans ht) 0, hend⟩
    · exact ⟨0, Nat.zero_le _, b, rfl, hp⟩
  | cons m rest ih =>
    intro hpolite
    by_cases hp : b.phase = .busy
    · obtain ⟨t, ht, hend | ⟨hrest, hparams⟩⟩ := step_polite_busy hp hl (hpolite m List.mem_cons_self)
      · exact ⟨1, by simp, t, run_succ (M := Sys2Proof.core) ht 0, hend⟩
      · obtain ⟨k, hk, u, hrun, hu⟩ := ih t hrest fun m' hm' => hparams ▸ hpolite m' (List.mem_cons_of_mem m hm')
        exact ⟨k + 1, Nat.succ_le_succ hk, u, (run_succ (M := Sys2Proof.core) ht k).trans hrun, hu⟩
    · exact ⟨0, Nat.zero_le _, b, rfl, hp⟩

/-- Settles O41: RELEASE is ReleaseResult and IDLE; in IDLE nothing is held, and BUSY ignores the write. -/
theorem releaseResult : Obligations.ReleaseResult := by
  intro W b h
  refine ⟨fun _ => ?_, fun hp => ?_, fun hp rest ha => ?_⟩
  · have hend : ResultEnded b (b.releaseResult.setPhase .idle) := resultEnded_releaseResult b
    obtain ⟨hbuffer, hcleared, hmem, hinl, hacqd, htrace⟩ := hend
    exact ⟨b.releaseResult.setPhase .idle, rfl, statusWord_of_quiet _ rfl hcleared hbuffer.wkind, hcleared.rval,
      hcleared.rsize, hbuffer.rbaseWord, rfl, hbuffer.wkind, hbuffer.wn, hmem, hinl, hacqd,
      (InputsKept.refl b).releaseResult.update, htrace⟩
  · have hidle : b.phase ≠ .done := by simp [hp]
    obtain ⟨he, hc, -⟩ := h.quiet hidle
    have hself : b.releaseResult.setPhase .idle = b := by
      rw [releaseResult_eq_self he hc (h.noBuffer hidle), ← hp]
      rfl
    exact congrArg (fun t : Block W => Host.Outcome.next (⟨W, t⟩ : State)) hself
  · exact (step_wr ha).trans (hostWriteReg_busy (b := b.setAgenda rest) hp .cmd _)

/-- Settles O43: the register read is the whole step. -/
theorem registerReadHasNoSideEffect : Obligations.RegisterReadHasNoSideEffect := by
  intro W b r rest ha
  rw [step_rd ha, afterRead, readReg_setAgenda]
  rfl

/-- Settles O52: after reset XFORM is 0, so operand X is no number and every operation is rejected. -/
theorem commandsRightAfterResetFail : Obligations.CommandsRightAfterResetFail := by
  intro W p op
  have hform : ((Block.resetWith W p []).acceptCommand op).xform = 0 := rfl
  have hrejected : ¬ ((Block.resetWith W p []).acceptCommand op).Accepted op := fun ⟨hx, _⟩ => by
    simp [HasNumber, hform] at hx
  exact ⟨_, exec_pending op _, failedWith_of_rejected rfl hrejected⟩

/-- Settles O56: the move is neither a CMD write nor a reset, so it keeps the held result, and what is kept denotes
and reads the same. -/
theorem resultStaysUntilTheNextCommand : Obligations.ResultStaysUntilTheNextCommand := by
  intro W b s' h hp hcmd hreset hs
  obtain ⟨t, rfl, ht⟩ := step_turn hs
  have hbusy : (b.setAgenda b.agenda.tail).phase ≠ .busy := by simp [hp]
  have hkept : HeldKept (b.setAgenda b.agenda.tail) t := by
    cases ha : b.agenda with
    | nil =>
      rw [ha] at ht hbusy
      exact ht.heldKept hbusy nofun nofun
    | cons m rest =>
      rw [ha] at ht hbusy
      exact ht.heldKept hbusy (fun v e => hcmd v rest (e ▸ ha)) fun e => hreset rest (e ▸ ha)
  exact ⟨t, rfl, hkept.phase.trans hp, hkept.resultValue (h.setAgenda _),
    fun r hr => (hkept.readReg hr).trans (readReg_setAgenda b _ r)⟩

end Sys2Proof.Machine
end

section
/-!
SUPPORT. How a command fails: the causes of BadArgument and of AllocationFailure, and the block an error leaves (R256,
R281 to R283).
-/
namespace Sys2Proof.Machine.Block
variable {W : Width} {b t : Block W} {op : PendingOp} {f : Word W → Nat → Word W}

/-! ### The causes of BadArgument (R281) -/

/-- Operand X is rejected for its form or, a DIGITS operand, for its size and address range (R120, R122). -/
theorem not_hasNumber_iff : ¬ b.HasNumber ↔ (b.xform = 0 ∨ b.xform = 3) ∨
    (b.xform = 2 ∧ (b.xsize = 0 ∨ b.params.maxDigits < b.xsize.toNat ∨
      2 ^ W.bits < b.xbase.toNat + b.xsize.toNat)) := by
  have hform := b.xform_lt
  have hzero : b.xsize = 0 ↔ b.xsize.toNat = 0 := by rw [← BitVec.toNat_inj]; rfl
  rw [hzero, HasNumber]
  generalize 2 ^ W.bits = bound
  omega

theorem not_hasIndex_iff : ¬ b.HasIndex ↔ b.nkind = 0 ∨ b.nkind = 3 := by
  have hkind := b.nkind_lt
  rw [HasIndex]
  omega

theorem bitOp_iff : bitOp op = true ↔ op = .test ∨ op = .set ∨ op = .clear ∨ op = .toggle := by
  cases op <;> simp [bitOp]

/-- The operands of a command are rejected for operand X, or, of a bit operation, for the index or the sign. -/
theorem not_accepted_iff : ¬ b.Accepted op ↔
    ¬ b.HasNumber ∨ (bitOp op = true ∧ (¬ b.HasIndex ∨ b.Negative)) := by
  rw [Accepted, not_and_or, Classical.not_imp, not_and_or, not_not]

/-- Accepted operands end in a result or in AllocationFailure. -/
theorem Ended.err_ne_badArgument (ht : Ended b op t) (ha : b.Accepted op) : t.err ≠ .badArgument := by
  cases ht with
  | rejected _ h _ => exact absurd ha h
  | scalar _ _ _ _ _ _ => exact nofun
  | original _ _ _ => exact nofun
  | huge _ _ _ => exact nofun
  | edit _ _ _ _ _ ht => exact ht.err_ne_badArgument

/-- A command ends in BadArgument exactly where its operands are rejected. -/
theorem runCommand_err_badArgument_iff (hl : b.params.legal W = true) (hk : b.wkind = .none) :
    (b.runCommand op.body).err = .badArgument ↔ ¬ b.Accepted op :=
  ⟨fun he ha => (ended_runCommand hl op).err_ne_badArgument ha he, fun ha => (failedWith_of_rejected hk ha).err⟩

/-! ### The causes of AllocationFailure (R282) -/

/-- SET or TOGGLE of an accepted operand needs more than `MAX_DIGITS` digits (R142). -/
abbrev TooLarge (b : Block W) (op : PendingOp) : Prop :=
  (b.HasNumber ∧ ¬ b.Negative) ∧ (op = .set ∨ op = .toggle) ∧ b.nkind = 1 ∧ b.params.maxDigits < b.neededDigits

/-- SET or TOGGLE of an accepted operand has a HUGE index (R162). -/
abbrev HugeEdit (b : Block W) (op : PendingOp) : Prop :=
  (b.HasNumber ∧ ¬ b.Negative) ∧ (op = .set ∨ op = .toggle) ∧ b.nkind = 2

/-- The allocator refuses the copy of `n` digits (R147). -/
abbrev RefusedCopy (b : Block W) (op : PendingOp) (n : Nat) : Prop :=
  b.copyLength op.instr = some n ∧ 4 ≤ n ∧ b.allocAnswer b.operandRegion n = .fail

/-- CLEAR edits only in range, where the operand's own digits are enough: the edit too large is one of SET or
TOGGLE. -/
theorem Edits.tooLarge (he : b.Edits op f) (hl : b.params.legal W = true) (hlt : b.params.maxDigits < b.neededDigits) :
    b.TooLarge op := by
  obtain ⟨⟨hx, hs, hn⟩, hedit, hrange⟩ := he
  refine ⟨⟨hx, hs⟩, ?_, hn, hlt⟩
  cases op with
  | set => exact .inl rfl
  | toggle => exact .inr rfl
  | clear =>
    rw [neededDigits_of_inRange (hrange rfl)] at hlt
    exact absurd (operandSize_le hl hx) (Nat.not_le.mpr hlt)
  | _ => cases hedit

/-- Every AllocationFailure has one of the three causes. -/
theorem Ended.cause_of_allocationFailure (ht : Ended b op t) (hl : b.params.legal W = true)
    (herr : t.err = .allocationFailure) : b.TooLarge op ∨ b.HugeEdit op ∨ ∃ n, b.RefusedCopy op n := by
  cases ht with
  | rejected _ _ _ => cases herr
  | scalar _ _ _ _ _ _ => cases herr
  | original _ _ _ => cases herr
  | huge ha ho hn =>
    obtain ⟨-, hs⟩ := ha.2 (by obtain rfl | rfl := ho <;> rfl)
    exact .inr (.inl ⟨⟨ha.1, hs⟩, ho, hn⟩)
  | edit f _ hready hedit hrange ht =>
    have he : b.Edits op f := ⟨hready, hedit, hrange⟩
    cases ht with
    | tooLarge hlt => exact .inl (he.tooLarge hl hlt)
    | refused hle hge ha => exact .inr (.inr ⟨_, he.copyLength.trans (if_pos hle), hge, ha⟩)
    | inline _ _ => cases herr
    | heap _ _ _ _ => cases herr

/-- An edit with no buffer to be had fails. -/
theorem Edits.failedWith (he : b.Edits op f) (hk : b.wkind = .none) (hg : ¬ b.BufferGranted b.neededDigits) :
    (b.runCommand op.body).FailedWith .allocationFailure := by
  rw [he.runCommand]
  exact (editRun_outcome b f).failedWith hk hg

theorem TooLarge.failedWith (h : b.TooLarge op) (hk : b.wkind = .none) :
    (b.runCommand op.body).FailedWith .allocationFailure := by
  obtain ⟨⟨hx, hs⟩, ho, hn, hlt⟩ := h
  obtain ⟨f, he⟩ := exists_edits ⟨hx, hs, hn⟩ ho
  exact he.failedWith hk fun hg => Nat.not_le.mpr hlt hg.1

theorem HugeEdit.failedWith (h : b.HugeEdit op) (hk : b.wkind = .none) :
    (b.runCommand op.body).FailedWith .allocationFailure := by
  obtain ⟨⟨hx, hs⟩, ho, hn⟩ := h
  exact failedWith_of_huge hk ho hx hn hs

theorem RefusedCopy.failedWith {n : Nat} (h : b.RefusedCopy op n) (hk : b.wkind = .none) :
    (b.runCommand op.body).FailedWith .allocationFailure := by
  obtain ⟨hlen, hge, ha⟩ := h
  obtain ⟨op', f, hop, he⟩ := edits_of_copyLength hlen
  obtain rfl := PendingOp.instr_injective hop
  have hn : b.neededDigits = n := by
    have hcopy := he.copyLength.symm.trans hlen
    split_ifs at hcopy
    exact Option.some.inj hcopy
  exact he.failedWith hk fun ⟨_, hgrant⟩ => hgrant.elim (fun hlt => absurd (hn ▸ hlt) (Nat.not_lt.mpr hge))
    (absurd (hn.symm ▸ ha))

/-- A command ends in AllocationFailure exactly for one of the three causes. -/
theorem runCommand_err_allocationFailure_iff (hl : b.params.legal W = true) (hk : b.wkind = .none) :
    (b.runCommand op.body).err = .allocationFailure ↔
      b.TooLarge op ∨ b.HugeEdit op ∨ ∃ n, b.RefusedCopy op n := by
  refine ⟨(ended_runCommand hl op).cause_of_allocationFailure hl, ?_⟩
  rintro (h | h | ⟨n, h⟩)
  · exact (h.failedWith hk).err
  · exact (h.failedWith hk).err
  · exact (h.failedWith hk).err

/-- Neither a copy too large nor a HUGE index comes to copy. -/
theorem copyLength_of_tooLarge_or_huge (h : b.TooLarge op ∨ b.HugeEdit op) : b.copyLength op.instr = none := by
  obtain ⟨-, -, -, hlt⟩ | ⟨-, -, hn⟩ := h
  · exact if_neg fun hc => Nat.not_le.mpr hlt hc.2
  · exact IndexBeyondMaxDigits.copyLength (.inl hn) op.instr

/-! ### What an error leaves (R256, R283) -/

theorem FailedWith.rbaseWord {e : ErrCode} (h : t.FailedWith e) : t.rbaseWord = 0 :=
  t.rbaseWord_of_not_heap (by simp [h.wkind])

/-- STATUS after an error holds DONE and the code (R24). -/
theorem FailedWith.statusWord {e : ErrCode} (h : t.FailedWith e) :
    t.statusWord = BitVec.ofNat W.bits (Phase.done.code + e.code * 2 ^ 2) := by
  simp [Block.statusWord, h.phase, h.err, h.cleared.rform, h.cleared.rsign, h.wkind, RForm.code, WKind.code]

theorem failedWith_failWith (hk : b.wkind = .none) (e : CmdError) : (b.failWith e).FailedWith (errorCode e) :=
  ⟨rfl, rfl, ⟨rfl, rfl, rfl, rfl⟩, hk⟩

/-- The block `c` a raise finds: the buffer and memory as they were before the command, and in the trace at most a
call that failed. -/
structure RaisedIn (b c : Block W) : Prop where
  wkind : c.wkind = b.wkind
  mem : c.mem = b.mem
  trace : c.trace = b.trace ∨ ∃ n, c.trace = b.trace ++ [.alloc n .fail]

theorem raisedIn_acquired (b : Block W) : b.RaisedIn b.acquired := by
  obtain ⟨v, hv⟩ := acquired_eq b
  rw [hv]
  exact ⟨rfl, rfl, .inl rfl⟩

theorem raisedIn_refused {n : Nat} (ha : b.allocAnswer b.operandRegion n = .fail) :
    b.RaisedIn (b.acquired.afterAlloc b.operandRegion n) where
  wkind := (takeAnswer_wkind b.acquired).trans (raisedIn_acquired b).wkind
  mem := (takeAnswer_mem b.acquired).trans (raisedIn_acquired b).mem
  trace := .inr ⟨n, by rw [acquired_afterAlloc_trace, ha]⟩

/-- Every error of a command is a raise in such a block. -/
theorem Ended.exists_failWith (ht : Ended b op t) (herr : t.err ≠ .none) :
    ∃ c e, b.RaisedIn c ∧ t = c.failWith e := by
  cases ht with
  | rejected c _ hc =>
    obtain rfl | rfl := hc
    · exact ⟨b.clearPortLog, _, ⟨rfl, rfl, .inl rfl⟩, rfl⟩
    · exact ⟨_, _, raisedIn_acquired b, rfl⟩
  | scalar _ _ _ _ _ _ => exact absurd rfl herr
  | original _ _ _ => exact absurd rfl herr
  | huge _ _ _ => exact ⟨_, _, raisedIn_acquired b, rfl⟩
  | edit _ _ _ _ _ ht =>
    cases ht with
    | tooLarge _ => exact ⟨_, _, raisedIn_acquired b, rfl⟩
    | refused _ _ ha => exact ⟨_, _, raisedIn_refused ha, rfl⟩
    | inline _ _ => exact absurd rfl herr
    | heap _ _ _ _ => exact absurd rfl herr

/-- The illegal word ends whatever result was held, and reports itself (R260). -/
theorem failedWith_illegalCommand (b : Block W) : b.illegalCommand.FailedWith .illegalCommand := by
  have hend : ResultEnded b b.illegalCommand := resultEnded_releaseResult b
  exact ⟨rfl, rfl, hend.cleared, hend.noBuffer.wkind⟩

end Sys2Proof.Machine.Block
end

section
/-!
SUPPORT. The host's write of a digit (R320), a reset as a step (R311), and the core's read of a digit that has been
given back (I18).
-/
namespace Sys2Proof.Machine
open Block
variable {W : Width} {b : Block W} {a : Nat} {d : Word W} {rest : List (Move W)}

/-- The storage the host must not write: the guarded operand region and a held heap buffer (R320). -/
theorem Block.hostMayNotWrite_iff : b.hostMayNotWrite a = true ↔
    (∃ r, b.guarded = some r ∧ r.has a = true) ∨
      (b.wkind = .heap ∧ b.hbase.toNat ≤ a ∧ a < b.hbase.toNat + b.wn) := by
  rw [hostMayNotWrite, Bool.or_eq_true, Option.any_eq_true, Option.any_eq_true, heldRegion]
  refine or_congr Iff.rfl ?_
  by_cases hk : b.wkind = .heap <;> simp [hk, Region.has_iff]

/-- A host write on storage the core owns is refused (R320). -/
theorem step_memWrite_refused (h : b.agenda = .host (.memWrite a d) :: rest) (ha : a < 2 ^ W.bits)
    (hw : b.hostMayNotWrite a = true) : step ⟨W, b⟩ = .refused (.hostTouchedOwnedStorage a) := by
  have hw' : (b.setAgenda rest).hostMayNotWrite a = true := hw
  simp only [step, h, hostTurn, if_neg (Nat.not_le.mpr ha), if_pos hw']

/-- Any other host write stores the digit (R65). -/
theorem step_memWrite (h : b.agenda = .host (.memWrite a d) :: rest) (ha : a < 2 ^ W.bits)
    (hw : ¬ b.hostMayNotWrite a = true) : step ⟨W, b⟩ = .next ⟨W, (b.setAgenda rest).putDigit a d⟩ := by
  have hw' : ¬ (b.setAgenda rest).hostMayNotWrite a = true := hw
  simp only [step, h, hostTurn, if_neg (Nat.not_le.mpr ha), if_neg hw']

theorem step_reset (h : b.agenda = .host .reset :: rest) : step ⟨W, b⟩ = .next ⟨W, (b.setAgenda rest).hostReset⟩ := by
  simp only [step, h, hostTurn]

namespace Block

theorem digitAt_putDigit_same (hm : b.mem.wf) (a : Nat) (d : Word W) : (b.putDigit a d).digitAt a = d :=
  readDigit_writeDigit_same hm W _ a d

theorem digitAt_putDigit_other {a' : Nat} (h : a' ≠ a) (d : Word W) : (b.putDigit a d).digitAt a' = b.digitAt a' :=
  readDigit_writeDigit_other W _ _ h d

/-- A bit fits a word. -/
theorem bit_toNat_lt (W : Width) (bit : Bool) : bit.toNat < 2 ^ W.bits :=
  Nat.lt_of_lt_of_le (Bool.toNat_lt bit) (by cases W <;> decide)

/-- A digit given back reads as a free value, and the next free value is another (A6). -/
theorem memRead_of_released (h : a ∈ b.released) :
    b.memRead a = (Config.releasedDigit W b.draws a, b.countDraw.logPort (.read a)) := by
  rw [memRead, fetchDigit, if_pos h]

/-- A DIGITS operand is acquired without a change to ACQD (R122). -/
theorem acquired_of_digits (hx : b.xform = 2) : b.acquired = b.clearPortLog :=
  if_neg fun (hone : b.xform = 1) => by rw [hx] at hone; cases hone

/-- Digit `i` of a DIGITS operand, if it has been given back. -/
theorem acquired_digit_of_released (hx : b.xform = 2) {i : Nat} (h : b.xbase.toNat + i ∈ b.released) :
    b.acquired.digit b.operandView i = (Config.releasedDigit W b.draws (b.xbase.toNat + i),
      b.clearPortLog.countDraw.logPort (.read (b.xbase.toNat + i))) := by
  rw [acquired_of_digits hx, operandView, if_pos hx]
  exact memRead_of_released (b := b.clearPortLog) h

end Block
end Sys2Proof.Machine
end

section
/-!
The obligations about errors, reset and the ownership of storage.
-/
namespace Sys2Proof.Machine
open Block

/-- Settles O37: BadArgument is the rejection of the operands, said cause by cause. -/
theorem badArgumentCauses : Obligations.BadArgumentCauses := by
  intro W b op h hp
  refine ⟨_, exec_pending op b, (runCommand_err_badArgument_iff h.legal (h.noBuffer (by simp [hp])).wkind).trans ?_⟩
  rw [not_accepted_iff, not_hasNumber_iff, not_hasIndex_iff, bitOp_iff, or_assoc]

/-- Settles O38: the three causes, and the allocator's calls by the length the command copies. -/
theorem allocationFailureCauses : Obligations.AllocationFailureCauses := by
  intro W b op h hp
  have htrace := runCommand_trace h.legal op
  refine ⟨_, exec_pending op b, runCommand_err_allocationFailure_iff h.legal (h.noBuffer (by simp [hp])).wkind,
    fun hcause => ?_, fun n hlen hge ha => ?_⟩
  · rw [htrace, allocCalls_of_copyLength_none (copyLength_of_tooLarge_or_huge hcause), List.append_nil]
  · rw [htrace, allocCalls_of_heap hlen hge, ha]

/-- Settles O39: an error of a command is a raise in a block whose memory is as it was; an illegal word ends the held
result. -/
theorem errorsLeaveNoTrace : Obligations.ErrorsLeaveNoTrace := by
  refine ⟨fun W b t op h hp ht herr => ?_, fun W b v rest r hp ha hd => ?_⟩
  · rw [exec_pending] at ht
    cases ht
    have hinputs := inputsKept_runCommand b op
    obtain ⟨c, e, hc, heq⟩ := (ended_runCommand h.legal op).exists_failWith herr
    have hfail : (c.failWith e).FailedWith (errorCode e) :=
      failedWith_failWith (hc.wkind.trans (h.noBuffer (by simp [hp])).wkind) e
    rw [heq] at hinputs ⊢
    exact ⟨hfail, hfail.rbaseWord, hc.mem, hinputs, hc.trace⟩
  · have hfail := failedWith_illegalCommand (b.setAgenda rest)
    have hend : ResultEnded (b.setAgenda rest) (b.setAgenda rest).illegalCommand := resultEnded_releaseResult _
    exact ⟨_, step_cmd_illegal ha hp hd, hfail, hfail.statusWord, hfail.rbaseWord, hend.mem,
      (InputsKept.refl (b.setAgenda rest)).releaseResult.update, hend.trace⟩

/-- Settles O9: the core's turn outside BUSY is no step. -/
theorem coreWaitsOutsideBusy : Obligations.CoreWaitsOutsideBusy :=
  fun _ b hp => ⟨fun ha => (step_nil ha).trans (coreTurn_notBusy hp),
    fun rest ha => (step_core ha).trans (coreTurn_notBusy (b := b.setAgenda rest) hp)⟩

/-- Settles O48: the step refuses a write on owned storage; any other stores one digit, none of a held buffer. -/
theorem hostWritesRespectOwnership : Obligations.HostWritesRespectOwnership := by
  intro W b a d rest h ha hagenda
  rw [← hostMayNotWrite_iff]
  refine ⟨step_memWrite_refused hagenda ha, fun hw => ⟨_, step_memWrite hagenda ha hw,
    digitAt_putDigit_same (b := b.setAgenda rest) h.mem a d,
    fun a' hne => digitAt_putDigit_other (b := b.setAgenda rest) hne d, fun i hi => ?_⟩⟩
  obtain ⟨-, hheld⟩ := hostMayNotWrite_eq_false (Bool.eq_false_iff.mpr hw)
  have hkept : HeldKept (b.setAgenda rest) ((b.setAgenda rest).putDigit a d) :=
    heldKept_putDigit (b := b.setAgenda rest) hheld d
  exact Nat.not_lt.mp fun hlt => hi (hkept.digits i hlt).symm

/-- Settles O51: a reset takes every register to its reset value and leaves storage and the allocator's side. -/
theorem resetAbandonsTheBuffer : Obligations.ResetAbandonsTheBuffer :=
  fun _ _ _ ha => ⟨_, step_reset ha, rfl, ⟨rfl, rfl, rfl, rfl⟩, rfl, rfl, rfl, rfl, rfl, rfl, rfl, rfl, rfl, rfl, rfl,
    rfl, rfl, rfl⟩

/-- Settles O55: TEST reads the digit, which is a free value, and its result is a bit of it. -/
theorem testOfReturnedStorageIsFree : Obligations.TestOfReturnedStorageIsFree := by
  intro W b h hp hb hx hr hrel
  have hread := acquired_digit_of_released hx hrel
  have hrun := run_test_inRange hb hr
  have hreads := readsOnly_digit b.acquired b.operandView (b.nval.toNat / W.bits)
  simp only [digitIndex, bitOffset, hread] at hrun hreads
  refine ⟨_, exec_pending .test b, ?_⟩
  rw [PendingOp.body, hrun]
  exact ⟨rfl, (scalar_end hreads (h.noBuffer (by simp [hp])).wkind (bit_toNat_lt W _)).1⟩

end Sys2Proof.Machine
end
